-- ==== Sys2Proof/Word.lean ====
section
/-! DEFINITION. The word types of the block: bytes, code points, datagrams and endpoints
(`00_scope.md` R7, R8; `30_encoding.md` R85). -/

namespace Sys2Proof

/-- A byte: bit 7 is the most significant (R7). -/
abbrev Byte := BitVec 8

/-- A character as a host gives it: a number that R85 wants to be a Unicode scalar value. It is 32 bits
wide so that an operand record that breaks this can be written down and refused. -/
abbrev CodePoint := BitVec 32

/-- A character as a host's decoder makes it: a Unicode code point, 0 to 0x10FFFF, the surrogates among them (R8). -/
abbrev UnicodePoint := Fin 0x110000

/-- FC_BITS (R6): the width of the frame counter. -/
abbrev Config.fcBits : Nat := 32

/-- A frame counter (R28). -/
abbrev FrameCounter := BitVec Config.fcBits

/-- One UDP datagram: a byte sequence, index 0 the first byte sent or received (R8). -/
abbrev Datagram := List Byte

/-- An endpoint: an opaque value the host supplies (R25, R85). The block only hands it on. -/
abbrev Endpoint := Nat

end Sys2Proof
end

