-- ==== Sys2Proof/Config.lean ====
section
/-! DEFINITION. The parameters of `00_scope.md` R6: the constants fixed for this hardware, the OPEN parameters
as constants without a body, and the free values. -/

namespace Sys2Proof

/-- READ_SPAN (R6): how much one `read(count)` returns. `fill` is R254; `part` is the spec's `partial`, R255. -/
inductive ReadSpan where
  | fill
  | part
  deriving DecidableEq, Repr, Inhabited

/-- TXFAIL_COUNTER (R6): the frame counter after a failed transmission (R213). -/
inductive TxFailCounter where
  | advanced
  | restored
  deriving DecidableEq, Repr, Inhabited

/-- The OPEN parameters that a command's meaning reads. -/
structure Params where
  readSpan   : ReadSpan
  txFail     : TxFailCounter
  /-- BUF_INIT_CAP: the initial capacity of a growable buffer. -/
  bufInitCap : Nat
  deriving DecidableEq, Repr, Inhabited

/-- The seven dimensions of the registries (R23, `30_encoding.md` R97). -/
inductive Dimension where
  | protocol
  | sampleRate
  | bitsPerSecond
  | audioFormat
  | format
  | commandFormat
  | codec
  deriving DecidableEq, Repr

namespace Config

/-- HDR_LEN. -/
def hdrLen : Nat := 28
/-- MAX_DATAGRAM. -/
def maxDatagram : Nat := 1436
/-- MAX_PAYLOAD = MAX_DATAGRAM − HDR_LEN. -/
def maxPayload : Nat := maxDatagram - hdrLen
/-- NAME_LEN. -/
def nameLen : Nat := 16
/-- The offset of the name field in a header (R80). -/
def nameOffset : Nat := 8
/-- The offset of the frame counter: the name field ends there (R80). -/
def fcOffset : Nat := nameOffset + nameLen
/-- MAGIC: "VBAN". -/
def magic : List Byte := [0x56, 0x42, 0x41, 0x4E]
/-- NEWLINE. -/
def newline : Byte := 0x0A
/-- ASCII_REPLACEMENT. -/
def asciiReplacement : Byte := 0x3F
/-- STRICT_DECODE, fixed at true. The decoder takes it as an argument, so both settings can be spoken of. -/
def strictDecode : Bool := true

/-- The codes 0 to `n` − 1. -/
def codesBelow (n : Nat) : List Byte := (List.range n).map (BitVec.ofNat 8)

/-- The legal codes of each dimension (R23): Protocol and Codec by the source, SR_CODES, BPS_CODES, AFMT_CODES,
SFMT_CODES and CFMT_CODES contiguous from 0. -/
def codes : Dimension → List Byte
  | .protocol      => [0x00, 0x20, 0x40, 0x60]
  | .sampleRate    => codesBelow 21
  | .bitsPerSecond => codesBelow 25
  | .audioFormat   => codesBelow 8
  | .format        => codesBelow 1
  | .commandFormat => codesBelow 3
  | .codec         => [0x00, 0x10, 0x20, 0xF0]

/-- The SampleRate values of R89, in Hz, by code. PRESUMED: the spec's own mark is general knowledge. R89 wants the
pairing of codes and values kept as a parameter: it is this constant, and no meaning names it (log entry 7). -/
def sampleRateValues : List Nat :=
  [6000, 12000, 24000, 48000, 96000, 192000, 384000, 8000, 16000, 32000, 64000, 128000, 256000, 512000, 11025, 22050,
   44100, 88200, 176400, 352800, 705600]

/-- The BitsPerSecond values of R89, by code. PRESUMED, as above (log entry 7). -/
def bitsPerSecondValues : List Nat :=
  [0, 110, 150, 300, 600, 1200, 2400, 4800, 9600, 14400, 19200, 31250, 38400, 57600, 115200, 128000, 230400, 250000,
   256000, 460800, 921600, 1000000, 1500000, 2000000, 3000000]

/-- The OPEN parameters READ_SPAN, TXFAIL_COUNTER and BUF_INIT_CAP of the machine at hand. No body: no proof
can see which values they have (log entry 3). -/
opaque params : Params

/-- N_FR − 1, with N_FR in 1..256 OPEN (log entry 4). -/
opaque framersLessOne : Fin 256

/-- N_DF − 1, with N_DF in 1..256 OPEN (log entry 4). -/
opaque deframersLessOne : Fin 256

/-- `asciiDecode` on 0x80..0xFF: OPEN, the host's decoder. It may give any code point (R6, R8; log entry 5). -/
opaque asciiDecodeHigh : Byte → UnicodePoint

/-- `utf8Decode`: OPEN, the host's decoder, a total function. It may give any code points (R6, R8; log entry 5). -/
opaque utf8Decode : List Byte → List UnicodePoint

/-- R257 does not fix whether a DF_CLOSE aborts the pending receive. True for *abort*, false for *linger*: the free
value of the `n`-th such close of DF[k] (log entry 6). -/
opaque closeAborts (k n : Nat) : Bool

end Config

end Sys2Proof
end

