-- ==== Sys2Proof/Machine/Bytes.lean ====
section
/-! DEFINITION. The byte-sequence notation of `00_scope.md` R8 that a Lean list does not have already. `len` is
`List.length`, `take` is `List.take`, `++` is append. -/

namespace Sys2Proof.Machine

/-- `B[i]`; 0 past the end, where no rule reads. -/
def byteAt (b : List Byte) (i : Nat) : Byte := b.getD i 0

/-- `B[i..j)`: empty when `j ≤ i`, and cut at `len(B)`. -/
def sliceOf (b : List Byte) (i j : Nat) : List Byte := (b.drop i).take (j - i)

/-- `zeros(n)`. -/
def zeroBytes (n : Nat) : List Byte := List.replicate n 0

/-- `LE32(B, o)`. -/
def le32 (b : List Byte) (o : Nat) : BitVec 32 :=
  byteAt b (o + 3) ++ byteAt b (o + 2) ++ byteAt b (o + 1) ++ byteAt b o

/-- `toLE32(v)`: least significant byte first (`20_memory.md` R61). -/
def toLe32 (v : BitVec 32) : List Byte :=
  [v.extractLsb' 0 8, v.extractLsb' 8 8, v.extractLsb' 16 8, v.extractLsb' 24 8]

end Sys2Proof.Machine
end

