-- ==== Sys2Proof/Machine/Flags.lean ====
section
/-! DEFINITION. The outcome codes of a command. The block has no condition codes and no sticky flags (`10_state.md`
R22): a command's `status` and `cause` in its own result record stand in their place (`60_exceptions.md` R300,
R301). -/

namespace Sys2Proof.Machine

/-- The statuses of R300. Codes 11 to 15 are reserved and never produced. -/
inductive Status where
  | ok
  | malformedHeader
  | unsupportedProtocol
  | outOfRange
  | payloadTooLarge
  | bufferTooLarge
  | streamClosed
  | protocolMismatch
  | unknownCode
  | transportError
  | illegalCommand
  deriving DecidableEq, Repr

/-- The 4-bit status code (R300). -/
def statusCode : Status → BitVec 4
  | .ok                  => 0
  | .malformedHeader     => 1
  | .unsupportedProtocol => 2
  | .outOfRange          => 3
  | .payloadTooLarge     => 4
  | .bufferTooLarge      => 5
  | .streamClosed        => 6
  | .protocolMismatch    => 7
  | .unknownCode         => 8
  | .transportError      => 9
  | .illegalCommand      => 10

/-- What `raise E(cause)` carries (R9): a status other than OK, and a cause. -/
structure Failure where
  status : Status
  cause  : BitVec 8
  deriving DecidableEq, Repr

/-- The number of a dimension (`30_encoding.md` R97). -/
def dimNumber : Dimension → BitVec 3
  | .protocol      => 0
  | .sampleRate    => 1
  | .bitsPerSecond => 2
  | .audioFormat   => 3
  | .format        => 4
  | .commandFormat => 5
  | .codec         => 6

/-- The dimension of a number; 7 is reserved (R97). -/
def dimOfNumber (n : BitVec 3) : Option Dimension :=
  if n = 0 then some .protocol
  else if n = 1 then some .sampleRate
  else if n = 2 then some .bitsPerSecond
  else if n = 3 then some .audioFormat
  else if n = 4 then some .format
  else if n = 5 then some .commandFormat
  else if n = 6 then some .codec
  else none

/-- MalformedHeader, causes 1 to 4 (R301). -/
def malformedHeader (cause : BitVec 8) : Failure := ⟨.malformedHeader, cause⟩
/-- UnsupportedProtocol, cause 0. -/
def unsupportedProtocol : Failure := ⟨.unsupportedProtocol, 0⟩
/-- OutOfRange, cause 1 for samples and 2 for channel. -/
def outOfRange (cause : BitVec 8) : Failure := ⟨.outOfRange, cause⟩
/-- PayloadTooLarge, cause 1 on create or flush and 2 on receive. -/
def payloadTooLarge (cause : BitVec 8) : Failure := ⟨.payloadTooLarge, cause⟩
/-- BufferTooLarge, cause 0 at a flush and 1 at an append. -/
def bufferTooLarge (cause : BitVec 8) : Failure := ⟨.bufferTooLarge, cause⟩
/-- StreamClosed, cause 0 on a closed instance and 1 when DF_CLOSE aborts a receive. -/
def streamClosed (cause : BitVec 8) : Failure := ⟨.streamClosed, cause⟩
/-- ProtocolMismatch, cause 0. -/
def protocolMismatch : Failure := ⟨.protocolMismatch, 0⟩
/-- UnknownCode, with the dimension as its cause. -/
def unknownCode (d : Dimension) : Failure := ⟨.unknownCode, (dimNumber d).setWidth 8⟩
/-- TransportError, cause 0. -/
def transportError : Failure := ⟨.transportError, 0⟩
/-- IllegalCommand, causes 1 to 3. -/
def illegalCommand (cause : BitVec 8) : Failure := ⟨.illegalCommand, cause⟩

end Sys2Proof.Machine
end

