-- ==== Sys2Proof/Machine/Buffer.lean ====
section
/-! DEFINITION. The growable byte buffer and its micro-operations (`41_buffer.md` R130 to R137). -/

namespace Sys2Proof.Machine

/-- A growable buffer (R130): its contents, its capacity, and whether its capacity is fixed. -/
structure GrowBuf where
  bytes : List Byte
  cap   : Nat
  fixed : Bool
  deriving DecidableEq, Repr

/-- BufInit(G, c, f) (R137). -/
def bufInit (c : Nat) (f : Bool) : GrowBuf := ⟨[], c, f⟩

/-- BufLen(G) (R133). -/
def bufLen (g : GrowBuf) : Nat := g.bytes.length

/-- BufBytes(G) (R133). -/
def bufBytes (g : GrowBuf) : List Byte := g.bytes

/-- BufClear(G) (R132): capacity and mode stay. -/
def bufClear (g : GrowBuf) : GrowBuf := { g with bytes := [] }

/-- BufAppend(G, b) (R131): a full growable buffer doubles its capacity, at least to 1; a full fixed one fails. -/
def bufAppend (g : GrowBuf) (b : Byte) : Except Failure GrowBuf :=
  if g.bytes.length = g.cap then
    if g.fixed then .error (bufferTooLarge 1)
    else .ok { g with bytes := g.bytes ++ [b], cap := max 1 (2 * g.cap) }
  else .ok { g with bytes := g.bytes ++ [b] }

end Sys2Proof.Machine
end

