-- ==== Sys2Proof/Machine/Tables.lean ====
section
/-! DEFINITION. The registries: seven read-only tables from integer codes to named values (`10_state.md` R23), and
what they hold (`30_encoding.md` R87 to R90). -/

namespace Sys2Proof.Machine

/-- The names of R87. -/
inductive ProtocolName where
  | audio | serial | text | service
  deriving DecidableEq, Repr

/-- The names of R88. -/
inductive CodecName where
  | pcm | vbca | vbcv | user
  deriving DecidableEq, Repr

/-- The AudioFormat names of R90. -/
inductive AudioFormatName where
  | byte8 | int16 | int24 | int32 | float32 | float64 | bits12 | bits10
  deriving DecidableEq, Repr

/-- The CommandFormat names of R90. -/
inductive CommandFormatName where
  | ascii | utf8 | wchar
  deriving DecidableEq, Repr

/-- The named value of a code, as REG_LOOKUP returns it (R111). -/
inductive NamedValue where
  | protocol      (n : ProtocolName)
  | sampleRate    (hz : Nat)
  | bitsPerSecond (bps : Nat)
  | audioFormat   (n : AudioFormatName)
  /-- The one Serial Format value, `Generic`. -/
  | genericFormat
  | commandFormat (n : CommandFormatName)
  | codec         (n : CodecName)
  deriving DecidableEq, Repr

/-- One registry: its codes with their named values. -/
abbrev RegistryTable := List (Byte × NamedValue)

/-- The seven registries (R23). -/
structure Registries where
  protocol      : RegistryTable
  sampleRate    : RegistryTable
  bitsPerSecond : RegistryTable
  audioFormat   : RegistryTable
  format        : RegistryTable
  commandFormat : RegistryTable
  codec         : RegistryTable
  deriving DecidableEq, Repr

/-- The table of a dimension. -/
def tableOf (R : Registries) : Dimension → RegistryTable
  | .protocol      => R.protocol
  | .sampleRate    => R.sampleRate
  | .bitsPerSecond => R.bitsPerSecond
  | .audioFormat   => R.audioFormat
  | .format        => R.format
  | .commandFormat => R.commandFormat
  | .codec         => R.codec

/-- The named value of `c` in dimension `d`: `byValue` of R110. The code is compared whole. -/
def regValue (R : Registries) (d : Dimension) (c : Byte) : Option NamedValue := (tableOf R d).lookup c

/-- `inDim(d, c)` (R110): `c` is a code of the registry. -/
def inDim (R : Registries) (d : Dimension) (c : Byte) : Bool := (regValue R d c).isSome

/-- The contents of the registries, from reset on (R23, R332). -/
def registryContents : Registries where
  protocol      := [(0x00, .protocol .audio), (0x20, .protocol .serial), (0x40, .protocol .text),
                    (0x60, .protocol .service)]
  sampleRate    := (Config.codes .sampleRate).zip (Config.sampleRateValues.map .sampleRate)
  bitsPerSecond := (Config.codes .bitsPerSecond).zip (Config.bitsPerSecondValues.map .bitsPerSecond)
  audioFormat   := [(0, .audioFormat .byte8), (1, .audioFormat .int16), (2, .audioFormat .int24),
                    (3, .audioFormat .int32), (4, .audioFormat .float32), (5, .audioFormat .float64),
                    (6, .audioFormat .bits12), (7, .audioFormat .bits10)]
  format        := [(0, .genericFormat)]
  commandFormat := [(0, .commandFormat .ascii), (1, .commandFormat .utf8), (2, .commandFormat .wchar)]
  codec         := [(0x00, .codec .pcm), (0x10, .codec .vbca), (0x20, .codec .vbcv), (0xF0, .codec .user)]

end Sys2Proof.Machine
end

