-- ==== Sys2Proof/Syntax.lean ====
section
/-! DEFINITION. Commands as syntax: the opcode names, the operand records of `30_encoding.md` R85, the command
type `Instr` with one constructor per row of the opcode table, the pseudo-instructions of R96, and the events a
program for the block is a list of (R95). -/

namespace Sys2Proof

/-- The sixteen commands of the opcode map (R84). -/
inductive Opcode where
  | regLookup | regDims
  | hdrEncode | hdrDecode
  | pktCreate | pktDecode
  | frOpen | frWrite | frFlush | frSendData | frClose
  | dfOpen | dfReadPacket | dfReadData | dfRead | dfClose
  deriving DecidableEq, Repr

/-- The operand record of HDR_ENCODE (R85). `samples` and `channel` are `s32`. -/
structure HeaderRecord where
  protocol : Byte
  rate     : Byte
  samples  : BitVec 32
  channel  : BitVec 32
  format   : Byte
  codec    : Byte
  name     : List CodePoint
  fc       : FrameCounter
  deriving DecidableEq, Repr

/-- The operand record of FR_OPEN (R85). `nameSet` is the `u1` operand `name_set`. -/
structure StreamRecord where
  protocol : Byte
  rate     : Byte
  format   : Byte
  codec    : Byte
  samples  : BitVec 32
  channel  : BitVec 32
  nameSet  : Bool
  name     : List CodePoint
  dest     : Endpoint
  deriving DecidableEq, Repr

/-- The `value` operand of FR_SEND_DATA: characters or bytes (R85). Which of the two a stream needs depends on
its protocol, so that is checked when the command runs. -/
inductive SendValue where
  | chars (cs : List CodePoint)
  | bytes (bs : List Byte)
  deriving DecidableEq, Repr

/-- An operand record as it stands on the command port beside the command word (R84, R85): one constructor per
set of fields. -/
inductive OperandRecord where
  | none
  | lookup   (dim : BitVec 3) (code : Byte)
  | protocol (code : Byte)
  | header   (r : HeaderRecord)
  | data     (bytes : List Byte)
  | packet   (header payload : List Byte)
  | stream   (r : StreamRecord)
  | value    (v : SendValue)
  | count    (n : BitVec 32)
  deriving DecidableEq, Repr

/-- A command: the `inst` field of its word and its operand record, opened. The stateless commands carry `inst`
too, and ignore it (R92). -/
inductive Instr where
  | regLookup    (inst : Byte) (dim : BitVec 3) (code : Byte)
  | regDims      (inst : Byte) (protocol : Byte)
  | hdrEncode    (inst : Byte) (r : HeaderRecord)
  | hdrDecode    (inst : Byte) (data : List Byte)
  | pktCreate    (inst : Byte) (header payload : List Byte)
  | pktDecode    (inst : Byte) (data : List Byte)
  | frOpen       (inst : Byte) (r : StreamRecord)
  | frWrite      (inst : Byte) (data : List Byte)
  | frFlush      (inst : Byte)
  | frSendData   (inst : Byte) (value : SendValue)
  | frClose      (inst : Byte)
  | dfOpen       (inst : Byte) (protocol : Byte)
  | dfReadPacket (inst : Byte)
  | dfReadData   (inst : Byte)
  | dfRead       (inst : Byte) (count : BitVec 32)
  | dfClose      (inst : Byte)
  deriving DecidableEq, Repr

/-- The opcode name of a command. -/
def Instr.opcode : Instr → Opcode
  | .regLookup ..    => .regLookup
  | .regDims ..      => .regDims
  | .hdrEncode ..    => .hdrEncode
  | .hdrDecode ..    => .hdrDecode
  | .pktCreate ..    => .pktCreate
  | .pktDecode ..    => .pktDecode
  | .frOpen ..       => .frOpen
  | .frWrite ..      => .frWrite
  | .frFlush ..      => .frFlush
  | .frSendData ..   => .frSendData
  | .frClose ..      => .frClose
  | .dfOpen ..       => .dfOpen
  | .dfReadPacket .. => .dfReadPacket
  | .dfReadData ..   => .dfReadData
  | .dfRead ..       => .dfRead
  | .dfClose ..      => .dfClose

/-- The `inst` field of a command. -/
def Instr.inst : Instr → Byte
  | .regLookup k ..    => k
  | .regDims k ..      => k
  | .hdrEncode k ..    => k
  | .hdrDecode k ..    => k
  | .pktCreate k ..    => k
  | .pktDecode k ..    => k
  | .frOpen k ..       => k
  | .frWrite k ..      => k
  | .frFlush k         => k
  | .frSendData k ..   => k
  | .frClose k         => k
  | .dfOpen k ..       => k
  | .dfReadPacket k    => k
  | .dfReadData k      => k
  | .dfRead k ..       => k
  | .dfClose k         => k

/-- The operand record of a command. -/
def Instr.record : Instr → OperandRecord
  | .regLookup _ dim code          => .lookup dim code
  | .regDims _ protocol            => .protocol protocol
  | .hdrEncode _ r                 => .header r
  | .hdrDecode _ data              => .data data
  | .pktCreate _ header payload    => .packet header payload
  | .pktDecode _ data              => .data data
  | .frOpen _ r                    => .stream r
  | .frWrite _ data                => .data data
  | .frFlush _                     => .none
  | .frSendData _ v                => .value v
  | .frClose _                     => .none
  | .dfOpen _ protocol             => .protocol protocol
  | .dfReadPacket _                => .none
  | .dfReadData _                  => .none
  | .dfRead _ count                => .count count
  | .dfClose _                     => .none

/-- FR_WRITELN fr<k>, D (R96). -/
def Instr.frWriteln (k : Byte) (d : List Byte) : Instr := .frWrite k (d ++ [0x0A])

/-- REG_PROTOCOL c (R96), on any `inst`. -/
def Instr.regProtocol (k c : Byte) : Instr := .regLookup k 0 c

/-- REG_CODEC c (R96), on any `inst`. -/
def Instr.regCodec (k c : Byte) : Instr := .regLookup k 6 c

/-- What reaches the block from outside, one at a time, in the order the host and the transport choose (R95):
a command on a command port, the answer to a pending `send` (`@tx`), a datagram at a receive port (`@rx`). -/
inductive Event where
  | command (word : BitVec 16) (record : OperandRecord)
  | tx      (k : Nat) (ok : Bool)
  | rx      (k : Nat) (d : Datagram)
  deriving DecidableEq, Repr

end Sys2Proof
end

