-- ==== Sys2Proof/Machine/State.lean ====
section
/-! DEFINITION. The state of the block (`10_state.md`), the reasons a run stops, and the state after reset
(`70_reset_and_hazards.md` R330). -/

namespace Sys2Proof.Machine

/-- A decoded header value (R37). -/
structure Header where
  protocol  : Byte
  rate      : BitVec 5
  samples   : Byte
  channel   : Byte
  format    : BitVec 4
  codec     : Byte
  name      : List Byte
  nameChars : List CodePoint
  fc        : FrameCounter
  deriving DecidableEq, Repr

/-- The output fields of a result record (`30_encoding.md` R86). -/
inductive ResultFields where
  | none
  | value    (v : NamedValue)
  | dims     (rateDim fmtDim : BitVec 3)
  | hb       (bytes : List Byte)
  | hdr      (h : Header)
  | dg       (bytes : List Byte)
  | packet   (h : Header) (payload : List Byte)
  | consumed (n : BitVec 32)
  | fcSent   (n : FrameCounter)
  /-- `kind`, `payload`, and `chars` for Serial and Text only. -/
  | typed    (kind : Byte) (payload : List Byte) (chars : Option (List CodePoint))
  | data     (bytes : List Byte)
  deriving DecidableEq, Repr

/-- A result record as it leaves on a result port (R36). It holds nothing of the command that it answers
(`60_exceptions.md` R301). The 4-bit code of `status` is `statusCode`. -/
structure Result where
  status : Status
  cause  : BitVec 8
  fields : ResultFields
  deriving DecidableEq, Repr

/-- The fixed configuration of a framer, `cfg.*` of R25. -/
structure StreamCfg where
  protocol : Byte
  rate     : BitVec 5
  format   : BitVec 4
  codec    : Byte
  samples  : Byte
  channel  : Byte
  name     : Vector Byte Config.nameLen
  dest     : Endpoint
  deriving DecidableEq, Repr

/-- Which of the two writing commands is running. -/
inductive WriteKind where
  | write
  | sendData
  deriving DecidableEq, Repr

/-- What a framer command that waits in `send` still has to do (R30, R35). -/
inductive FrCont where
  /-- FR_FLUSH: return the counter sent. -/
  | flush
  /-- A flush inside `writeBytes`: `rest` is still to be written, `consumed` bytes are done. -/
  | write    (kind : WriteKind) (rest : List Byte) (consumed : Nat)
  /-- The trailing flush of FR_SEND_DATA. -/
  | trailing (consumed : Nat)
  deriving DecidableEq, Repr

/-- `FR[k].wait` (R30). While `tx_pending`, the suspended command's local values: the datagram being sent, the counter
it carries, and what is left to do. -/
inductive FrWait where
  | idle
  | txPending (dg : Datagram) (fcUsed : FrameCounter) (cont : FrCont)
  deriving DecidableEq, Repr

/-- An output-framer instance (R25), with its transmit port (the datagrams handed to it, each with its destination,
oldest first) and its result port (the results that have left, oldest first). -/
structure Framer where
  isOpen  : Bool
  cfg     : StreamCfg
  fc      : FrameCounter
  buf     : GrowBuf
  wait    : FrWait
  tx      : List (Endpoint × Datagram)
  results : List Result
  deriving DecidableEq, Repr

/-- Which read waits in `receive`, with its local values (R34, R35): a DF_READ has its count and the bytes gathered. -/
inductive DfCont where
  | readPacket
  | readData
  | read (count : BitVec 32) (out : List Byte)
  deriving DecidableEq, Repr

/-- `DF[k].wait` (R34), with the suspended command's local values. -/
inductive DfWait where
  | idle
  | rxPending (cont : DfCont)
  deriving DecidableEq, Repr

/-- An input-deframer instance (R31), with its receive port (the queue of datagrams the transport has delivered,
R318, oldest first) and its result port. `closings` counts the closes during a pending receive: the model's own field,
the argument of the free value `Config.closeAborts` (log entry 6). -/
structure Deframer where
  isOpen   : Bool
  expected : Byte
  rx       : List Byte
  cursor   : Nat
  wait     : DfWait
  queue    : List Datagram
  results  : List Result
  closings : Nat
  deriving DecidableEq, Repr

/-- The block. N_FR and N_DF are the lengths of `frs` and `dfs` (log entry 4). `events` is what the host and the
transport will do, in order, oldest first (R95; log entry 2). `results` is the result port of the commands that
address no instance: the stateless commands, and command words that R308 refuses. -/
structure State where
  params     : Params
  registries : Registries
  frs        : List Framer
  dfs        : List Deframer
  events     : List Event
  results    : List Result
  deriving DecidableEq, Repr

/-- The block has no traps: every failure the spec names is a result record (`60_exceptions.md`, opening), so a step
has nothing to fault with. -/
inductive Fault
  deriving DecidableEq, Repr

/-- Why a run has no meaning (R309, R318). Each is safe: a refused run satisfies no claim. -/
inductive Refusal where
  /-- No meaning yet, by the mnemonic: exec's own arms only. Safe. -/
  | notModelled (mnemonic : String)
  /-- An operand record that breaks its type (R85): `step`. Safe. -/
  | illFormedRecord
  /-- An FR_SEND_DATA value of the other kind than the open stream needs (R85): `execFrSendData`. Safe. -/
  | wrongValueKind
  /-- A command to an instance that has a command waiting, other than DF_CLOSE (R309): every FR_ and DF_ meaning but
  `execDfClose`. Safe. -/
  | instanceBusy
  /-- FR_OPEN or DF_OPEN on an open instance (R309): `execFrOpen`, `execDfOpen`. Safe. -/
  | alreadyOpen
  /-- An answer of the transport to no pending send (R318): `step`, on a `@tx` event. Safe. -/
  | unsolicitedAnswer
  /-- A transport event at a port of no instance (R24): `step`, on a `@tx` or `@rx` event. Safe. -/
  | noSuchPort
  deriving DecidableEq, Repr

/-- The outcome of a step of this block. -/
abbrev StepOutcome := Host.Outcome State Fault Refusal

/-- A configuration of zeros: the value the model gives the unspecified `cfg.*` at reset (DESIGN CHOICE, log entry 9). -/
def StreamCfg.zero : StreamCfg := ⟨0, 0, 0, 0, 0, 0, Vector.replicate Config.nameLen 0, 0⟩

/-- A framer after reset (R330). -/
def Framer.reset (p : Params) : Framer where
  isOpen  := false
  cfg     := StreamCfg.zero
  fc      := 0
  buf     := bufInit p.bufInitCap false
  wait    := .idle
  tx      := []
  results := []

/-- A deframer after reset (R330). `expected` is unspecified there: 0 (DESIGN CHOICE, log entry 9). Its receive port is
what the transport offers: nothing yet (DESIGN CHOICE, log entry 10). -/
def Deframer.reset : Deframer where
  isOpen   := false
  expected := 0
  rx       := []
  cursor   := 0
  wait     := .idle
  queue    := []
  results  := []
  closings := 0

/-- The block at the start of a run (R330): registries full, every instance closed and idle, no command, no result and
no send pending. -/
def State.reset : State where
  params     := Config.params
  registries := registryContents
  frs        := List.replicate (Config.framersLessOne.val + 1) (Framer.reset Config.params)
  dfs        := List.replicate (Config.deframersLessOne.val + 1) Deframer.reset
  events     := []
  results    := []

end Sys2Proof.Machine
end

