-- ==== Sys2Proof/WellFormed.lean ====
section
/-! DEFINITION. When an operand record keeps its type (`30_encoding.md` R85). Widths are kept by the types; what is
left to check is that `chars` holds Unicode scalar values only. That an FR_SEND_DATA value is of the kind its
stream needs depends on the stream, and is checked when the command runs. -/

namespace Sys2Proof

/-- A Unicode scalar value: 0..0xD7FF or 0xE000..0x10FFFF (R85). -/
def isScalar (c : CodePoint) : Bool :=
  c.toNat ≤ 0xD7FF || (0xE000 ≤ c.toNat && c.toNat ≤ 0x10FFFF)

/-- A well-formed `chars` operand. -/
def charsOk (cs : List CodePoint) : Bool := cs.all isScalar

/-- A well-formed FR_SEND_DATA value, of either kind. -/
def SendValue.wellFormed : SendValue → Bool
  | .chars cs => charsOk cs
  | .bytes _  => true

/-- The operand record of the command keeps its type (R85). -/
def Instr.wellFormed : Instr → Bool
  | .regLookup _ _ _  => true
  | .regDims _ _      => true
  | .hdrEncode _ r    => charsOk r.name
  | .hdrDecode _ _    => true
  | .pktCreate _ _ _  => true
  | .pktDecode _ _    => true
  | .frOpen _ r       => charsOk r.name
  | .frWrite _ _      => true
  | .frFlush _        => true
  | .frSendData _ v   => v.wellFormed
  | .frClose _        => true
  | .dfOpen _ _       => true
  | .dfReadPacket _   => true
  | .dfReadData _     => true
  | .dfRead _ _       => true
  | .dfClose _        => true

end Sys2Proof
end

