-- ==== Sys2Proof/Machine/Operands.lean ====
section
/-! DEFINITION. What each operand form becomes: the range check of an `s32` operand, the wire form of a count, the wire
form of a stream name and of a character sequence, the default names, and the character views of received bytes. -/

namespace Sys2Proof.Machine

/-- `0 ≤ v ≤ 255` on an `s32` operand: the whole value is compared (`00_scope.md` R12). -/
def inByteRange (v : BitVec 32) : Bool := 0 ≤ v.toInt && v.toInt ≤ 255

/-- `v mod 256`, the byte of an `s32` operand. -/
def byteOf (v : BitVec 32) : Byte := v.setWidth 8

/-- `wire(v) = (v − 1) mod 256` (`42_header_codec.md` R153). -/
def wire (v : Byte) : Byte := v - 1

/-- `count(w) = (w + 1) mod 256` (R153). -/
def count (w : Byte) : Byte := w + 1

/-- The byte of one stream-name character (R150): itself below 0x80, else ASCII_REPLACEMENT. -/
def nameByte (c : CodePoint) : Byte := if c < 0x80 then c.setWidth 8 else Config.asciiReplacement

/-- `encodeName(name)` (R150): cut to NAME_LEN characters, zero-padded to NAME_LEN bytes. -/
def encodeName (name : List CodePoint) : List Byte :=
  let t := name.take Config.nameLen
  t.map nameByte ++ zeroBytes (Config.nameLen - t.length)

/-- The name field is NAME_LEN bytes long. -/
theorem encodeName_length (name : List CodePoint) : (encodeName name).length = Config.nameLen := by
  simp [encodeName, zeroBytes]

/-- `encodeName(name)` at its width. -/
def nameField (name : List CodePoint) : Vector Byte Config.nameLen :=
  ⟨(encodeName name).toArray, by simp [encodeName_length]⟩

/-- A decoded character as a number. -/
def codePointOf (c : UnicodePoint) : CodePoint := BitVec.ofNat 32 c.val

/-- `asciiDecode` (`00_scope.md` R6): the identity on 0x00..0x7F, the host's decoder above. -/
def asciiDecode (b : Byte) : CodePoint :=
  if b < 0x80 then b.setWidth 32 else codePointOf (Config.asciiDecodeHigh b)

/-- `utf8Decode` (R6): the host's decoder. -/
def utf8Decode (bs : List Byte) : List CodePoint := (Config.utf8Decode bs).map codePointOf

/-- `decodeName(nb)` (R156): the bytes before the first zero byte, and their characters. -/
def decodeName (nb : List Byte) : List Byte × List CodePoint :=
  let name := nb.takeWhile (· != 0)
  (name, name.map asciiDecode)

/-- A continuation byte of UTF-8: `0x80 OR v`. -/
def utf8Tail (v : BitVec 6) : Byte := 0x80 ||| v.setWidth 8

/-- The UTF-8 bytes of one scalar value (`44_output_framer.md` R217). -/
def utf8EncodeChar (u : CodePoint) : List Byte :=
  if u ≤ 0x7F then [u.setWidth 8]
  else if u ≤ 0x7FF then
    [0xC0 ||| (u.extractLsb' 6 5).setWidth 8, utf8Tail (u.extractLsb' 0 6)]
  else if u ≤ 0xFFFF then
    [0xE0 ||| (u.extractLsb' 12 4).setWidth 8, utf8Tail (u.extractLsb' 6 6), utf8Tail (u.extractLsb' 0 6)]
  else
    [0xF0 ||| (u.extractLsb' 18 3).setWidth 8, utf8Tail (u.extractLsb' 12 6), utf8Tail (u.extractLsb' 6 6),
     utf8Tail (u.extractLsb' 0 6)]

/-- `utf8Encode(chars)` (R217): the characters' bytes joined in order, no byte-order mark. -/
def utf8Encode (cs : List CodePoint) : List Byte := cs.flatMap utf8EncodeChar

/-- `defaultName(p)` (R212). Only Audio, Serial and Text streams exist, so every other code has no default; it gets the
empty name, which no stream ever bears. -/
def defaultName (p : Byte) : List CodePoint :=
  if p = 0x00 then [0x53, 0x74, 0x72, 0x65, 0x61, 0x6D, 0x31]            -- "Stream1"
  else if p = 0x20 then [0x4D, 0x49, 0x44, 0x49, 0x31]                   -- "MIDI1"
  else if p = 0x40 then [0x43, 0x6F, 0x6D, 0x6D, 0x61, 0x6E, 0x64, 0x31] -- "Command1"
  else []

/-- The bytes FR_SEND_DATA writes (R218): a Text stream takes characters and sends their UTF-8 bytes, any other takes
bytes and sends them raw. None for a value of the other kind (`30_encoding.md` R85). -/
def sendBytes (protocol : Byte) (v : SendValue) : Option (List Byte) :=
  match v with
  | .chars cs => if protocol = 0x40 then some (utf8Encode cs) else none
  | .bytes bs => if protocol = 0x40 then none else some bs

/-- The `chars` of `typedView(kind, payload)` (`45_input_deframer.md` R253): absent for Audio. -/
def typedChars (kind : Byte) (payload : List Byte) : Option (List CodePoint) :=
  if kind = 0x20 then some (payload.map asciiDecode)
  else if kind = 0x40 then some (utf8Decode payload)
  else none

end Sys2Proof.Machine
end

