-- ==== Sys2Proof/Decode.lean ====
section
/-! DEFINITION. The command word of `30_encoding.md` R84 and its decoder, total on every word and record; then the
encoder, and the decoder of the opcode table's words. -/

namespace Sys2Proof

/-- Bits 15:8 of the command word. -/
def instField (w : BitVec 16) : Byte := w.extractLsb' 8 8

/-- Bits 7:0 of the command word: the opcode, which alone selects the command (R84). -/
def opField (w : BitVec 16) : Byte := w.extractLsb' 0 8

/-- A command word of its two fields. -/
def commandWord (inst op : Byte) : BitVec 16 := inst ++ op

/-- The opcode map of R84. -/
def opcodeByte : Opcode → Byte
  | .regLookup    => 0x01
  | .regDims      => 0x02
  | .hdrEncode    => 0x10
  | .hdrDecode    => 0x11
  | .pktCreate    => 0x20
  | .pktDecode    => 0x21
  | .frOpen       => 0x30
  | .frWrite      => 0x31
  | .frFlush      => 0x32
  | .frSendData   => 0x33
  | .frClose      => 0x34
  | .dfOpen       => 0x40
  | .dfReadPacket => 0x41
  | .dfReadData   => 0x42
  | .dfRead       => 0x43
  | .dfClose      => 0x44

/-- The rows of the opcode table, in its order. -/
def opcodeTable : List Opcode :=
  [.regLookup, .regDims, .hdrEncode, .hdrDecode, .pktCreate, .pktDecode, .frOpen, .frWrite, .frFlush, .frSendData,
   .frClose, .dfOpen, .dfReadPacket, .dfReadData, .dfRead, .dfClose]

/-- The command an opcode byte selects; none for the reserved bytes of R92. -/
def opcodeOf (op : Byte) : Option Opcode := opcodeTable.find? fun o => opcodeByte o == op

/-- Why a word and a record are no command: a reserved opcode (R92 item 1), or a record whose fields are not those
of the opcode (R85). -/
inductive DecodeError where
  | reservedOp  (op : Byte)
  | wrongRecord (op : Byte)
  deriving DecidableEq, Repr

/-- A command of its opcode, instance and record; none when the record has not the opcode's fields (R85). -/
def buildCommand (o : Opcode) (k : Byte) (r : OperandRecord) : Option Instr :=
  match o with
  | .regLookup => match r with | .lookup dim code => some (.regLookup k dim code) | _ => none
  | .regDims => match r with | .protocol p => some (.regDims k p) | _ => none
  | .hdrEncode => match r with | .header h => some (.hdrEncode k h) | _ => none
  | .hdrDecode => match r with | .data d => some (.hdrDecode k d) | _ => none
  | .pktCreate => match r with | .packet h p => some (.pktCreate k h p) | _ => none
  | .pktDecode => match r with | .data d => some (.pktDecode k d) | _ => none
  | .frOpen => match r with | .stream c => some (.frOpen k c) | _ => none
  | .frWrite => match r with | .data d => some (.frWrite k d) | _ => none
  | .frFlush => match r with | .none => some (.frFlush k) | _ => none
  | .frSendData => match r with | .value v => some (.frSendData k v) | _ => none
  | .frClose => match r with | .none => some (.frClose k) | _ => none
  | .dfOpen => match r with | .protocol p => some (.dfOpen k p) | _ => none
  | .dfReadPacket => match r with | .none => some (.dfReadPacket k) | _ => none
  | .dfReadData => match r with | .none => some (.dfReadData k) | _ => none
  | .dfRead => match r with | .count n => some (.dfRead k n) | _ => none
  | .dfClose => match r with | .none => some (.dfClose k) | _ => none

/-- The decoder: any command word with any operand record. -/
def decode (w : BitVec 16) (r : OperandRecord) : Except DecodeError Instr :=
  match opcodeOf (opField w) with
  | none => .error (.reservedOp (opField w))
  | some o =>
    match buildCommand o (instField w) r with
    | none => .error (.wrongRecord (opField w))
    | some i => .ok i

/-- The encoder: the command word and the operand record of a command. -/
def encode (i : Instr) : BitVec 16 × OperandRecord :=
  (commandWord i.inst (opcodeByte i.opcode), i.record)

/-- The record of zeros and empty sequences that goes with an opcode byte: the operands of an opcode-table word,
which the table gives no bits. -/
def zeroRecord (op : Byte) : OperandRecord :=
  match opcodeOf op with
  | some .regLookup  => .lookup 0 0
  | some .regDims    => .protocol 0
  | some .hdrEncode  => .header ⟨0, 0, 0, 0, 0, 0, [], 0⟩
  | some .hdrDecode  => .data []
  | some .pktCreate  => .packet [] []
  | some .pktDecode  => .data []
  | some .frOpen     => .stream ⟨0, 0, 0, 0, 0, 0, false, [], 0⟩
  | some .frWrite    => .data []
  | some .frSendData => .value (.bytes [])
  | some .dfOpen     => .protocol 0
  | some .dfRead     => .count 0
  | _                => .none

/-- The command the decoder reads from a word of the opcode table, with operands of zeros. The command word is the
whole of what the table numbers, so a number of more than 16 bits is no word. -/
def decodeTableWord (nbits w : Nat) : Option Instr :=
  if 16 < nbits ∨ 2 ^ 16 ≤ w then none
  else
    match decode (BitVec.ofNat 16 w) (zeroRecord (opField (BitVec.ofNat 16 w))) with
    | .ok i => some i
    | .error _ => none

end Sys2Proof
end

