-- ==== Sys2Proof/Machine/Ops.lean ====
section
/-! DEFINITION. The operations over the state that the commands share: making a result record and putting it on a
result port, raising a failure, reaching an instance, the command-word checks of R308, the host duties of R309. -/

namespace Sys2Proof.Machine

/-- `return (fields)` (`00_scope.md` R9): a result record with status OK. -/
def okResult (fields : ResultFields) : Result := ⟨.ok, 0, fields⟩

/-- The output fields a failure carries before any operand byte is processed: FR_WRITE and FR_SEND_DATA report
`consumed` on failure too (`10_state.md` R36), and no other command has fields then. -/
def failFields (op : Byte) : ResultFields := if op = 0x31 ∨ op = 0x33 then .consumed 0 else .none

/-- `raise E(cause)` (R9, `60_exceptions.md` R305): the result record of a failure. The block has no trap, so this is
all that taking an exception is: the record leaves on the result port, and the instance is ready again (R306). -/
def raiseResult (e : Failure) (fields : ResultFields) : Result := ⟨e.status, e.cause, fields⟩

/-- The result record of a computation that may fail and has no fields then. -/
def resultOf {α : Type} (fields : α → ResultFields) : Except Failure α → Result
  | .ok a    => okResult (fields a)
  | .error e => raiseResult e .none

/-- A result leaves on the result port of the commands that address no instance. -/
def State.report (s : State) (r : Result) : State := { s with results := s.results ++ [r] }

/-- A result leaves on a framer's result port. -/
def Framer.report (f : Framer) (r : Result) : Framer := { f with results := f.results ++ [r] }

/-- A result leaves on a deframer's result port. -/
def Deframer.report (d : Deframer) (r : Result) : Deframer := { d with results := d.results ++ [r] }

/-- FR[k] becomes `f`. -/
def State.setFramer (s : State) (k : Nat) (f : Framer) : State := { s with frs := s.frs.set k f }

/-- DF[k] becomes `d`. -/
def State.setDeframer (s : State) (k : Nat) (d : Deframer) : State := { s with dfs := s.dfs.set k d }

/-- An instance number out of range: IllegalCommand cause 2, no state written (`30_encoding.md` R92). -/
def illegalInstance (op : Byte) (s : State) : StepOutcome :=
  .next (s.report (raiseResult (illegalCommand 2) (failFields op)))

/-- What became of FR[k]: its new value, or a refusal. -/
def framerOutcome (s : State) (k : Nat) : Except Refusal Framer → StepOutcome
  | .ok f    => .next (s.setFramer k f)
  | .error r => .refused r

/-- What became of DF[k]: its new value, or a refusal. -/
def deframerOutcome (s : State) (k : Nat) : Except Refusal Deframer → StepOutcome
  | .ok d    => .next (s.setDeframer k d)
  | .error r => .refused r

/-- An FR_ command: reach FR[k], which must have no command waiting (R309), and let `act` say what it becomes. -/
def onFramer (op k : Byte) (act : Framer → Except Refusal Framer) (s : State) : StepOutcome :=
  match s.frs[k.toNat]? with
  | none => illegalInstance op s
  | some f =>
    match f.wait with
    | .txPending _ _ _ => .refused .instanceBusy
    | .idle => framerOutcome s k.toNat (act f)

/-- A DF_ command that may run while a read waits: DF_CLOSE (R309). -/
def onAnyDeframer (op k : Byte) (act : Deframer → Except Refusal Deframer) (s : State) : StepOutcome :=
  match s.dfs[k.toNat]? with
  | none => illegalInstance op s
  | some d => deframerOutcome s k.toNat (act d)

/-- Any other DF_ command: DF[k] must have no command waiting (R309). -/
def onDeframer (op k : Byte) (act : Deframer → Except Refusal Deframer) (s : State) : StepOutcome :=
  onAnyDeframer op k (fun d => match d.wait with
    | .rxPending _ => .error .instanceBusy
    | .idle        => act d) s

/-- The FR_ opcodes of R308. -/
def isFramerOp (op : Byte) : Bool := 0x30 ≤ op && op ≤ 0x34

/-- The DF_ opcodes of R308. -/
def isDeframerOp (op : Byte) : Bool := 0x40 ≤ op && op ≤ 0x44

/-- The command-word checks (R308), before anything else: the cause of the IllegalCommand, or none. -/
def wordCheck (s : State) (w : BitVec 16) : Option (BitVec 8) :=
  if (opcodeOf (opField w)).isNone then some 1
  else if isFramerOp (opField w) && decide (s.frs.length ≤ (instField w).toNat) then some 2
  else if isDeframerOp (opField w) && decide (s.dfs.length ≤ (instField w).toNat) then some 2
  else none

end Sys2Proof.Machine
end

