-- ==== Sys2Proof/Machine/Registries.lean ====
section
/-! DEFINITION. The value registries (`40_registries.md`): dimension selection by protocol, REG_LOOKUP and REG_DIMS. -/

namespace Sys2Proof.Machine

/-- `rateDim(p)` (R114): undefined for Service and every code outside the Protocol set. -/
def rateDim (p : Byte) : Option Dimension :=
  if p = 0x00 then some .sampleRate
  else if p = 0x20 ∨ p = 0x40 then some .bitsPerSecond
  else none

/-- `fmtDim(p)` (R114). -/
def fmtDim (p : Byte) : Option Dimension :=
  if p = 0x00 then some .audioFormat
  else if p = 0x20 then some .format
  else if p = 0x40 then some .commandFormat
  else none

/-- The check that a stream protocol passes: in the Protocol set, and not Service, which never resolves (R113). -/
def checkProtocol (R : Registries) (p : Byte) : Option Failure :=
  if !inDim R .protocol p then some (unknownCode .protocol)
  else if p = 0x60 then some unsupportedProtocol
  else none

/-- `c ∈` the code set of dimension `d`, where a protocol selects one; else UnknownCode of that dimension. A protocol
that selects none never resolves. -/
def checkSelected (R : Registries) (d : Option Dimension) (c : Byte) : Option Failure :=
  match d with
  | none => some unsupportedProtocol
  | some d => if inDim R d c then none else some (unknownCode d)

/-- What REG_LOOKUP answers (R111). -/
def lookupAnswer (R : Registries) (dim : BitVec 3) (code : Byte) : Except Failure NamedValue :=
  match dimOfNumber dim with
  | none => .error (illegalCommand 3)
  | some d =>
    match regValue R d code with
    | none => .error (unknownCode d)
    | some v => .ok v

/-- What REG_DIMS answers (R112). -/
def dimsAnswer (R : Registries) (p : Byte) : Except Failure (Dimension × Dimension) :=
  match checkProtocol R p with
  | some e => .error e
  | none =>
    match rateDim p, fmtDim p with
    | some r, some f => .ok (r, f)
    | _, _ => .error unsupportedProtocol

/-- REG_LOOKUP (R111): `inst` is ignored, no state is written. -/
def execRegLookup (_inst : Byte) (dim : BitVec 3) (code : Byte) (s : State) : StepOutcome :=
  .next (s.report (resultOf .value (lookupAnswer s.registries dim code)))

/-- REG_DIMS (R112): `inst` is ignored, no state is written. -/
def execRegDims (_inst : Byte) (protocol : Byte) (s : State) : StepOutcome :=
  .next (s.report (resultOf (fun d => .dims (dimNumber d.1) (dimNumber d.2)) (dimsAnswer s.registries protocol)))

end Sys2Proof.Machine
end

