-- ==== Sys2Proof/Machine/HeaderCodec.lean ====
section
/-! DEFINITION. The header codec (`42_header_codec.md`): encode with its checks, decode with its checks. Both are pure
functions of their operands and the registries. -/

namespace Sys2Proof.Machine

/-- `checkEncode` (R152): the first failing check decides. -/
def checkEncode (R : Registries) (protocol rate : Byte) (samples channel : BitVec 32) (format codec : Byte) :
    Option Failure :=
  if !inByteRange samples then some (outOfRange 1)
  else if !inByteRange channel then some (outOfRange 2)
  else (checkProtocol R protocol).or <|
    (checkSelected R (rateDim protocol) rate).or <|
    (checkSelected R (fmtDim protocol) format).or <|
    if inDim R .codec codec then none else some (unknownCode .codec)

/-- The 28 bytes of a header (`30_encoding.md` R80 to R83), from the field bytes: byte 4 joins protocol and rate, byte
7 codec and format. -/
def packHeader (protocol rate samples channel codec format : Byte) (name : List Byte) (fc : FrameCounter) : List Byte :=
  Config.magic ++ [protocol ||| rate, wire samples, wire channel, codec ||| format] ++ name ++ toLe32 fc

/-- What HDR_ENCODE answers (R151). -/
def encodeHeader (R : Registries) (r : HeaderRecord) : Except Failure (List Byte) :=
  match checkEncode R r.protocol r.rate r.samples r.channel r.format r.codec with
  | some e => .error e
  | none => .ok (packHeader r.protocol r.rate (byteOf r.samples) (byteOf r.channel) r.codec r.format
      (encodeName r.name) r.fc)

/-- The fields of 28 header bytes (R157, R159), unchecked. -/
def unpackHeader (data : List Byte) : Header where
  protocol  := byteAt data 4 &&& 0xE0
  rate      := (byteAt data 4).setWidth 5
  samples   := count (byteAt data 5)
  channel   := count (byteAt data 6)
  format    := (byteAt data 7).setWidth 4
  codec     := byteAt data 7 &&& 0xF0
  name      := (decodeName (sliceOf data Config.nameOffset Config.fcOffset)).1
  nameChars := (decodeName (sliceOf data Config.nameOffset Config.fcOffset)).2
  fc        := le32 data Config.fcOffset

/-- Decode validation (R158), the seven steps in order: the first failing check decides. -/
def checkDecode (R : Registries) (strict : Bool) (data : List Byte) : Option Failure :=
  let p := byteAt data 4 &&& 0xE0
  let c := byteAt data 7 &&& 0xF0
  if data.length ≠ Config.hdrLen then some (malformedHeader 1)
  else if sliceOf data 0 4 ≠ Config.magic then some (malformedHeader 2)
  else if !inDim R .protocol p then some (malformedHeader 3)
  else if p = 0x60 then some unsupportedProtocol
  else if !inDim R .codec c then some (malformedHeader 4)
  else if strict then
    (checkSelected R (rateDim p) (byteAt data 4 &&& 0x1F)).or (checkSelected R (fmtDim p) (byteAt data 7 &&& 0x0F))
  else none

/-- What HDR_DECODE answers (R157). -/
def decodeHeader (R : Registries) (strict : Bool) (data : List Byte) : Except Failure Header :=
  match checkDecode R strict data with
  | some e => .error e
  | none => .ok (unpackHeader data)

/-- HDR_ENCODE (R151): `inst` is ignored, no state is written. -/
def execHdrEncode (_inst : Byte) (r : HeaderRecord) (s : State) : StepOutcome :=
  .next (s.report (resultOf .hb (encodeHeader s.registries r)))

/-- HDR_DECODE (R157): `inst` is ignored, no state is written. -/
def execHdrDecode (_inst : Byte) (data : List Byte) (s : State) : StepOutcome :=
  .next (s.report (resultOf .hdr (decodeHeader s.registries Config.strictDecode data)))

end Sys2Proof.Machine
end

