-- ==== Sys2Proof/Machine/PacketCodec.lean ====
section
/-! DEFINITION. The packet codec (`43_packet_codec.md`): join and split a packet, with the 1436-byte bound. -/

namespace Sys2Proof.Machine

/-- What PKT_CREATE answers (R190). The header is not checked again. -/
def createPacket (header payload : List Byte) : Except Failure (List Byte) :=
  if header.length + payload.length > Config.maxDatagram then .error (payloadTooLarge 1)
  else .ok (header ++ payload)

/-- `decodePacket(d)` (R192): the header first, then the length bound. -/
def decodePacket (R : Registries) (strict : Bool) (d : Datagram) : Except Failure (Header × List Byte) :=
  match decodeHeader R strict (d.take Config.hdrLen) with
  | .error e => .error e
  | .ok h =>
    if d.length > Config.maxDatagram then .error (payloadTooLarge 2)
    else .ok (h, sliceOf d Config.hdrLen d.length)

/-- PKT_CREATE (R190): `inst` is ignored, no state is written. -/
def execPktCreate (_inst : Byte) (header payload : List Byte) (s : State) : StepOutcome :=
  .next (s.report (resultOf .dg (createPacket header payload)))

/-- PKT_DECODE (R191): `inst` is ignored, no state is written. -/
def execPktDecode (_inst : Byte) (data : List Byte) (s : State) : StepOutcome :=
  .next (s.report (resultOf (fun p => .packet p.1 p.2) (decodePacket s.registries Config.strictDecode data)))

end Sys2Proof.Machine
end

