-- ==== Sys2Proof/Machine/Deframer.lean ====
section
/-! DEFINITION. The input deframer (`45_input_deframer.md`): taking a datagram from the receive port, the reads up to
their `receive` and on from it, closing during a pending receive, and the five DF_ commands. `receive()` takes the head
of the port's queue, and waits only while the queue is empty (`60_exceptions.md` R318; log entry 11). -/

namespace Sys2Proof.Machine

/-- A read command ends with result `r`. If a DF_CLOSE overtook it, the view is emptied (R257, *linger*). -/
def endRead (r : Result) (d : Deframer) : Deframer :=
  { d with
    wait    := .idle
    rx      := if d.isOpen then d.rx else []
    cursor  := if d.isOpen then d.cursor else 0
    results := d.results ++ [r] }

/-- What DF_READ_PACKET answers to a datagram (R251). -/
def packetAnswer (R : Registries) (dg : Datagram) : Result :=
  resultOf (fun p => .packet p.1 p.2) (decodePacket R Config.strictDecode dg)

/-- What DF_READ_DATA answers to a datagram (R252): the protocol is compared after the datagram has decoded. -/
def dataAnswer (R : Registries) (expected : Byte) (dg : Datagram) : Result :=
  match decodePacket R Config.strictDecode dg with
  | .error e => raiseResult e .none
  | .ok (h, payload) =>
    if h.protocol ≠ expected then raiseResult protocolMismatch .none
    else okResult (.typed expected payload (typedChars expected payload))

/-- Whether DF_READ returns with the bytes it has (R254, R255): under `fill` all that were asked for; under `part` any,
and none when none were asked for. -/
def readDone (span : ReadSpan) (n : Nat) (out : List Byte) : Bool :=
  match span with
  | .fill => decide (n ≤ out.length)
  | .part => decide (n = 0) || !out.isEmpty

/-- DF_READ from an exhausted view on (R254, R255): pull datagrams from the queue until done. A datagram that does not
decode is consumed, the gathered bytes are dropped and the view is left empty. With the queue empty the command waits. -/
def pullRead (R : Registries) (span : ReadSpan) (n : BitVec 32) : List Byte → List Datagram → Deframer → Deframer
  | out, [], d => { d with rx := [], cursor := 0, queue := [], wait := .rxPending (.read n out) }
  | out, dg :: q, d =>
    match decodePacket R Config.strictDecode dg with
    | .error e => endRead (raiseResult e .none) { d with rx := [], cursor := 0, queue := q }
    | .ok (_, payload) =>
      let m := min (n.toNat - out.length) payload.length
      let out' := out ++ payload.take m
      if readDone span n.toNat out' then
        endRead (okResult (.data out')) { d with rx := payload, cursor := m, queue := q }
      else pullRead R span n out' q d

/-- A read that has reached its `receive` (`pull`, R259): it goes on with the head of the queue, or waits. -/
def runReceive (p : Params) (R : Registries) (c : DfCont) (d : Deframer) : Deframer :=
  match c with
  | .read n out => pullRead R p.readSpan n out d.queue d
  | .readPacket =>
    match d.queue with
    | [] => { d with wait := .rxPending .readPacket }
    | dg :: q => endRead (packetAnswer R dg) { d with queue := q }
  | .readData =>
    match d.queue with
    | [] => { d with wait := .rxPending .readData }
    | dg :: q => endRead (dataAnswer R d.expected dg) { d with queue := q }

/-- DF_READ (R254, R255): the bytes of the view first, then `receive`. -/
def startRead (p : Params) (R : Registries) (n : BitVec 32) (d : Deframer) : Deframer :=
  let m := min n.toNat (d.rx.length - d.cursor)
  let out := sliceOf d.rx d.cursor (d.cursor + m)
  if readDone p.readSpan n.toNat out then
    endRead (okResult (.data out)) { d with cursor := d.cursor + m }
  else runReceive p R (.read n out) d

/-- A datagram joins the receive port's queue (R318); a read that waits goes on with the head of the queue. -/
def arriveDeframer (p : Params) (R : Registries) (dg : Datagram) (d : Deframer) : Deframer :=
  match d.wait with
  | .idle => { d with queue := d.queue ++ [dg] }
  | .rxPending c => runReceive p R c { d with queue := d.queue ++ [dg] }

/-- A datagram arrives at the receive port of DF[k] (`@rx`, `30_encoding.md` R95). -/
def rxEvent (k : Nat) (dg : Datagram) (s : State) : StepOutcome :=
  match s.dfs[k]? with
  | none => .refused .noSuchPort
  | some d => .next (s.setDeframer k (arriveDeframer s.params s.registries dg d))

/-- The closed check that opens every deframer command but DF_OPEN (R258). -/
def whenDeframerOpen (act : Deframer → Deframer) (d : Deframer) : Except Refusal Deframer :=
  if d.isOpen then .ok (act d) else .ok (d.report (raiseResult (streamClosed 0) .none))

/-- DF_OPEN on an instance (R250): refused when open (R309). -/
def openDeframer (R : Registries) (protocol : Byte) (d : Deframer) : Except Refusal Deframer :=
  if d.isOpen then .error .alreadyOpen
  else
    match checkProtocol R protocol with
    | some e => .ok (d.report (raiseResult e .none))
    | none =>
      .ok (Deframer.report { d with expected := protocol, rx := [], cursor := 0, isOpen := true } (okResult .none))

/-- DF_CLOSE on an open instance (R256), with `abort` the outcome that R257 leaves open. DF_CLOSE returns at once. A
pending read then either ends with StreamClosed cause 1, or stays in `receive`. -/
def closeDeframer (abort : Bool) (d : Deframer) : Deframer :=
  match d.wait with
  | .idle =>
    Deframer.report { d with isOpen := false, rx := [], cursor := 0 } (okResult .none)
  | .rxPending _ =>
    let d' := Deframer.report { d with isOpen := false, closings := d.closings + 1 } (okResult .none)
    if abort then endRead (raiseResult (streamClosed 1) .none) d' else d'

/-- DF_OPEN (R250). -/
def execDfOpen (inst : Byte) (protocol : Byte) (s : State) : StepOutcome :=
  onDeframer 0x40 inst (openDeframer s.registries protocol) s

/-- DF_READ_PACKET (R251). -/
def execDfReadPacket (inst : Byte) (s : State) : StepOutcome :=
  onDeframer 0x41 inst (whenDeframerOpen (runReceive s.params s.registries .readPacket)) s

/-- DF_READ_DATA (R252). -/
def execDfReadData (inst : Byte) (s : State) : StepOutcome :=
  onDeframer 0x42 inst (whenDeframerOpen (runReceive s.params s.registries .readData)) s

/-- DF_READ (R254, R255). -/
def execDfRead (inst : Byte) (count : BitVec 32) (s : State) : StepOutcome :=
  onDeframer 0x43 inst (whenDeframerOpen (startRead s.params s.registries count)) s

/-- DF_CLOSE (R256, R257): the one command that may run while a read waits. Which outcome R257 takes is the free value
`Config.closeAborts` of this close. -/
def execDfClose (inst : Byte) (s : State) : StepOutcome :=
  onAnyDeframer 0x44 inst
    (whenDeframerOpen fun d => closeDeframer (Config.closeAborts inst.toNat d.closings) d) s

end Sys2Proof.Machine
end

