-- ==== Sys2Proof/Machine/Framer.lean ====
section
/-! DEFINITION. The output framer (`44_output_framer.md`): the header factory, the flush up to its `send` and on from
the transport's answer, the byte-by-byte write, and the five FR_ commands. -/

namespace Sys2Proof.Machine

/-- The header a stream's factory builds for counter value `fc` (R210). -/
def headerOf (c : StreamCfg) (fc : FrameCounter) : List Byte :=
  packHeader c.protocol (c.rate.setWidth 8) c.samples c.channel c.codec (c.format.setWidth 8) c.name.toList fc

/-- The fields a failure in a flush or an append reports (R215, R216, R218): `consumed` for the writing commands. -/
def contFailFields : FrCont → ResultFields
  | .flush                => .none
  | .write _ _ consumed   => .consumed (BitVec.ofNat 32 consumed)
  | .trailing consumed    => .consumed (BitVec.ofNat 32 consumed)

/-- A failure inside a flush or an append ends the command that it runs for. -/
def failCont (c : FrCont) (e : Failure) (f : Framer) : Framer :=
  f.report (raiseResult e (contFailFields c))

/-- `flushCore` up to its `send` (R213): the two size checks, the factory's header, which advances the counter
(R210), and the datagram handed to the transmit port. The command then waits, with `c` still to do. -/
def startFlush (c : FrCont) (f : Framer) : Framer :=
  if bufLen f.buf > Config.maxDatagram then failCont c (bufferTooLarge 0) f
  else if Config.hdrLen + bufLen f.buf > Config.maxDatagram then failCont c (payloadTooLarge 1) f
  else
    let dg := headerOf f.cfg f.fc ++ bufBytes f.buf
    { f with
      fc   := f.fc + 1
      tx   := f.tx ++ [(f.cfg.dest, dg)]
      wait := .txPending dg f.fc c }

/-- What follows `writeBytes` (R216, R218): FR_WRITE returns, FR_SEND_DATA flushes a non-empty buffer first. -/
def endWrite (kind : WriteKind) (consumed : Nat) (f : Framer) : Framer :=
  match kind with
  | .write => f.report (okResult (.consumed (BitVec.ofNat 32 consumed)))
  | .sendData =>
    if bufLen f.buf > 0 then startFlush (.trailing consumed) f
    else f.report (okResult (.consumed (BitVec.ofNat 32 consumed)))

/-- `writeBytes` (R215), from the byte after the first `consumed`: a full buffer is flushed before the append, a
newline flushes after it. A flush suspends the command; the answer resumes it here. -/
def writeLoop (kind : WriteKind) : List Byte → Nat → Framer → Framer
  | [], consumed, f => endWrite kind consumed f
  | b :: rest, consumed, f =>
    if bufLen f.buf + 1 > Config.maxPayload then startFlush (.write kind (b :: rest) consumed) f
    else
      match bufAppend f.buf b with
      | .error e => failCont (.write kind (b :: rest) consumed) e f
      | .ok g =>
        if b = Config.newline then startFlush (.write kind rest (consumed + 1)) { f with buf := g }
        else writeLoop kind rest (consumed + 1) { f with buf := g }

/-- A flush that has been sent: the command goes on (R213, R214, R215, R218). -/
def resumeFramer (c : FrCont) (fcUsed : FrameCounter) (f : Framer) : Framer :=
  match c with
  | .flush                    => f.report (okResult (.fcSent fcUsed))
  | .write kind rest consumed => writeLoop kind rest consumed f
  | .trailing consumed        => f.report (okResult (.consumed (BitVec.ofNat 32 consumed)))

/-- `flushCore` from the transport's answer on (R213): `ok` empties the buffer and the command goes on; `fail` keeps
the buffer, gives the counter back under TXFAIL_COUNTER = restored, and raises TransportError. -/
def answerFramer (p : Params) (ok : Bool) (f : Framer) : Except Refusal Framer :=
  match f.wait with
  | .idle => .error .unsolicitedAnswer
  | .txPending _ fcUsed c =>
    if ok then .ok (resumeFramer c fcUsed { f with wait := .idle, buf := bufClear f.buf })
    else
      .ok (failCont c transportError
        { f with
          wait := .idle
          fc := match p.txFail with
            | .restored => fcUsed
            | .advanced => f.fc })

/-- The answer of FR[k]'s transmit port to its pending `send` (`@tx`, `30_encoding.md` R95). -/
def txEvent (k : Nat) (ok : Bool) (s : State) : StepOutcome :=
  match s.frs[k]? with
  | none => .refused .noSuchPort
  | some f => framerOutcome s k (answerFramer s.params ok f)

/-- The configuration FR_OPEN sets (R211, R212). -/
def openCfg (r : StreamRecord) : StreamCfg where
  protocol := r.protocol
  rate     := r.rate.setWidth 5
  format   := r.format.setWidth 4
  codec    := r.codec
  samples  := byteOf r.samples
  channel  := byteOf r.channel
  name     := nameField (if r.nameSet then r.name else defaultName r.protocol)
  dest     := r.dest

/-- FR_OPEN on an instance (R211): refused when open (R309); every check before the first write. -/
def openFramer (p : Params) (R : Registries) (r : StreamRecord) (f : Framer) : Except Refusal Framer :=
  if f.isOpen then .error .alreadyOpen
  else
    match checkEncode R r.protocol r.rate r.samples r.channel r.format r.codec with
    | some e => .ok (f.report (raiseResult e .none))
    | none =>
      .ok (Framer.report { f with
        cfg    := openCfg r
        fc     := 0
        buf    := bufInit p.bufInitCap false
        isOpen := true } (okResult .none))

/-- The closed check that opens every other framer command (R220). -/
def whenFramerOpen (op : Byte) (act : Framer → Except Refusal Framer) (f : Framer) : Except Refusal Framer :=
  if f.isOpen then act f else .ok (f.report (raiseResult (streamClosed 0) (failFields op)))

/-- FR_OPEN (R211). -/
def execFrOpen (inst : Byte) (r : StreamRecord) (s : State) : StepOutcome :=
  onFramer 0x30 inst (openFramer s.params s.registries r) s

/-- FR_WRITE (R216). -/
def execFrWrite (inst : Byte) (data : List Byte) (s : State) : StepOutcome :=
  onFramer 0x31 inst (whenFramerOpen 0x31 fun f => .ok (writeLoop .write data 0 f)) s

/-- FR_FLUSH (R214). -/
def execFrFlush (inst : Byte) (s : State) : StepOutcome :=
  onFramer 0x32 inst (whenFramerOpen 0x32 fun f => .ok (startFlush .flush f)) s

/-- FR_SEND_DATA (R218). A value of the other kind breaks the record's type, and the run is refused (R309). -/
def execFrSendData (inst : Byte) (value : SendValue) (s : State) : StepOutcome :=
  onFramer 0x33 inst (whenFramerOpen 0x33 fun f =>
    match sendBytes f.cfg.protocol value with
    | none => .error .wrongValueKind
    | some data => .ok (writeLoop .sendData data 0 f)) s

/-- FR_CLOSE (R219): buffered bytes are dropped, not sent. -/
def execFrClose (inst : Byte) (s : State) : StepOutcome :=
  onFramer 0x34 inst (whenFramerOpen 0x34 fun f =>
    .ok (Framer.report { f with buf := bufClear f.buf, isOpen := false } (okResult .none))) s

end Sys2Proof.Machine
end

