-- ==== Sys2Proof/Machine/Dispatch.lean ====
section
/-! DEFINITION. The dispatch: one arm per command of the opcode table, each one direct call of its meaning. -/

namespace Sys2Proof.Machine

/-- The meaning of a command. -/
def exec (i : Instr) (s : State) : Host.Outcome State Fault Refusal :=
  match i with
  | .regLookup inst dim code => Sys2Proof.Machine.execRegLookup inst dim code s
  | .regDims inst protocol => Sys2Proof.Machine.execRegDims inst protocol s
  | .hdrEncode inst r => Sys2Proof.Machine.execHdrEncode inst r s
  | .hdrDecode inst data => Sys2Proof.Machine.execHdrDecode inst data s
  | .pktCreate inst header payload => Sys2Proof.Machine.execPktCreate inst header payload s
  | .pktDecode inst data => Sys2Proof.Machine.execPktDecode inst data s
  | .frOpen inst r => Sys2Proof.Machine.execFrOpen inst r s
  | .frWrite inst data => Sys2Proof.Machine.execFrWrite inst data s
  | .frFlush inst => Sys2Proof.Machine.execFrFlush inst s
  | .frSendData inst value => Sys2Proof.Machine.execFrSendData inst value s
  | .frClose inst => Sys2Proof.Machine.execFrClose inst s
  | .dfOpen inst protocol => Sys2Proof.Machine.execDfOpen inst protocol s
  | .dfReadPacket inst => Sys2Proof.Machine.execDfReadPacket inst s
  | .dfReadData inst => Sys2Proof.Machine.execDfReadData inst s
  | .dfRead inst count => Sys2Proof.Machine.execDfRead inst count s
  | .dfClose inst => Sys2Proof.Machine.execDfClose inst s

end Sys2Proof.Machine
end

