-- ==== Sys2Proof/Machine/Command.lean ====
section
/-! DEFINITION. What one event does: a command arrives and is checked, decoded and run; a transport event reaches its
instance. -/

namespace Sys2Proof.Machine

/-- A command arrives (`30_encoding.md` R84). First the command-word checks (`60_exceptions.md` R308), which read no
record. Then the record: one that has not the opcode's fields, or breaks their type, is refused (R309). Then the
meaning. -/
def runCommand (w : BitVec 16) (r : OperandRecord) (s : State) : StepOutcome :=
  match wordCheck s w with
  | some cause => .next (s.report (raiseResult (illegalCommand cause) (failFields (opField w))))
  | none =>
    match decode w r with
    | .error _ => .refused .illFormedRecord
    | .ok i => if i.wellFormed then exec i s else .refused .illFormedRecord

/-- One event of the host or the transport happens (R95). -/
def eventStep (e : Event) (s : State) : StepOutcome :=
  match e with
  | .command w r => runCommand w r s
  | .tx k ok     => txEvent k ok s
  | .rx k d      => rxEvent k d s

/-- The command word `w`, with the record of zeros of its opcode, becomes the next event. -/
def placeCommand (w : BitVec 16) (s : State) : State :=
  { s with events := .command w (zeroRecord (opField w)) :: s.events }

end Sys2Proof.Machine
end

