-- ==== Sys2Proof/Machine/Step.lean ====
section
/-! DEFINITION. One step of the block: the oldest event happens. -/

namespace Sys2Proof.Machine

/-- One step: the oldest event of the host or the transport happens. With no event the block waits, unchanged:
it waits for its first command after reset (R331), and an instance that waits on a transport port waits for as long as
that stays silent (R336, R337). -/
def step (s : State) : Host.Outcome State Fault Refusal :=
  match s.events with
  | [] => .next s
  | e :: rest => eventStep e { s with events := rest }

/-- `s` with the command word `w` and the record of zeros that goes with its opcode placed on the command port, to be
the next event (log entry 2). The word is the whole of what `nbits` counts. -/
def State.withFetchWord (s : State) (_nbits w : Nat) : State := placeCommand (BitVec.ofNat 16 w) s

end Sys2Proof.Machine
end

