-- ==== Sys2Proof/Safety.lean ====
section
/-! DEFINITION. What claims about runs are stated in: the invariant of reachable states (`10_state.md` R38 and what the
state tables of R25 and R31 call legal), the host's and the transport's duties (`60_exceptions.md` R309, R318), and
which outcomes a result record may carry (R301, R302). -/

namespace Sys2Proof.Safety

open Sys2Proof.Machine

/-- Each registry has exactly the codes of R23, in order, whatever their named values. -/
def registriesLegal (R : Registries) : Prop := ∀ d, (tableOf R d).map Prod.fst = Config.codes d

/-- A protocol that selects dimensions: Audio, Serial or Text (R114). -/
def streamProtocol (p : Byte) : Prop := p = 0x00 ∨ p = 0x20 ∨ p = 0x40

/-- The operands of `checkEncode` (R152) that pass every check, said of the code sets of R23. -/
def encodable (protocol rate : Byte) (samples channel : BitVec 32) (format codec : Byte) : Prop :=
  (0 ≤ samples.toInt ∧ samples.toInt ≤ 255) ∧ (0 ≤ channel.toInt ∧ channel.toInt ≤ 255) ∧
  streamProtocol protocol ∧
  (∃ d, rateDim protocol = some d ∧ rate ∈ Config.codes d) ∧
  (∃ d, fmtDim protocol = some d ∧ format ∈ Config.codes d) ∧
  codec ∈ Config.codes .codec

/-- The outcome of the first failing check of `checkEncode` (R152), in its order, said of the code sets of R23. -/
def encodeFails (protocol rate : Byte) (samples channel : BitVec 32) (format codec : Byte) (st : Status)
    (cause : BitVec 8) : Prop :=
  (¬(0 ≤ samples.toInt ∧ samples.toInt ≤ 255) ∧ st = .outOfRange ∧ cause = 1) ∨
  ((0 ≤ samples.toInt ∧ samples.toInt ≤ 255) ∧
    ((¬(0 ≤ channel.toInt ∧ channel.toInt ≤ 255) ∧ st = .outOfRange ∧ cause = 2) ∨
    ((0 ≤ channel.toInt ∧ channel.toInt ≤ 255) ∧
      ((protocol ∉ Config.codes .protocol ∧ st = .unknownCode ∧ cause = 0) ∨
      (protocol = 0x60 ∧ st = .unsupportedProtocol ∧ cause = 0) ∨
      ∃ rd fd, rateDim protocol = some rd ∧ fmtDim protocol = some fd ∧
        ((rate ∉ Config.codes rd ∧ st = .unknownCode ∧ cause = (dimNumber rd).setWidth 8) ∨
        (rate ∈ Config.codes rd ∧
          ((format ∉ Config.codes fd ∧ st = .unknownCode ∧ cause = (dimNumber fd).setWidth 8) ∨
          (format ∈ Config.codes fd ∧ codec ∉ Config.codes .codec ∧ st = .unknownCode ∧ cause = 6))))))))

/-- The outcome of the first failing step of decode validation (R158), in its order, said of the code sets of R23. -/
def decodeFails (strict : Bool) (data : List Byte) (st : Status) (cause : BitVec 8) : Prop :=
  let p := byteAt data 4 &&& 0xE0
  let c := byteAt data 7 &&& 0xF0
  (data.length ≠ 28 ∧ st = .malformedHeader ∧ cause = 1) ∨
  (data.length = 28 ∧
    ((data.take 4 ≠ [0x56, 0x42, 0x41, 0x4E] ∧ st = .malformedHeader ∧ cause = 2) ∨
    (data.take 4 = [0x56, 0x42, 0x41, 0x4E] ∧
      ((p ∉ Config.codes .protocol ∧ st = .malformedHeader ∧ cause = 3) ∨
      (p = 0x60 ∧ st = .unsupportedProtocol ∧ cause = 0) ∨
      (streamProtocol p ∧ c ∉ Config.codes .codec ∧ st = .malformedHeader ∧ cause = 4) ∨
      (strict = true ∧ c ∈ Config.codes .codec ∧ ∃ rd fd, rateDim p = some rd ∧ fmtDim p = some fd ∧
        ((byteAt data 4 &&& 0x1F ∉ Config.codes rd ∧ st = .unknownCode ∧ cause = (dimNumber rd).setWidth 8) ∨
        (byteAt data 4 &&& 0x1F ∈ Config.codes rd ∧ byteAt data 7 &&& 0x0F ∉ Config.codes fd ∧
          st = .unknownCode ∧ cause = (dimNumber fd).setWidth 8)))))))

/-- The 28-byte inputs that pass every step of decode validation (R158). -/
def decodable (strict : Bool) (data : List Byte) : Prop :=
  let p := byteAt data 4 &&& 0xE0
  data.length = 28 ∧ data.take 4 = [0x56, 0x42, 0x41, 0x4E] ∧ streamProtocol p ∧
  byteAt data 7 &&& 0xF0 ∈ Config.codes .codec ∧
  (strict = true → ∃ rd fd, rateDim p = some rd ∧ fmtDim p = some fd ∧
    byteAt data 4 &&& 0x1F ∈ Config.codes rd ∧ byteAt data 7 &&& 0x0F ∈ Config.codes fd)

/-- A datagram that `decodePacket` accepts with this payload (R192): its header decodes and its length is in bounds. -/
def goodDatagram (dg : Datagram) (payload : List Byte) : Prop :=
  decodable true (dg.take 28) ∧ dg.length ≤ 1436 ∧ payload = dg.drop 28

/-- The reserved opcodes, listed as R92 item 1 lists them. -/
def reservedOp (op : Byte) : Prop :=
  op.toNat = 0x00 ∨ (0x03 ≤ op.toNat ∧ op.toNat ≤ 0x0F) ∨ (0x12 ≤ op.toNat ∧ op.toNat ≤ 0x1F) ∨
  (0x22 ≤ op.toNat ∧ op.toNat ≤ 0x2F) ∨ (0x35 ≤ op.toNat ∧ op.toNat ≤ 0x3F) ∨ 0x45 ≤ op.toNat

/-- The stateless commands (R92 item 3). -/
def statelessOp (op : Byte) : Prop :=
  op = 0x01 ∨ op = 0x02 ∨ op = 0x10 ∨ op = 0x11 ∨ op = 0x20 ∨ op = 0x21

/-- The legal values of `cfg.*` while open (R25). -/
def cfgLegal (c : StreamCfg) : Prop :=
  streamProtocol c.protocol ∧
  (∃ d, rateDim c.protocol = some d ∧ c.rate.setWidth 8 ∈ Config.codes d) ∧
  (∃ d, fmtDim c.protocol = some d ∧ c.format.setWidth 8 ∈ Config.codes d) ∧
  c.codec ∈ Config.codes .codec

/-- The datagram a framer waits on is the whole packet of its configuration, the counter used and its buffer, and the
counter has moved on by one (R210, R213, R224). -/
def pendingOk (f : Framer) : Prop :=
  match f.wait with
  | .idle => True
  | .txPending dg fcUsed _ => dg = headerOf f.cfg fcUsed ++ f.buf.bytes ∧ f.fc = fcUsed + 1

/-- The invariant of a framer instance (R38 items 1 and 3, R130, R222). -/
def framerInv (f : Framer) : Prop :=
  f.buf.bytes.length ≤ Config.maxPayload ∧ f.buf.bytes.length ≤ f.buf.cap ∧ f.buf.fixed = false ∧
  (f.isOpen = false → f.buf.bytes = [] ∧ f.wait = .idle) ∧
  (f.isOpen = true → cfgLegal f.cfg) ∧
  pendingOk f ∧
  (∀ p ∈ f.tx, Config.hdrLen ≤ p.2.length ∧ p.2.length ≤ Config.maxDatagram)

/-- A DF_READ of `n` bytes that has these goes on reading: under fill it has fewer than `n` (R254), under partial it has
none and wants some (R255). -/
def stillReads (span : ReadSpan) (n : Nat) (bytes : List Byte) : Prop :=
  match span with
  | .fill => bytes.length < n
  | .part => 0 < n ∧ bytes = []

/-- A read that waits has an empty queue; a waiting DF_READ has an empty view and has gathered too little. -/
def waitingOk (p : Params) (d : Deframer) : Prop :=
  match d.wait with
  | .idle => True
  | .rxPending .readPacket => d.queue = []
  | .rxPending .readData => d.queue = []
  | .rxPending (.read n out) =>
    d.queue = [] ∧ d.rx = [] ∧ d.cursor = 0 ∧ stillReads p.readSpan n.toNat out

/-- The invariant of a deframer instance (R38 items 2 and 4, R31). -/
def deframerInv (p : Params) (d : Deframer) : Prop :=
  d.cursor ≤ d.rx.length ∧ d.rx.length ≤ Config.maxPayload ∧
  (d.isOpen = false → d.wait = .idle → d.rx = [] ∧ d.cursor = 0) ∧
  (d.isOpen = true ∨ d.wait ≠ .idle → streamProtocol d.expected) ∧
  waitingOk p d

/-- The invariant of the block: registries with the codes of R23, 1 to 256 instances of each kind (R6, R24), and every
instance's own. -/
def stateInv (s : State) : Prop :=
  registriesLegal s.registries ∧
  (1 ≤ s.frs.length ∧ s.frs.length ≤ 256) ∧ (1 ≤ s.dfs.length ∧ s.dfs.length ≤ 256) ∧
  (∀ f ∈ s.frs, framerInv f) ∧ (∀ d ∈ s.dfs, deframerInv s.params d)

/-- The instance that a command addresses: true for a framer, false for a deframer, with its index. None for a
stateless command. -/
def targetOf (i : Instr) : Option (Bool × Nat) :=
  if isFramerOp (opcodeByte i.opcode) then some (true, i.inst.toNat)
  else if isDeframerOp (opcodeByte i.opcode) then some (false, i.inst.toNat)
  else none

/-- The instance that a command addresses is there, if it addresses one (R92 item 2). -/
def targetExists (i : Instr) (s : State) : Prop :=
  (isFramerOp (opcodeByte i.opcode) = true → i.inst.toNat < s.frs.length) ∧
  (isDeframerOp (opcodeByte i.opcode) = true → i.inst.toNat < s.dfs.length)

/-- The host keeps its duties with an FR_ command to this instance (R309): none is waiting, FR_OPEN meets a closed
instance, an FR_SEND_DATA value is of the kind the open stream needs. -/
def framerDuty (i : Instr) (f : Framer) : Prop :=
  f.wait = .idle ∧
  match i with
  | .frOpen _ _     => f.isOpen = false
  | .frSendData _ v => f.isOpen = true → ∃ data, sendBytes f.cfg.protocol v = some data
  | _               => True

/-- The host keeps its duties with a DF_ command to this instance (R309). -/
def deframerDuty (i : Instr) (d : Deframer) : Prop :=
  match i with
  | .dfClose _  => True
  | .dfOpen _ _ => d.wait = .idle ∧ d.isOpen = false
  | _           => d.wait = .idle

/-- The host keeps its duties with a command: towards the instance it addresses, if there is one. -/
def commandDuty (i : Instr) (s : State) : Prop :=
  (isFramerOp (opcodeByte i.opcode) = true → ∀ f, s.frs[i.inst.toNat]? = some f → framerDuty i f) ∧
  (isDeframerOp (opcodeByte i.opcode) = true → ∀ d, s.dfs[i.inst.toNat]? = some d → deframerDuty i d)

/-- The host and the transport keep their duties with an event (R309, R318). -/
def eventDuty (e : Event) (s : State) : Prop :=
  match e with
  | .command w r => wordCheck s w = none → ∃ i, decode w r = .ok i ∧ i.wellFormed = true ∧ commandDuty i s
  | .tx k _      => ∃ f, s.frs[k]? = some f ∧ f.wait ≠ .idle
  | .rx k _      => ∃ d, s.dfs[k]? = some d

/-- The statuses a command may return (R302), by its opcode byte. -/
def statusesOf (op : Byte) : List Status :=
  let decoding := [Status.malformedHeader, .unsupportedProtocol, .unknownCode, .payloadTooLarge]
  if op = 0x01 then [.ok, .unknownCode]
  else if op = 0x02 then [.ok, .unknownCode, .unsupportedProtocol]
  else if op = 0x10 ∨ op = 0x30 then [.ok, .outOfRange, .unknownCode, .unsupportedProtocol]
  else if op = 0x11 then [.ok, .malformedHeader, .unsupportedProtocol, .unknownCode]
  else if op = 0x20 then [.ok, .payloadTooLarge]
  else if op = 0x21 then .ok :: decoding
  else if op = 0x31 ∨ op = 0x32 ∨ op = 0x33 then [.ok, .streamClosed, .transportError]
  else if op = 0x34 ∨ op = 0x44 then [.ok, .streamClosed]
  else if op = 0x40 then [.ok, .unknownCode, .unsupportedProtocol]
  else if op = 0x41 ∨ op = 0x43 then .ok :: .streamClosed :: decoding
  else if op = 0x42 then .ok :: .streamClosed :: .protocolMismatch :: decoding
  else []

/-- The causes of a status (R301). -/
def causesOf : Status → List (BitVec 8)
  | .ok                  => [0]
  | .malformedHeader     => [1, 2, 3, 4]
  | .unsupportedProtocol => [0]
  | .outOfRange          => [1, 2]
  | .payloadTooLarge     => [1, 2]
  | .bufferTooLarge      => [0, 1]
  | .streamClosed        => [0, 1]
  | .protocolMismatch    => [0]
  | .unknownCode         => [0, 1, 2, 3, 4, 5, 6]
  | .transportError      => [0]
  | .illegalCommand      => [1, 2, 3]

/-- A result record carries an outcome that R301 and R302 give the command of opcode `op`; any command may meet
IllegalCommand. -/
def resultLegal (op : Byte) (r : Result) : Prop :=
  (r.status = .illegalCommand ∨ r.status ∈ statusesOf op) ∧ r.cause ∈ causesOf r.status

/-- The opcode of a writing command. -/
def kindOp : WriteKind → Byte
  | .write    => 0x31
  | .sendData => 0x33

/-- The opcode of the command that a framer still runs. -/
def contOp : FrCont → Byte
  | .flush          => 0x32
  | .write kind _ _ => kindOp kind
  | .trailing _     => 0x33

/-- The opcode of a read that waits. -/
def readOp : DfCont → Byte
  | .readPacket => 0x41
  | .readData   => 0x42
  | .read _ _   => 0x43

/-- The opcodes of the commands that may end on the port of no instance when `e` happens: one that `e` brings. -/
def looseOps : Event → List Byte
  | .command w _ => [opField w]
  | .tx _ _      => []
  | .rx _ _      => []

/-- The opcodes of the commands that may end on FR[k] when `e` happens: one that `e` brings to it, or the one whose
send `e` answers. -/
def framerOps (e : Event) (k : Nat) (f : Framer) : List Byte :=
  let waiting := match f.wait with
    | .idle            => []
    | .txPending _ _ c => [contOp c]
  match e with
  | .command w _ => if isFramerOp (opField w) ∧ (instField w).toNat = k then [opField w] else []
  | .tx j _      => if j = k then waiting else []
  | .rx _ _      => []

/-- The opcodes of the commands that may end on DF[k] when `e` happens, in the order of their results: one that `e`
brings to it, and the read that waits there, which a datagram resumes and a DF_CLOSE may abort (R257). -/
def deframerOps (e : Event) (k : Nat) (d : Deframer) : List Byte :=
  let waiting := match d.wait with
    | .idle        => []
    | .rxPending c => [readOp c]
  match e with
  | .command w _ => if isDeframerOp (opField w) ∧ (instField w).toNat = k then opField w :: waiting else []
  | .rx j _      => if j = k then waiting else []
  | .tx _ _      => []

/-- `new` are results of the commands `ops`, at most one of each, in order, and each legal. -/
def answers (ops : List Byte) (new : List Result) : Prop :=
  new.length ≤ ops.length ∧ ∀ p ∈ ops.zip new, resultLegal p.1 p.2

/-- `n` steps of the block, stopping at the first refusal. -/
def runSteps : Nat → State → StepOutcome
  | 0, s => .next s
  | n + 1, s =>
    match step s with
    | .next t    => runSteps n t
    | .fault e   => .fault e
    | .refused e => .refused e

/-- What a stream write sends and leaves, with every `send` answered `ok`: `writeBytes` of R215 read straight, a flush
being one packet and an empty buffer. The datagrams in order, the buffer, the frame counter. -/
def writeSpec (c : StreamCfg) : List Byte → List Byte → BitVec 32 → List Datagram × List Byte × BitVec 32
  | [], buf, fc => ([], buf, fc)
  | b :: rest, buf, fc =>
    let forced := Config.maxPayload < buf.length + 1
    let dgs₁ := if forced then [headerOf c fc ++ buf] else []
    let buf₁ := (if forced then [] else buf) ++ [b]
    let fc₁  := if forced then fc + 1 else fc
    let dgs₂ := if b = Config.newline then [headerOf c fc₁ ++ buf₁] else []
    let buf₂ := if b = Config.newline then [] else buf₁
    let fc₂  := if b = Config.newline then fc₁ + 1 else fc₁
    let more := writeSpec c rest buf₂ fc₂
    (dgs₁ ++ dgs₂ ++ more.1, more.2)

/-- The result `r'` of a DF_READ_DATA that expects `expected`, from the result `r` that PKT_DECODE gives the datagram
(R252, R253): a failure unchanged, then ProtocolMismatch, then the payload with its typed view. -/
def typedReadResult (expected : Byte) (r r' : Result) : Prop :=
  (r.status ≠ .ok → r' = r) ∧
  (r.status = .ok → ∃ h payload, r.fields = .packet h payload ∧
    (h.protocol ≠ expected → r' = ⟨.protocolMismatch, 0, .none⟩) ∧
    (h.protocol = expected → r' = ⟨.ok, 0, .typed expected payload
      (if expected = 0x20 then some (payload.map asciiDecode)
       else if expected = 0x40 then some (utf8Decode payload) else none)⟩))

/-- The unread bytes of a view (R33). -/
def unread (d : Deframer) : List Byte := d.rx.drop d.cursor

/-- What one step of a DF_READ does to the byte stream (R260). `gathered` are the bytes that the call has already,
`arrived` the datagrams at the port. Some datagrams of the head of the queue are pulled, in order. Either the call
returns bytes and what is unread follows them, with nothing lost, repeated or reordered; or it waits with all of it
gathered; or the last datagram pulled does not decode, and the call fails. -/
def streamStep (n : BitVec 32) (gathered : List Byte) (arrived : List Datagram) (d d' : Deframer) : Prop :=
  ∃ pulled payloads,
    List.Forall₂ goodDatagram pulled payloads ∧
    ((∃ out, arrived = pulled ++ d'.queue ∧ d'.wait = .idle ∧ out.length ≤ n.toNat ∧
        d'.results = d.results ++ [⟨.ok, 0, .data out⟩] ∧
        out <+: gathered ++ unread d ++ payloads.flatten ∧
        (d'.isOpen = true → out ++ unread d' = gathered ++ unread d ++ payloads.flatten)) ∨
    (arrived = pulled ++ d'.queue ∧ d'.results = d.results ∧
      d'.wait = .rxPending (.read n (gathered ++ unread d ++ payloads.flatten)) ∧ unread d' = []) ∨
    (∃ bad st cause, arrived = pulled ++ bad :: d'.queue ∧ (¬∃ p, goodDatagram bad p) ∧ st ≠ .ok ∧
      d'.results = d.results ++ [⟨st, cause, .none⟩] ∧ d'.wait = .idle ∧ d'.rx = [] ∧ d'.cursor = 0))

end Sys2Proof.Safety
end

