-- ==== Sys2Proof/Certificates/Slice0/Obligations.lean ====
section
/-! DEFINITION. The statements for the provers. Each says what the block does by a rule of the spec, over every state
and operand it speaks of. The ports' histories `tx` and `results`, the events to come and the counter `closings` are
the model's own fields (log entries 2, 6 and 8); the statements say of the histories only that a result, or a datagram,
has been added. -/

open Sys2Proof Sys2Proof.Machine Sys2Proof.Safety

/-! ## Reset, waiting, what never changes -/

/-- R330: after reset the registries are full, every instance is closed and idle with its counter at 0 and its buffer
or view empty, and no command, no result and no send is pending. The unspecified fields are not spoken of. Three clauses
are not R330's own: `registryContents` holds the named values of R89 (log entry 7), an empty `events` is how the model
says that nothing is pending (log entry 2), and that there are instances is R6's and R24's. -/
def Obligations.ResetLeavesEverythingClosedAndIdle : Prop :=
  State.reset.registries = registryContents ∧ registriesLegal State.reset.registries ∧
  State.reset.frs ≠ [] ∧ State.reset.dfs ≠ [] ∧
  (∀ f ∈ State.reset.frs, f.isOpen = false ∧ f.fc = 0 ∧ f.buf.bytes = [] ∧
    f.buf.cap = State.reset.params.bufInitCap ∧ f.buf.fixed = false ∧ f.wait = .idle ∧ f.tx = [] ∧ f.results = []) ∧
  (∀ d ∈ State.reset.dfs, d.isOpen = false ∧ d.rx = [] ∧ d.cursor = 0 ∧ d.wait = .idle ∧ d.results = []) ∧
  State.reset.events = [] ∧ State.reset.results = []

/-- R331, R336, R337: while neither the host nor the transport moves, the block waits, unchanged. -/
def Obligations.WaitsUnchangedWithoutEvents : Prop :=
  ∀ s : State, s.events = [] → step s = .next s

/-- R332: the registries hold their full contents from reset on, and no step writes them. Which named value goes with
which code is general knowledge by R89 (log entry 7); that the codes are those of R23 is `registriesLegal`. -/
def Obligations.RegistriesFullFromResetAndNeverWritten : Prop :=
  State.reset.registries = registryContents ∧ registriesLegal State.reset.registries ∧
  ∀ s t : State, step s = .next t → t.registries = s.registries

/-- R6, R24: no step changes a parameter or the number of instances. -/
def Obligations.ParametersAndInstanceCountsFixed : Prop :=
  ∀ s t : State, step s = .next t →
    t.params = s.params ∧ t.frs.length = s.frs.length ∧ t.dfs.length = s.dfs.length

/-! ## Command words -/

/-- R84: when the oldest event is a command whose word and record decode to a well-formed command `i`, a step takes the
event and runs `exec i`, with nothing else around it. -/
def Obligations.StepRunsTheDecodedCommand : Prop :=
  ∀ (s : State) (w : BitVec 16) (r : OperandRecord) (rest : List Event) (i : Instr),
    s.events = .command w r :: rest → decode w r = .ok i → i.wellFormed = true →
    step s = exec i { s with events := rest }

/-- R84's words, as the spec writes some of them out, decode to their commands. -/
def Obligations.SpecWordsDecodeToTheirCommands : Prop :=
  decode 0x0001 (.lookup 2 18) = .ok (.regLookup 0 2 18) ∧
  decode 0xFF10 (.header ⟨0x40, 18, 0, 0, 1, 0, [], 7⟩) = .ok (.hdrEncode 255 ⟨0x40, 18, 0, 0, 1, 0, [], 7⟩) ∧
  decode 0x0021 (.data [1]) = .ok (.pktDecode 0 [1]) ∧
  decode 0x0131 (.data [0x61]) = .ok (.frWrite 1 [0x61]) ∧
  decode 0x0034 .none = .ok (.frClose 0) ∧
  decode 0x0142 .none = .ok (.dfReadData 1) ∧
  decode 0x0043 (.count 5) = .ok (.dfRead 0 5) ∧
  decode 0x0003 .none = .error (.reservedOp 0x03) ∧
  decode 0x0045 .none = .error (.reservedOp 0x45)

/-- R84, R85: decoding and encoding agree on every word, every record and every command, with every operand at every
value: a word and a record decode to `i` exactly when they are the encoding of `i`. -/
def Obligations.DecodeAndEncodeAgree : Prop :=
  ∀ (w : BitVec 16) (r : OperandRecord) (i : Instr), decode w r = .ok i ↔ encode i = (w, r)

/-- R92: a reserved opcode is IllegalCommand cause 1 and an instance out of range IllegalCommand cause 2, both with no
state changed but the result that leaves; a stateless command runs alike under every `inst`. -/
def Obligations.ReservedWordsAreIllegalCommands : Prop :=
  ∀ (s : State) (w : BitVec 16) (r : OperandRecord) (rest : List Event), s.events = .command w r :: rest →
    (reservedOp (opField w) → ∃ fields, step s =
      .next (State.report { s with events := rest } ⟨.illegalCommand, 1, fields⟩)) ∧
    (0x30 ≤ (opField w).toNat ∧ (opField w).toNat ≤ 0x34 ∧ s.frs.length ≤ (instField w).toNat → ∃ fields, step s =
      .next (State.report { s with events := rest } ⟨.illegalCommand, 2, fields⟩)) ∧
    (0x40 ≤ (opField w).toNat ∧ (opField w).toNat ≤ 0x44 ∧ s.dfs.length ≤ (instField w).toNat → ∃ fields, step s =
      .next (State.report { s with events := rest } ⟨.illegalCommand, 2, fields⟩)) ∧
    (statelessOp (opField w) → ∀ w' : BitVec 16, opField w' = opField w →
      step { s with events := .command w' r :: rest } = step s)

/-! ## Registries -/

/-- R111: REG_LOOKUP answers the named value of a code of its dimension, IllegalCommand cause 3 for dimension 7, and
UnknownCode with the dimension as cause otherwise; nothing else changes, and `inst` is ignored. -/
def Obligations.RegLookupAnswers : Prop :=
  ∀ (k : Byte) (dim : BitVec 3) (code : Byte) (s : State), registriesLegal s.registries →
    (dim = 7 → exec (.regLookup k dim code) s = .next (s.report ⟨.illegalCommand, 3, .none⟩)) ∧
    (∀ d, dimNumber d = dim → code ∈ Config.codes d → ∃ v, (code, v) ∈ tableOf s.registries d ∧
      exec (.regLookup k dim code) s = .next (s.report ⟨.ok, 0, .value v⟩)) ∧
    (∀ d, dimNumber d = dim → code ∉ Config.codes d →
      exec (.regLookup k dim code) s = .next (s.report ⟨.unknownCode, dim.setWidth 8, .none⟩))

/-- R112, R114: REG_DIMS answers the two dimensions that the protocol selects; Service is UnsupportedProtocol and any
other code UnknownCode cause 0; nothing else changes. -/
def Obligations.RegDimsAnswers : Prop :=
  ∀ (k p : Byte) (s : State), registriesLegal s.registries →
    exec (.regDims k p) s = .next (s.report
      (if p = 0x00 then ⟨.ok, 0, .dims 1 3⟩
       else if p = 0x20 then ⟨.ok, 0, .dims 2 4⟩
       else if p = 0x40 then ⟨.ok, 0, .dims 2 5⟩
       else if p = 0x60 then ⟨.unsupportedProtocol, 0, .none⟩
       else ⟨.unknownCode, 0, .none⟩))

/-! ## Header codec -/

/-- R152: the checks of HDR_ENCODE and of FR_OPEN on a closed idle instance, in their order: the first that fails
decides the result, and nothing else changes; operands either fail one or are encodable. -/
def Obligations.EncodeChecksDecideInOrder : Prop :=
  (∀ protocol rate samples channel format codec,
    encodable protocol rate samples channel format codec ∨
      ∃ st cause, encodeFails protocol rate samples channel format codec st cause) ∧
  (∀ (k : Byte) (r : HeaderRecord) (s : State) st cause, registriesLegal s.registries →
    encodeFails r.protocol r.rate r.samples r.channel r.format r.codec st cause →
    exec (.hdrEncode k r) s = .next (s.report ⟨st, cause, .none⟩)) ∧
  (∀ (k : Byte) (r : StreamRecord) (s : State) (f : Framer) st cause, registriesLegal s.registries →
    s.frs[k.toNat]? = some f → f.wait = .idle → f.isOpen = false →
    encodeFails r.protocol r.rate r.samples r.channel r.format r.codec st cause →
    exec (.frOpen k r) s =
      .next (s.setFramer k.toNat { f with results := f.results ++ [⟨st, cause, .none⟩] }))

/-- R80, R150: on operands that pass the checks HDR_ENCODE answers 28 bytes, each field at its offset: the magic; the
protocol and rate joined without loss; samples − 1 and channel − 1 mod 256; codec and format; the name's characters,
0x3F for one of no ASCII code, cut and zero-padded to 16; the counter least significant byte first. -/
def Obligations.HdrEncodeAnswersTheHeader : Prop :=
  ∀ (k : Byte) (r : HeaderRecord) (s : State), registriesLegal s.registries →
    encodable r.protocol r.rate r.samples r.channel r.format r.codec →
    ∃ hb : List Byte, exec (.hdrEncode k r) s = .next (s.report ⟨.ok, 0, .hb hb⟩) ∧
      hb.length = 28 ∧ hb.take 4 = [0x56, 0x42, 0x41, 0x4E] ∧
      (byteAt hb 4).toNat = r.protocol.toNat + r.rate.toNat ∧
      (byteAt hb 4).extractLsb' 5 3 = r.protocol.extractLsb' 5 3 ∧ (byteAt hb 4).extractLsb' 0 5 = r.rate.setWidth 5 ∧
      (byteAt hb 5).toNat = (r.samples.toNat + 255) % 256 ∧
      (byteAt hb 6).toNat = (r.channel.toNat + 255) % 256 ∧
      (byteAt hb 7).toNat = r.codec.toNat + r.format.toNat ∧
      (byteAt hb 7).extractLsb' 4 4 = r.codec.extractLsb' 4 4 ∧ (byteAt hb 7).extractLsb' 0 4 = r.format.setWidth 4 ∧
      (∀ i < 16, byteAt hb (8 + i) = match r.name[i]? with
        | some c => if c.toNat < 0x80 then c.setWidth 8 else 0x3F
        | none => 0) ∧
      (∀ j < 4, (byteAt hb (24 + j)).toNat = r.fc.toNat / 256 ^ j % 256)

/-- R158, R163: decode validation in its order, with STRICT_DECODE either way, and HDR_DECODE with the setting of this
hardware: the first failing step decides, and every input fails one or decodes. -/
def Obligations.DecodeChecksDecideInOrder : Prop :=
  (∀ strict data, decodable strict data ∨ ∃ st cause, decodeFails strict data st cause) ∧
  (∀ (R : Registries) strict data, registriesLegal R →
    (∀ st cause, decodeFails strict data st cause → decodeHeader R strict data = .error ⟨st, cause⟩) ∧
    (decodable strict data → ∃ h, decodeHeader R strict data = .ok h)) ∧
  (∀ (k : Byte) (data : List Byte) (s : State) st cause, registriesLegal s.registries →
    decodeFails true data st cause →
    exec (.hdrDecode k data) s = .next (s.report ⟨st, cause, .none⟩))

/-- R159, R156: on a decodable input HDR_DECODE answers the header value: the codes in place, the low fields, the
counts mod 256, the name up to its first zero byte with its characters, the little-endian counter. -/
def Obligations.HdrDecodeAnswersTheFields : Prop :=
  ∀ (k : Byte) (data : List Byte) (s : State), registriesLegal s.registries → decodable true data →
    ∃ h : Header, exec (.hdrDecode k data) s = .next (s.report ⟨.ok, 0, .hdr h⟩) ∧
      h.protocol.toNat = (byteAt data 4).toNat / 32 * 32 ∧ h.rate.toNat = (byteAt data 4).toNat % 32 ∧
      h.samples.toNat = ((byteAt data 5).toNat + 1) % 256 ∧ h.channel.toNat = ((byteAt data 6).toNat + 1) % 256 ∧
      h.codec.toNat = (byteAt data 7).toNat / 16 * 16 ∧ h.format.toNat = (byteAt data 7).toNat % 16 ∧
      (∃ rest, h.name ++ rest = (data.drop 8).take 16 ∧ (0 : Byte) ∉ h.name ∧ (rest = [] ∨ ∃ more, rest = 0 :: more)) ∧
      h.nameChars = h.name.map asciiDecode ∧
      h.fc.toNat = (byteAt data 24).toNat + 256 * (byteAt data 25).toNat + 65536 * (byteAt data 26).toNat +
        16777216 * (byteAt data 27).toNat

/-- R161: whatever HDR_ENCODE builds from encodable operands HDR_DECODE takes apart again, with STRICT_DECODE either
way: every field comes back, and the name comes back as its 16-byte encoding cut at the first zero byte, which for a
name of at most 16 characters in 0x01..0x7F is the name. -/
def Obligations.HeaderRoundTrip : Prop :=
  ∀ (j k : Byte) (r : HeaderRecord) (s : State), registriesLegal s.registries →
    encodable r.protocol r.rate r.samples r.channel r.format r.codec →
    ∃ (hb : List Byte) (h : Header),
      exec (.hdrEncode k r) s = .next (s.report ⟨.ok, 0, .hb hb⟩) ∧
      exec (.hdrDecode j hb) s = .next (s.report ⟨.ok, 0, .hdr h⟩) ∧
      (∀ strict, decodeHeader s.registries strict hb = .ok h) ∧
      h.protocol = r.protocol ∧ h.rate.setWidth 8 = r.rate ∧ h.samples.setWidth 32 = r.samples ∧
      h.channel.setWidth 32 = r.channel ∧ h.format.setWidth 8 = r.format ∧ h.codec = r.codec ∧ h.fc = r.fc ∧
      h.name = (encodeName r.name).takeWhile (· != 0) ∧ h.nameChars = h.name.map asciiDecode ∧
      (r.name.length ≤ 16 → (∀ c ∈ r.name, 1 ≤ c.toNat ∧ c.toNat ≤ 0x7F) →
        h.name = r.name.map (·.setWidth 8) ∧ h.nameChars = r.name)

/-- R162: 28 bytes that do not begin with "VBAN" are MalformedHeader cause 2, whatever the rest. -/
def Obligations.WrongMagicIsMalformed : Prop :=
  ∀ (k : Byte) (data : List Byte) (s : State), data.length = 28 → data.take 4 ≠ [0x56, 0x42, 0x41, 0x4E] →
    exec (.hdrDecode k data) s = .next (s.report ⟨.malformedHeader, 2, .none⟩)

/-- R160: a header of protocol field 011 always fails with UnsupportedProtocol once length and magic are right, and no
header value of protocol Service leaves the decoder. -/
def Obligations.ServiceNeverDecodes : Prop :=
  (∀ (k : Byte) (data : List Byte) (s : State), registriesLegal s.registries →
    data.length = 28 → data.take 4 = [0x56, 0x42, 0x41, 0x4E] → (byteAt data 4).toNat / 32 = 3 →
    exec (.hdrDecode k data) s = .next (s.report ⟨.unsupportedProtocol, 0, .none⟩)) ∧
  (∀ (R : Registries) strict data h, decodeHeader R strict data = .ok h → h.protocol ≠ 0x60)

/-- R153: the wire form of a count and the count of a wire byte, mod 256, and each the other's inverse. -/
def Obligations.WireAndCountAreInverse : Prop :=
  ∀ v : Byte, (wire v).toNat = (v.toNat + 255) % 256 ∧ (count v).toNat = (v.toNat + 1) % 256 ∧
    count (wire v) = v ∧ wire (count v) = v

/-! ## Packet codec -/

/-- R190: PKT_CREATE joins its operands unless they are longer than 1436 bytes together; nothing else changes. -/
def Obligations.PktCreateJoinsOrRefuses : Prop :=
  ∀ (k : Byte) (header payload : List Byte) (s : State),
    (header.length + payload.length ≤ 1436 →
      exec (.pktCreate k header payload) s = .next (s.report ⟨.ok, 0, .dg (header ++ payload)⟩)) ∧
    (1436 < header.length + payload.length →
      exec (.pktCreate k header payload) s = .next (s.report ⟨.payloadTooLarge, 1, .none⟩))

/-- R191, R192: PKT_DECODE decodes the first 28 bytes as HDR_DECODE does, then refuses more than 1436 bytes, and
otherwise answers that header with the bytes after it. -/
def Obligations.PktDecodeSplitsAndValidates : Prop :=
  ∀ (k : Byte) (d : Datagram) (s : State), registriesLegal s.registries →
    (∀ st cause, decodeFails true (d.take 28) st cause →
      exec (.pktDecode k d) s = .next (s.report ⟨st, cause, .none⟩)) ∧
    (decodable true (d.take 28) → 1436 < d.length →
      exec (.pktDecode k d) s = .next (s.report ⟨.payloadTooLarge, 2, .none⟩)) ∧
    (decodable true (d.take 28) → d.length ≤ 1436 → ∃ h,
      exec (.hdrDecode k (d.take 28)) s = .next (s.report ⟨.ok, 0, .hdr h⟩) ∧
      exec (.pktDecode k d) s = .next (s.report ⟨.ok, 0, .packet h (d.drop 28)⟩))

/-- R193: every datagram PKT_CREATE answers is at most 1436 bytes; a header of HDR_ENCODE and a payload of at most 1408
bytes make a datagram that PKT_DECODE takes apart into HDR_DECODE's header and that payload; PKT_DECODE answers one
result to every byte sequence. -/
def Obligations.PacketLaws : Prop :=
  (∀ (k : Byte) (header payload dg : List Byte) (s : State),
    exec (.pktCreate k header payload) s = .next (s.report ⟨.ok, 0, .dg dg⟩) → dg.length ≤ 1436) ∧
  (∀ (k : Byte) (r : HeaderRecord) (p : List Byte) (s : State), registriesLegal s.registries →
    encodable r.protocol r.rate r.samples r.channel r.format r.codec → p.length ≤ 1408 →
    ∃ hb dg h, exec (.hdrEncode k r) s = .next (s.report ⟨.ok, 0, .hb hb⟩) ∧
      exec (.pktCreate k hb p) s = .next (s.report ⟨.ok, 0, .dg dg⟩) ∧
      exec (.hdrDecode k hb) s = .next (s.report ⟨.ok, 0, .hdr h⟩) ∧
      exec (.pktDecode k dg) s = .next (s.report ⟨.ok, 0, .packet h p⟩)) ∧
  (∀ (k : Byte) (d : Datagram) (s : State), ∃ r, exec (.pktDecode k d) s = .next (s.report r))

/-! ## Growable buffer -/

/-- R131, R135: an append to a buffer with room adds the byte; a full growable one doubles its capacity, at least to
1; a full fixed one fails with BufferTooLarge cause 1. -/
def Obligations.BufAppendGrowsOrFails : Prop :=
  ∀ (g : GrowBuf) (b : Byte),
    (g.bytes.length ≠ g.cap → bufAppend g b = .ok ⟨g.bytes ++ [b], g.cap, g.fixed⟩) ∧
    (g.bytes.length = g.cap → g.fixed = false →
      bufAppend g b = .ok ⟨g.bytes ++ [b], if g.cap = 0 then 1 else 2 * g.cap, false⟩) ∧
    (g.bytes.length = g.cap → g.fixed = true → bufAppend g b = .error ⟨.bufferTooLarge, 1⟩)

/-- R136: appends to an empty growable buffer give exactly their bytes in order, with capacity never below their
number. -/
def Obligations.AppendsKeepContentsAndCapacity : Prop :=
  ∀ (g : GrowBuf) (bs : List Byte), g.bytes = [] → g.fixed = false →
    ∃ g', bs.foldlM bufAppend g = .ok g' ∧ g'.bytes = bs ∧ bs.length ≤ g'.cap ∧ g.cap ≤ g'.cap ∧ g'.fixed = false

/-! ## Output framer -/

/-- R211, R212: FR_OPEN on an open instance is refused. On a closed idle one, operands that fail a check give that
failure, and no state is written; operands that pass set the configuration, with the default name of the protocol where
none is set, counter 0 and an empty growable buffer, and open it. Its ports and every other instance stay. -/
def Obligations.FrOpenStartsAFreshStream : Prop :=
  ∀ (k : Byte) (r : StreamRecord) (s : State) (f : Framer), registriesLegal s.registries →
    s.frs[k.toNat]? = some f → f.wait = .idle →
    (f.isOpen = true → exec (.frOpen k r) s = .refused .alreadyOpen) ∧
    (∀ st cause, f.isOpen = false → encodeFails r.protocol r.rate r.samples r.channel r.format r.codec st cause →
      exec (.frOpen k r) s =
        .next (s.setFramer k.toNat { f with results := f.results ++ [⟨st, cause, .none⟩] })) ∧
    (f.isOpen = false → encodable r.protocol r.rate r.samples r.channel r.format r.codec → ∃ c : StreamCfg,
      exec (.frOpen k r) s = .next (s.setFramer k.toNat { f with
        isOpen := true, cfg := c, fc := 0, buf := ⟨[], s.params.bufInitCap, false⟩,
        results := f.results ++ [⟨.ok, 0, .none⟩] }) ∧
      c.protocol = r.protocol ∧ c.rate.setWidth 8 = r.rate ∧ c.format.setWidth 8 = r.format ∧ c.codec = r.codec ∧
      c.samples.setWidth 32 = r.samples ∧ c.channel.setWidth 32 = r.channel ∧ c.dest = r.dest ∧
      (r.nameSet = true → c.name.toList = encodeName r.name) ∧
      (r.nameSet = false → r.protocol = 0x00 →
        c.name.toList = [0x53, 0x74, 0x72, 0x65, 0x61, 0x6D, 0x31, 0, 0, 0, 0, 0, 0, 0, 0, 0]) ∧
      (r.nameSet = false → r.protocol = 0x20 →
        c.name.toList = [0x4D, 0x49, 0x44, 0x49, 0x31, 0, 0, 0, 0, 0, 0, 0, 0, 0, 0, 0]) ∧
      (r.nameSet = false → r.protocol = 0x40 →
        c.name.toList = [0x43, 0x6F, 0x6D, 0x6D, 0x61, 0x6E, 0x64, 0x31, 0, 0, 0, 0, 0, 0, 0, 0]))

/-- R210: the header the factory of an opened stream builds for any counter value is what HDR_ENCODE answers to the
stream's configuration and that value. -/
def Obligations.FactoryHeaderIsHdrEncode : Prop :=
  ∀ (j k : Byte) (r : StreamRecord) (s t : State) (f : Framer) (fc : BitVec 32) (name : List CodePoint),
    registriesLegal s.registries → s.frs[k.toNat]? = some f → f.isOpen = false →
    encodable r.protocol r.rate r.samples r.channel r.format r.codec →
    name = (if r.nameSet then r.name else defaultName r.protocol) →
    exec (.frOpen k r) s = .next t →
    ∃ f', t.frs[k.toNat]? = some f' ∧
      exec (.hdrEncode j ⟨r.protocol, r.rate, r.samples, r.channel, r.format, r.codec, name, fc⟩) s =
        .next (s.report ⟨.ok, 0, .hb (headerOf f'.cfg fc)⟩)

/-- R213, R214: FR_FLUSH on an open idle instance hands one datagram, the header with the counter and the whole buffer,
to the transmit port, moves the counter on, and waits; the size checks come first. The answer `ok` empties the buffer
and returns the counter sent; `fail` keeps it and raises TransportError, with the counter advanced or restored by
TXFAIL_COUNTER. -/
def Obligations.FrFlushSendsOnePacket : Prop :=
  ∀ (k : Byte) (s : State) (f : Framer), s.frs[k.toNat]? = some f → f.isOpen = true →
    (f.wait = .idle → f.buf.bytes.length ≤ 1408 →
      exec (.frFlush k) s = .next (s.setFramer k.toNat { f with
        fc := f.fc + 1
        tx := f.tx ++ [(f.cfg.dest, headerOf f.cfg f.fc ++ f.buf.bytes)]
        wait := .txPending (headerOf f.cfg f.fc ++ f.buf.bytes) f.fc .flush })) ∧
    (f.wait = .idle → 1408 < f.buf.bytes.length → f.buf.bytes.length ≤ 1436 →
      exec (.frFlush k) s = .next (s.setFramer k.toNat { f with
        results := f.results ++ [⟨.payloadTooLarge, 1, .none⟩] })) ∧
    (f.wait = .idle → 1436 < f.buf.bytes.length →
      exec (.frFlush k) s = .next (s.setFramer k.toNat { f with
        results := f.results ++ [⟨.bufferTooLarge, 0, .none⟩] })) ∧
    (∀ dg fcUsed rest, f.wait = .txPending dg fcUsed .flush → s.events = .tx k.toNat true :: rest →
      step s = .next (State.setFramer { s with events := rest } k.toNat { f with
        wait := .idle, buf := ⟨[], f.buf.cap, f.buf.fixed⟩
        results := f.results ++ [⟨.ok, 0, .fcSent fcUsed⟩] })) ∧
    (∀ dg fcUsed rest, f.wait = .txPending dg fcUsed .flush → s.events = .tx k.toNat false :: rest →
      step s = .next (State.setFramer { s with events := rest } k.toNat { f with
        wait := .idle, fc := if s.params.txFail = .restored then fcUsed else f.fc
        results := f.results ++ [⟨.transportError, 0, .none⟩] }))

/-- R215, R305: a failed flush inside a write, or after it, ends the command with TransportError and the number of
operand bytes done, which the record holds mod 2^32 (log entry 12); the buffer keeps its bytes and the rest is not
written. -/
def Obligations.FailedFlushEndsTheWrite : Prop :=
  ∀ (k : Nat) (s : State) (f : Framer) (dg : Datagram) (fcUsed : BitVec 32) (cont : FrCont) (kind : WriteKind)
    (left : List Byte) (consumed : Nat) (rest : List Event), s.frs[k]? = some f →
    f.wait = .txPending dg fcUsed cont → (cont = .write kind left consumed ∨ cont = .trailing consumed) →
    s.events = .tx k false :: rest →
    step s = .next (State.setFramer { s with events := rest } k { f with
      wait := .idle, fc := if s.params.txFail = .restored then fcUsed else f.fc
      results := f.results ++ [⟨.transportError, 0, .consumed (BitVec.ofNat 32 consumed)⟩] })

/-- R215, R216: FR_WRITE of bytes with no newline and room in the buffer appends them, sends nothing, and returns their
number. -/
def Obligations.FrWriteBuffersWhatFits : Prop :=
  ∀ (k : Byte) (data : List Byte) (s : State) (f : Framer), s.frs[k.toNat]? = some f → f.isOpen = true →
    f.wait = .idle → f.buf.fixed = false → (0x0A : Byte) ∉ data → f.buf.bytes.length + data.length ≤ 1408 →
    ∃ cap, f.buf.cap ≤ cap ∧
      exec (.frWrite k data) s = .next (s.setFramer k.toNat { f with
        buf := ⟨f.buf.bytes ++ data, cap, false⟩
        results := f.results ++ [⟨.ok, 0, .consumed (BitVec.ofNat 32 data.length)⟩] })

/-- R215, R223: FR_WRITE up to a newline that fits sends one datagram with every byte since the last flush, the newline
last, and waits with the rest still to write. Answered `ok`, with nothing left, it returns with the buffer empty. -/
def Obligations.FrWriteFlushesAtNewline : Prop :=
  ∀ (k : Byte) (before rest : List Byte) (s : State) (f : Framer), s.frs[k.toNat]? = some f → f.isOpen = true →
    f.wait = .idle → f.buf.fixed = false → (0x0A : Byte) ∉ before → f.buf.bytes.length + before.length + 1 ≤ 1408 →
    ∃ f', exec (.frWrite k (before ++ 0x0A :: rest)) s = .next (s.setFramer k.toNat f') ∧
      f'.buf.bytes = f.buf.bytes ++ before ++ [0x0A] ∧ f'.fc = f.fc + 1 ∧
      f'.tx = f.tx ++ [(f.cfg.dest, headerOf f.cfg f.fc ++ f.buf.bytes ++ before ++ [0x0A])] ∧
      f'.wait = .txPending (headerOf f.cfg f.fc ++ f.buf.bytes ++ before ++ [0x0A]) f.fc
        (.write .write rest (before.length + 1)) ∧
      f'.isOpen = true ∧ f'.cfg = f.cfg ∧ f'.results = f.results ∧
      (rest = [] → step { s.setFramer k.toNat f' with events := [.tx k.toNat true] } =
        .next (State.setFramer { s with events := [] } k.toNat { f' with
          wait := .idle, buf := ⟨[], f'.buf.cap, false⟩
          results := f.results ++ [⟨.ok, 0, .consumed (BitVec.ofNat 32 (before.length + 1))⟩] }))

/-- R215: FR_WRITE that fills the buffer to 1408 bytes and has a byte more flushes first: one datagram of 1436 bytes
without that byte, which is still to write. -/
def Obligations.FrWriteFlushesBeforeOverflow : Prop :=
  ∀ (k : Byte) (before : List Byte) (b : Byte) (rest : List Byte) (s : State) (f : Framer),
    s.frs[k.toNat]? = some f → f.isOpen = true → f.wait = .idle → f.buf.fixed = false → (0x0A : Byte) ∉ before →
    f.buf.bytes.length + before.length = 1408 →
    ∃ cap, exec (.frWrite k (before ++ b :: rest)) s = .next (s.setFramer k.toNat { f with
        buf := ⟨f.buf.bytes ++ before, cap, false⟩
        fc := f.fc + 1
        tx := f.tx ++ [(f.cfg.dest, headerOf f.cfg f.fc ++ (f.buf.bytes ++ before))]
        wait := .txPending (headerOf f.cfg f.fc ++ (f.buf.bytes ++ before)) f.fc
          (.write .write (b :: rest) before.length) }) ∧
      (headerOf f.cfg f.fc ++ (f.buf.bytes ++ before)).length = 1436

/-- R215, R216, R221: FR_WRITE with every send answered `ok`, run to its end over the steps it takes, sends exactly the
datagrams of the rule read straight, leaves its buffer and counter, and returns the number of operand bytes, which the
record holds mod 2^32 (log entry 12). -/
def Obligations.FrWriteRunsAsTheRuleReads : Prop :=
  ∀ (k : Byte) (data : List Byte) (s : State) (f : Framer) (rest : List Event), s.frs[k.toNat]? = some f →
    f.isOpen = true → f.wait = .idle → f.buf.fixed = false → f.buf.bytes.length ≤ 1408 →
    ∃ cap, runSteps ((writeSpec f.cfg data f.buf.bytes f.fc).1.length + 1)
        { s with events := .command (commandWord k 0x31) (.data data) ::
          (List.replicate (writeSpec f.cfg data f.buf.bytes f.fc).1.length (.tx k.toNat true) ++ rest) } =
      .next (State.setFramer { s with events := rest } k.toNat { f with
        buf := ⟨(writeSpec f.cfg data f.buf.bytes f.fc).2.1, cap, false⟩
        fc := (writeSpec f.cfg data f.buf.bytes f.fc).2.2
        tx := f.tx ++ (writeSpec f.cfg data f.buf.bytes f.fc).1.map (f.cfg.dest, ·)
        results := f.results ++ [⟨.ok, 0, .consumed (BitVec.ofNat 32 data.length)⟩] })

/-- R218: FR_SEND_DATA with every send answered `ok` sends what the write sends and then, if the buffer is not empty, one
packet more with all of it; the buffer is empty at the end. A Text stream writes the UTF-8 bytes of its characters, any
other stream the bytes given. It returns their number, which the record holds mod 2^32 (log entry 12). -/
def Obligations.FrSendDataWritesThenFlushes : Prop :=
  ∀ (k : Byte) (v : SendValue) (data : List Byte) (s : State) (f : Framer) (rest : List Event)
    (dgs : List Datagram) (fcEnd : BitVec 32), s.frs[k.toNat]? = some f →
    f.isOpen = true → f.wait = .idle → f.buf.fixed = false → f.buf.bytes.length ≤ 1408 → v.wellFormed = true →
    (f.cfg.protocol = 0x40 ∧ (∃ cs, v = .chars cs ∧ data = utf8Encode cs) ∨
      f.cfg.protocol ≠ 0x40 ∧ v = .bytes data) →
    (dgs, fcEnd) = (let w := writeSpec f.cfg data f.buf.bytes f.fc
      if w.2.1 = [] then (w.1, w.2.2) else (w.1 ++ [headerOf f.cfg w.2.2 ++ w.2.1], w.2.2 + 1)) →
    ∃ cap, runSteps (dgs.length + 1)
        { s with events := .command (commandWord k 0x33) (.value v) ::
          (List.replicate dgs.length (.tx k.toNat true) ++ rest) } =
      .next (State.setFramer { s with events := rest } k.toNat { f with
        buf := ⟨[], cap, false⟩, fc := fcEnd, tx := f.tx ++ dgs.map (f.cfg.dest, ·)
        results := f.results ++ [⟨.ok, 0, .consumed (BitVec.ofNat 32 data.length)⟩] })

/-- R218: FR_SEND_DATA of a value that fits, with at most its last byte a newline, hands exactly one datagram to the
transmit port: what was buffered, then the value. -/
def Obligations.FrSendDataHandsOverOnePacket : Prop :=
  ∀ (k : Byte) (v : SendValue) (data : List Byte) (s : State) (f : Framer), s.frs[k.toNat]? = some f →
    f.isOpen = true → f.wait = .idle → f.buf.fixed = false →
    (f.cfg.protocol = 0x40 ∧ (∃ cs, v = .chars cs ∧ data = utf8Encode cs) ∨
      f.cfg.protocol ≠ 0x40 ∧ v = .bytes data) →
    data ≠ [] → (0x0A : Byte) ∉ data.dropLast → f.buf.bytes.length + data.length ≤ 1408 →
    ∃ cap cont, (cont = .trailing data.length ∨ cont = .write .sendData [] data.length) ∧
      exec (.frSendData k v) s = .next (s.setFramer k.toNat { f with
        buf := ⟨f.buf.bytes ++ data, cap, false⟩
        fc := f.fc + 1
        tx := f.tx ++ [(f.cfg.dest, headerOf f.cfg f.fc ++ (f.buf.bytes ++ data))]
        wait := .txPending (headerOf f.cfg f.fc ++ (f.buf.bytes ++ data)) f.fc cont })

/-- R219: FR_CLOSE on an open idle instance drops the buffer, sends nothing and closes; on a closed one it is
StreamClosed cause 0. -/
def Obligations.FrCloseDropsTheBuffer : Prop :=
  ∀ (k : Byte) (s : State) (f : Framer), s.frs[k.toNat]? = some f → f.wait = .idle →
    (f.isOpen = true → exec (.frClose k) s = .next (s.setFramer k.toNat { f with
      isOpen := false, buf := ⟨[], f.buf.cap, f.buf.fixed⟩
      results := f.results ++ [⟨.ok, 0, .none⟩] })) ∧
    (f.isOpen = false → exec (.frClose k) s = .next (s.setFramer k.toNat { f with
      results := f.results ++ [⟨.streamClosed, 0, .none⟩] }))

/-- R220: while an instance is closed, every framer command but FR_OPEN fails with StreamClosed cause 0 and writes no
state. -/
def Obligations.ClosedFramerAnswersStreamClosed : Prop :=
  ∀ (k : Byte) (data : List Byte) (v : SendValue) (i : Instr) (s : State) (f : Framer),
    i ∈ [.frWrite k data, .frFlush k, .frSendData k v, .frClose k] →
    s.frs[k.toNat]? = some f → f.wait = .idle → f.isOpen = false →
    ∃ fields, exec i s = .next (s.setFramer k.toNat { f with
      results := f.results ++ [⟨.streamClosed, 0, fields⟩] })

/-- R217: the UTF-8 bytes of a scalar value, range by range, and of a sequence, joined in order. -/
def Obligations.Utf8EncodeFollowsTheTable : Prop :=
  (∀ u : CodePoint, isScalar u = true → (utf8EncodeChar u).map BitVec.toNat =
    if u.toNat ≤ 0x7F then [u.toNat]
    else if u.toNat ≤ 0x7FF then [0xC0 + u.toNat / 64, 0x80 + u.toNat % 64]
    else if u.toNat ≤ 0xFFFF then [0xE0 + u.toNat / 4096, 0x80 + u.toNat / 64 % 64, 0x80 + u.toNat % 64]
    else [0xF0 + u.toNat / 262144, 0x80 + u.toNat / 4096 % 64, 0x80 + u.toNat / 64 % 64, 0x80 + u.toNat % 64]) ∧
  (utf8Encode [] = [] ∧ ∀ u cs, utf8Encode (u :: cs) = utf8EncodeChar u ++ utf8Encode cs)

/-! ## Input deframer -/

/-- R250: DF_OPEN on a closed idle instance takes Audio, Serial or Text as its expected protocol and empties the view;
Service is UnsupportedProtocol, any other code UnknownCode cause 0, and then no state is written. -/
def Obligations.DfOpenFixesTheExpectedProtocol : Prop :=
  ∀ (k p : Byte) (s : State) (d : Deframer), registriesLegal s.registries → s.dfs[k.toNat]? = some d →
    d.wait = .idle → d.isOpen = false →
    (streamProtocol p → exec (.dfOpen k p) s = .next (s.setDeframer k.toNat { d with
      isOpen := true, expected := p, rx := [], cursor := 0, results := d.results ++ [⟨.ok, 0, .none⟩] })) ∧
    (p = 0x60 → exec (.dfOpen k p) s = .next (s.setDeframer k.toNat { d with
      results := d.results ++ [⟨.unsupportedProtocol, 0, .none⟩] })) ∧
    (p ∉ Config.codes .protocol → exec (.dfOpen k p) s = .next (s.setDeframer k.toNat { d with
      results := d.results ++ [⟨.unknownCode, 0, .none⟩] }))

/-- R251, R259: DF_READ_PACKET on an open idle instance consumes the head of the receive port's queue and answers what
PKT_DECODE answers to it, failures unchanged; the view is untouched. With no datagram it waits. -/
def Obligations.DfReadPacketAnswersTheHeadDatagram : Prop :=
  ∀ (k : Byte) (s : State) (d : Deframer), s.dfs[k.toNat]? = some d → d.wait = .idle → d.isOpen = true →
    (∀ dg q, d.queue = dg :: q → ∃ r, exec (.pktDecode 0 dg) s = .next (s.report r) ∧
      exec (.dfReadPacket k) s = .next (s.setDeframer k.toNat { d with
        queue := q, results := d.results ++ [r] })) ∧
    (d.queue = [] → exec (.dfReadPacket k) s = .next (s.setDeframer k.toNat { d with wait := .rxPending .readPacket }))

/-- R252, R253, R259: DF_READ_DATA consumes one datagram; a decode failure is answered unchanged, then a protocol other than
the expected one is ProtocolMismatch, and otherwise the payload comes with its typed view. With no datagram it waits. -/
def Obligations.DfReadDataAnswersTheTypedValue : Prop :=
  ∀ (k : Byte) (s : State) (d : Deframer), registriesLegal s.registries → s.dfs[k.toNat]? = some d → d.wait = .idle →
    d.isOpen = true →
    (∀ dg q, d.queue = dg :: q → ∃ r r', exec (.pktDecode 0 dg) s = .next (s.report r) ∧
      exec (.dfReadData k) s = .next (s.setDeframer k.toNat { d with queue := q, results := d.results ++ [r'] }) ∧
      typedReadResult d.expected r r') ∧
    (d.queue = [] → exec (.dfReadData k) s = .next (s.setDeframer k.toNat { d with wait := .rxPending .readData }))

/-- R318, R34, R35, R257: a datagram that arrives joins the queue of an instance where no read waits. Where a packet
read waits, it takes the datagram and ends as it would have ended at once; if a DF_CLOSE has overtaken it, the view is
emptied. -/
def Obligations.ArrivingDatagramQueuesOrEndsTheRead : Prop :=
  ∀ (k : Nat) (dg : Datagram) (s : State) (d : Deframer) (rest : List Event), s.dfs[k]? = some d →
    s.events = .rx k dg :: rest →
    (d.wait = .idle → step s =
      .next (State.setDeframer { s with events := rest } k { d with queue := d.queue ++ [dg] })) ∧
    (d.wait = .rxPending .readPacket → d.queue = [] → ∃ r, exec (.pktDecode 0 dg) s = .next (s.report r) ∧
      step s = .next (State.setDeframer { s with events := rest } k { d with
        wait := .idle, rx := if d.isOpen then d.rx else [], cursor := if d.isOpen then d.cursor else 0
        results := d.results ++ [r] })) ∧
    (d.wait = .rxPending .readData → d.queue = [] → ∃ r r', exec (.pktDecode 0 dg) s = .next (s.report r) ∧
      step s = .next (State.setDeframer { s with events := rest } k { d with
        wait := .idle, rx := if d.isOpen then d.rx else [], cursor := if d.isOpen then d.cursor else 0
        results := d.results ++ [r'] }) ∧
      typedReadResult d.expected r r')

/-- R254, R255: DF_READ of bytes that the view still holds returns them, moves the cursor on and pulls nothing; 0 bytes
among them. -/
def Obligations.DfReadTakesFromTheView : Prop :=
  ∀ (k : Byte) (n : BitVec 32) (s : State) (d : Deframer), s.dfs[k.toNat]? = some d → d.wait = .idle →
    d.isOpen = true → d.cursor ≤ d.rx.length → n.toNat ≤ d.rx.length - d.cursor →
    exec (.dfRead k n) s = .next (s.setDeframer k.toNat { d with
      cursor := d.cursor + n.toNat
      results := d.results ++ [⟨.ok, 0, .data ((d.rx.drop d.cursor).take n.toNat)⟩] })

/-- R254: under READ_SPAN = fill, DF_READ gathers over as many datagrams as it takes, and pulls only while it has too
few: the datagrams before `last` do not suffice, `last` does. -/
def Obligations.DfReadFillSpansDatagrams : Prop :=
  ∀ (k : Byte) (n : BitVec 32) (s : State) (d : Deframer) (dgs : List Datagram) (payloads : List (List Byte))
    (last : Datagram) (p : List Byte) (q : List Datagram), registriesLegal s.registries → s.params.readSpan = .fill →
    s.dfs[k.toNat]? = some d → d.wait = .idle → d.isOpen = true → d.cursor ≤ d.rx.length →
    d.queue = dgs ++ last :: q → List.Forall₂ goodDatagram dgs payloads → goodDatagram last p →
    (unread d ++ payloads.flatten).length < n.toNat → n.toNat ≤ (unread d ++ payloads.flatten ++ p).length →
    exec (.dfRead k n) s = .next (s.setDeframer k.toNat { d with
      rx := p, cursor := n.toNat - (unread d ++ payloads.flatten).length, queue := q
      results := d.results ++ [⟨.ok, 0, .data ((unread d ++ payloads.flatten ++ p).take n.toNat)⟩] })

/-- R255: under READ_SPAN = partial, DF_READ of some bytes returns what the view holds, up to the count; from an
exhausted view it skips empty payloads and returns from the first that is not. -/
def Obligations.DfReadPartialTakesOneDatagram : Prop :=
  ∀ (k : Byte) (n : BitVec 32) (s : State) (d : Deframer), registriesLegal s.registries →
    s.params.readSpan = .part → s.dfs[k.toNat]? = some d → d.wait = .idle → d.isOpen = true →
    d.cursor ≤ d.rx.length → 0 < n.toNat →
    (d.cursor < d.rx.length → exec (.dfRead k n) s = .next (s.setDeframer k.toNat { d with
      cursor := min (d.cursor + n.toNat) d.rx.length
      results := d.results ++ [⟨.ok, 0, .data ((unread d).take n.toNat)⟩] })) ∧
    (∀ empties last p q, d.cursor = d.rx.length → d.queue = empties ++ last :: q →
      (∀ e ∈ empties, goodDatagram e []) → goodDatagram last p → p ≠ [] →
      exec (.dfRead k n) s = .next (s.setDeframer k.toNat { d with
        rx := p, cursor := min n.toNat p.length, queue := q
        results := d.results ++ [⟨.ok, 0, .data (p.take n.toNat)⟩] }))

/-- R254, R255, R336: under either READ_SPAN, a DF_READ that finds too few bytes waits with all of them gathered and the
view and queue empty: fewer than the count under fill, none under partial. -/
def Obligations.DfReadWaitsForMore : Prop :=
  ∀ (k : Byte) (n : BitVec 32) (s : State) (d : Deframer) (payloads : List (List Byte)),
    registriesLegal s.registries → s.dfs[k.toNat]? = some d → d.wait = .idle →
    d.isOpen = true → d.cursor ≤ d.rx.length → List.Forall₂ goodDatagram d.queue payloads →
    stillReads s.params.readSpan n.toNat (unread d ++ payloads.flatten) →
    exec (.dfRead k n) s = .next (s.setDeframer k.toNat { d with
      rx := [], cursor := 0, queue := [], wait := .rxPending (.read n (unread d ++ payloads.flatten)) })

/-- R254, R255, R305: under either READ_SPAN, a datagram that a DF_READ meets and that does not decode ends it with the
result of PKT_DECODE, unchanged: the datagram is consumed, the gathered bytes are dropped and the view is left empty. -/
def Obligations.DfReadFailureEmptiesTheView : Prop :=
  ∀ (k : Byte) (n : BitVec 32) (s : State) (d : Deframer) (dgs : List Datagram) (payloads : List (List Byte))
    (bad : Datagram) (q : List Datagram) (r : Result), registriesLegal s.registries → s.dfs[k.toNat]? = some d → d.wait = .idle → d.isOpen = true → d.cursor ≤ d.rx.length →
    d.queue = dgs ++ bad :: q → List.Forall₂ goodDatagram dgs payloads →
    stillReads s.params.readSpan n.toNat (unread d ++ payloads.flatten) →
    exec (.pktDecode 0 bad) s = .next (s.report r) → r.status ≠ .ok →
    exec (.dfRead k n) s = .next (s.setDeframer k.toNat { d with
      rx := [], cursor := 0, queue := q, results := d.results ++ [r] })

/-- R260: no byte of the stream is lost, repeated or reordered by a DF_READ, under either span: neither by the command
itself nor by a datagram that reaches a waiting one. -/
def Obligations.DfReadKeepsTheByteStream : Prop :=
  (∀ (k : Byte) (n : BitVec 32) (s : State) (d : Deframer), registriesLegal s.registries →
    s.dfs[k.toNat]? = some d → d.wait = .idle → d.isOpen = true → d.cursor ≤ d.rx.length →
    ∃ d', exec (.dfRead k n) s = .next (s.setDeframer k.toNat d') ∧ streamStep n [] d.queue d d') ∧
  (∀ (k : Nat) (dg : Datagram) (n : BitVec 32) (out : List Byte) (s : State) (d : Deframer) (rest : List Event),
    registriesLegal s.registries → s.dfs[k]? = some d → deframerInv s.params d → d.wait = .rxPending (.read n out) →
    s.events = .rx k dg :: rest →
    ∃ d', step s = .next (State.setDeframer { s with events := rest } k d') ∧ streamStep n out [dg] d d')

/-- R256: DF_CLOSE on an open idle instance closes it and drops the unread bytes; on a closed one, with a read waiting or
not, it is StreamClosed cause 0. -/
def Obligations.DfCloseDropsTheView : Prop :=
  ∀ (k : Byte) (s : State) (d : Deframer), s.dfs[k.toNat]? = some d →
    (d.wait = .idle → d.isOpen = true → exec (.dfClose k) s = .next (s.setDeframer k.toNat { d with
      isOpen := false, rx := [], cursor := 0, results := d.results ++ [⟨.ok, 0, .none⟩] })) ∧
    (d.isOpen = false → exec (.dfClose k) s = .next (s.setDeframer k.toNat { d with
      results := d.results ++ [⟨.streamClosed, 0, .none⟩] }))

/-- R256, R257: DF_CLOSE while a read waits returns OK at once. By a free value, the read ends with StreamClosed cause 1
and the view is emptied (*abort*), or it stays in `receive` with the view as it is (*linger*). The order of the two
results of an abort on the port is the model's choice (log entry 8). -/
def Obligations.DfCloseDuringAReceiveAbortsOrLingers : Prop :=
  ∀ (k : Byte) (s : State) (d : Deframer) (c : DfCont), s.dfs[k.toNat]? = some d → d.wait = .rxPending c →
    d.isOpen = true →
    exec (.dfClose k) s = .next (s.setDeframer k.toNat
      (if Config.closeAborts k.toNat d.closings then { d with
        isOpen := false, wait := .idle, rx := [], cursor := 0, closings := d.closings + 1
        results := d.results ++ [⟨.ok, 0, .none⟩, ⟨.streamClosed, 1, .none⟩] }
      else { d with
        isOpen := false, closings := d.closings + 1, results := d.results ++ [⟨.ok, 0, .none⟩] }))

/-- R257, R33: a read that a DF_CLOSE has overtaken, when a datagram reaches it, either goes on waiting or ends with the
view empty, whatever its status. -/
def Obligations.OvertakenReadLeavesAnEmptyView : Prop :=
  ∀ (k : Nat) (dg : Datagram) (s t : State) (d : Deframer) (c : DfCont) (rest : List Event), s.dfs[k]? = some d →
    d.isOpen = false → d.wait = .rxPending c → s.events = .rx k dg :: rest → step s = .next t →
    ∃ d', t.dfs[k]? = some d' ∧ d'.isOpen = false ∧
      ((∃ c', d'.wait = .rxPending c' ∧ d'.results = d.results) ∨
       (d'.wait = .idle ∧ d'.rx = [] ∧ d'.cursor = 0 ∧ ∃ r, d'.results = d.results ++ [r]))

/-- R258: while an instance is closed, every deframer command but DF_OPEN fails with StreamClosed cause 0 and writes no
state. While a read that the close has overtaken still waits, the host may issue no read (R309), so then it is said of
DF_CLOSE alone. -/
def Obligations.ClosedDeframerAnswersStreamClosed : Prop :=
  ∀ (k : Byte) (n : BitVec 32) (i : Instr) (s : State) (d : Deframer),
    i ∈ [.dfReadPacket k, .dfReadData k, .dfRead k n, .dfClose k] →
    s.dfs[k.toNat]? = some d → (d.wait = .idle ∨ i = .dfClose k) →
    d.isOpen = false →
    exec i s = .next (s.setDeframer k.toNat { d with
      results := d.results ++ [⟨.streamClosed, 0, .none⟩] })

/-! ## The whole block -/

/-- R38, R222, R224, R130: the invariant of the block is kept by every step. -/
def Obligations.EveryStepKeepsTheInvariant : Prop :=
  ∀ s t : State, stateInv s → step s = .next t → stateInv t

/-- R38, R330: the invariant holds after reset. -/
def Obligations.ResetMeetsTheInvariant : Prop := stateInv State.reset

/-- R301, R302: from a state that meets the invariant, every result that a step adds to a port is one that the spec
gives the command that ends there, by its status and its cause: a framer never answers BufferTooLarge or PayloadTooLarge,
among them. A port gets no result but of a command that the event brings to it or resumes there, and at most one of each.
Which port that is, and that DF_CLOSE's result comes before that of the read it aborts, is the model's choice
(log entry 8). -/
def Obligations.EveryResultIsOneTheCommandMayReturn : Prop :=
  ∀ (s t : State) (e : Event) (rest : List Event), stateInv s → s.events = e :: rest → step s = .next t →
    (∃ new, t.results = s.results ++ new ∧ answers (looseOps e) new) ∧
    (∀ (k : Nat) (f f' : Framer), s.frs[k]? = some f → t.frs[k]? = some f' →
      ∃ new, f'.results = f.results ++ new ∧ answers (framerOps e k f) new) ∧
    (∀ (k : Nat) (d d' : Deframer), s.dfs[k]? = some d → t.dfs[k]? = some d' →
      ∃ new, d'.results = d.results ++ new ∧ answers (deframerOps e k d) new)

/-- R39: which command writes which state. The parameters, the registries, the events and every other instance stay;
in the addressed instance, every field that the table does not list for the command stays, a result is only added, and
the receive port only loses datagrams from its head. -/
def Obligations.CommandsWriteOnlyTheirOwnState : Prop :=
  ∀ (i : Instr) (s t : State), exec i s = .next t →
    t.params = s.params ∧ t.registries = s.registries ∧ t.events = s.events ∧
    (targetOf i = none → t.frs = s.frs ∧ t.dfs = s.dfs) ∧
    (∀ k, targetOf i = some (true, k) → t.dfs = s.dfs ∧ (∀ j, j ≠ k → t.frs[j]? = s.frs[j]?) ∧
      ∀ f, s.frs[k]? = some f → t.results = s.results ∧ ∃ f' rs, t.frs[k]? = some f' ∧ f'.results = f.results ++ rs ∧
        (i.opcode ≠ .frOpen → f'.cfg = f.cfg) ∧
        (i.opcode ≠ .frOpen → i.opcode ≠ .frClose → f'.isOpen = f.isOpen) ∧
        (i.opcode = .frOpen ∨ i.opcode = .frClose → f'.wait = f.wait ∧ f'.tx = f.tx) ∧
        (i.opcode = .frClose → f'.fc = f.fc)) ∧
    (∀ k, targetOf i = some (false, k) → t.frs = s.frs ∧ (∀ j, j ≠ k → t.dfs[j]? = s.dfs[j]?) ∧
      ∀ d, s.dfs[k]? = some d → t.results = s.results ∧ ∃ d' rs, t.dfs[k]? = some d' ∧ d'.results = d.results ++ rs ∧
        (i.opcode ≠ .dfOpen → d'.expected = d.expected) ∧
        (i.opcode ≠ .dfOpen → i.opcode ≠ .dfClose → d'.isOpen = d.isOpen) ∧
        (i.opcode = .dfReadPacket ∨ i.opcode = .dfReadData → d'.rx = d.rx ∧ d'.cursor = d.cursor) ∧
        (i.opcode = .dfOpen → d'.wait = d.wait) ∧
        (i.opcode = .dfOpen ∨ i.opcode = .dfClose → d'.queue = d.queue) ∧
        (i.opcode ≠ .dfClose → d'.closings = d.closings) ∧ d'.queue <:+ d.queue)

/-- R24, R70: commands to two different instances commute, and so do a stateless command and an instance command: if
each may run, they may run in either order, and the state after both is the same. -/
def Obligations.CommandsToDifferentInstancesCommute : Prop :=
  ∀ (i₁ i₂ : Instr) (s s₁ s₂ : State), targetOf i₁ ≠ targetOf i₂ → targetExists i₁ s → targetExists i₂ s →
    exec i₁ s = .next s₁ → exec i₂ s = .next s₂ →
    ∃ t, exec i₂ s₁ = .next t ∧ exec i₁ s₂ = .next t

/-- R309, R318: a step goes on exactly when the host and the transport keep their duties with the event it takes: no
other run is refused, and nothing faults. Two of these duties the model reads from the spec by inference: that a command
checked and refused by R308 is not held to its record (log entry 13), and that a transport event finds an instance at its
port (log entry 14). -/
def Obligations.OnlyBrokenDutiesAreRefused : Prop :=
  ∀ (s : State) (e : Event) (rest : List Event), s.events = e :: rest →
    ((∃ t, step s = .next t) ↔ eventDuty e { s with events := rest })

/-- R28, R210, R70: a step hands at most one datagram of a framer to its transmit port. The datagram carries the counter
from before, the counter then moves on by one mod 2^32, and the framer waits. Without a send the counter stays, but for
an FR_OPEN, which sets it to 0, and a failed send, which may give the value back. -/
def Obligations.EachSendNumbersItsPacket : Prop :=
  ∀ (s t : State) (k : Nat) (f f' : Framer), step s = .next t → s.frs[k]? = some f → t.frs[k]? = some f' →
    (∃ dg c, f'.tx = f.tx ++ [(f.cfg.dest, dg)] ∧ le32 dg 24 = f.fc ∧ f'.fc = f.fc + 1 ∧
      f'.wait = .txPending dg f.fc c) ∨
    (f'.tx = f.tx ∧ (f'.fc = f.fc ∨ (f.isOpen = false ∧ f'.isOpen = true ∧ f'.fc = 0) ∨
      (∃ dg u c, f.wait = .txPending dg u c ∧ f'.wait = .idle ∧ f'.fc = u)))

/-! ## A waiting DF_READ -/

/-- R254, R255, R35, R257: a datagram that reaches a waiting DF_READ resumes it with what it has gathered. A datagram that
does not decode ends it with the result of PKT_DECODE, unchanged, and the view empty. A payload that leaves it with too
few bytes is gathered, and it waits on. Any other payload ends it with the bytes up to the count and with that payload as
its view, the cursor after the bytes taken; if a DF_CLOSE has overtaken it, the view is emptied. -/
def Obligations.ArrivingDatagramResumesDfRead : Prop :=
  ∀ (k : Nat) (dg : Datagram) (n : BitVec 32) (out : List Byte) (s : State) (d : Deframer) (rest : List Event),
    registriesLegal s.registries → s.dfs[k]? = some d → d.wait = .rxPending (.read n out) → d.queue = [] →
    stillReads s.params.readSpan n.toNat out → s.events = .rx k dg :: rest →
    (∀ r, exec (.pktDecode 0 dg) s = .next (s.report r) → r.status ≠ .ok →
      step s = .next (State.setDeframer { s with events := rest } k { d with
        wait := .idle, rx := [], cursor := 0, results := d.results ++ [r] })) ∧
    (∀ p, goodDatagram dg p → stillReads s.params.readSpan n.toNat (out ++ p) →
      step s = .next (State.setDeframer { s with events := rest } k { d with
        wait := .rxPending (.read n (out ++ p)), rx := [], cursor := 0 })) ∧
    (∀ p, goodDatagram dg p → ¬stillReads s.params.readSpan n.toNat (out ++ p) →
      step s = .next (State.setDeframer { s with events := rest } k { d with
        wait := .idle
        rx := if d.isOpen then p else []
        cursor := if d.isOpen then min (n.toNat - out.length) p.length else 0
        results := d.results ++ [⟨.ok, 0, .data ((out ++ p).take n.toNat)⟩] }))
end

