-- ==== Sys2Proof/Laws/Codec.lean ====
section
/-! SUPPORT. Lemmas of the registries, the header codec and the packet codec: what membership says, the lengths and
bytes of a packed header, and what the check functions answer. -/

namespace Sys2Proof.Machine

open Sys2Proof.Safety

/-- Looking a key up in a table finds something exactly when the table has the key. -/
theorem lookup_isSome {α β : Type} [BEq α] [LawfulBEq α] (c : α) (t : List (α × β)) :
    (t.lookup c).isSome = true ↔ c ∈ t.map Prod.fst := by
  induction t with
  | nil => simp
  | cons p t ih =>
    obtain ⟨k, v⟩ := p
    by_cases h : c = k
    · simp [h]
    · have hb : (c == k) = false := by simp [h]
      rw [List.lookup_cons, hb, List.map_cons, List.mem_cons]
      exact ih.trans (by simp [h])

/-- What a lookup finds is in the table. -/
theorem mem_of_lookup {α β : Type} [BEq α] [LawfulBEq α] {c : α} {v : β} {t : List (α × β)}
    (h : t.lookup c = some v) : (c, v) ∈ t := by
  induction t with
  | nil => simp at h
  | cons p t ih =>
    obtain ⟨k, w⟩ := p
    by_cases hk : c = k
    · subst hk
      simp at h
      simp [h]
    · have hb : (c == k) = false := by simp [hk]
      exact List.mem_cons_of_mem _ (ih (by simpa [List.lookup_cons, hb] using h))

/-- With the registries of R23, membership is membership in the code set. -/
theorem inDim_iff {R : Registries} (hR : registriesLegal R) (d : Dimension) (c : Byte) :
    inDim R d c = true ↔ c ∈ Config.codes d := by
  rw [inDim, regValue, lookup_isSome, hR d]

/-- The negative form. -/
theorem inDim_false {R : Registries} (hR : registriesLegal R) (d : Dimension) (c : Byte) :
    inDim R d c = false ↔ c ∉ Config.codes d := by
  rw [← inDim_iff hR]; simp

/-- The registries as the spec fills them have the codes of R23. -/
theorem registryContents_legal : registriesLegal registryContents := by
  intro d
  cases d <;> decide

/-- A protocol with a rate dimension is Audio, Serial or Text. -/
theorem rateDim_isSome {p : Byte} : (∃ d, rateDim p = some d) ↔ streamProtocol p := by
  unfold rateDim streamProtocol
  split_ifs <;> simp_all

/-- A protocol with a format dimension is Audio, Serial or Text. -/
theorem fmtDim_isSome {p : Byte} : (∃ d, fmtDim p = some d) ↔ streamProtocol p := by
  unfold fmtDim streamProtocol
  split_ifs <;> simp_all

/-- The codes of the Protocol set are the stream protocols and Service. -/
theorem mem_protocol_codes {p : Byte} : p ∈ Config.codes .protocol ↔ streamProtocol p ∨ p = 0x60 := by
  simp [Config.codes, streamProtocol, or_assoc]

/-- A stream protocol is not Service. -/
theorem streamProtocol_ne {p : Byte} (h : streamProtocol p) : p ≠ 0x60 := by
  rcases h with rfl | rfl | rfl <;> decide

/-- What `checkProtocol` answers (R112, R250). -/
theorem checkProtocol_none {R : Registries} (hR : registriesLegal R) {p : Byte} :
    checkProtocol R p = none ↔ streamProtocol p := by
  unfold checkProtocol
  constructor
  · intro h
    split_ifs at h with h₁ h₂
    have h₃ : inDim R .protocol p = true := by simpa using h₁
    exact (mem_protocol_codes.mp ((inDim_iff hR _ _).mp h₃)).resolve_right h₂
  · intro h
    have h₁ := (inDim_iff hR _ _).mpr (mem_protocol_codes.mpr (.inl h))
    rw [h₁, if_neg (by simp), if_neg (streamProtocol_ne h)]

/-- Service is refused by name. -/
theorem checkProtocol_service {R : Registries} (hR : registriesLegal R) :
    checkProtocol R 0x60 = some unsupportedProtocol := by
  have h := (inDim_iff hR .protocol 0x60).mpr (by decide)
  rw [checkProtocol, h, if_neg (by simp), if_pos rfl]

/-- A code outside the Protocol set is unknown. -/
theorem checkProtocol_unknown {R : Registries} (hR : registriesLegal R) {p : Byte}
    (h : p ∉ Config.codes .protocol) : checkProtocol R p = some (unknownCode .protocol) := by
  simp [checkProtocol, (inDim_false hR _ _).mpr h]

/-- A code of the selected dimension passes. -/
theorem checkSelected_mem {R : Registries} (hR : registriesLegal R) {d : Dimension} {c : Byte}
    (h : c ∈ Config.codes d) : checkSelected R (some d) c = none := by
  simp [checkSelected, (inDim_iff hR _ _).mpr h]

/-- A code outside the selected dimension is unknown. -/
theorem checkSelected_not_mem {R : Registries} (hR : registriesLegal R) {d : Dimension} {c : Byte}
    (h : c ∉ Config.codes d) : checkSelected R (some d) c = some (unknownCode d) := by
  simp [checkSelected, (inDim_false hR _ _).mpr h]

/-- The range check of an `s32` operand. -/
theorem inByteRange_iff (v : BitVec 32) : inByteRange v = true ↔ 0 ≤ v.toInt ∧ v.toInt ≤ 255 := by
  simp [inByteRange]

/-- The low byte of an operand in range is the operand. -/
theorem byteOf_setWidth {v : BitVec 32} (h : 0 ≤ v.toInt ∧ v.toInt ≤ 255) : (byteOf v).setWidth 32 = v := by
  apply BitVec.eq_of_toNat_eq
  have := v.isLt
  rw [BitVec.toInt_eq_toNat_cond] at h
  simp [byteOf]
  split at h <;> omega

/-- The same as numbers. -/
theorem byteOf_toNat {v : BitVec 32} (h : 0 ≤ v.toInt ∧ v.toInt ≤ 255) : (byteOf v).toNat = v.toNat := by
  have := v.isLt
  rw [BitVec.toInt_eq_toNat_cond] at h
  simp [byteOf]
  split at h <;> omega

/-- `checkEncode` passes exactly the encodable operands (R152). -/
theorem checkEncode_none {R : Registries} (hR : registriesLegal R) {p rate : Byte} {sm ch : BitVec 32} {f c : Byte} :
    checkEncode R p rate sm ch f c = none ↔ encodable p rate sm ch f c := by
  unfold checkEncode encodable
  rw [← inByteRange_iff, ← inByteRange_iff]
  by_cases h₁ : inByteRange sm = true
  swap
  · simp [h₁]
  by_cases h₂ : inByteRange ch = true
  swap
  · simp [h₁, h₂]
  simp only [h₁, h₂, Bool.not_true, Bool.false_eq_true, if_false, Option.or_eq_none_iff, checkProtocol_none hR, true_and]
  refine and_congr_right fun hp => ?_
  obtain ⟨rd, hrd⟩ := rateDim_isSome.mpr hp
  obtain ⟨fd, hfd⟩ := fmtDim_isSome.mpr hp
  simp only [hrd, hfd, checkSelected, Option.some.injEq, exists_eq_left', ← inDim_iff hR]
  simp

/-- A first failing check of `checkEncode` (R152) is its answer. -/
theorem checkEncode_some {R : Registries} (hR : registriesLegal R) {p rate : Byte} {sm ch : BitVec 32} {f c : Byte}
    {st : Status} {cause : BitVec 8} (h : encodeFails p rate sm ch f c st cause) :
    checkEncode R p rate sm ch f c = some ⟨st, cause⟩ := by
  unfold encodeFails at h
  rw [← inByteRange_iff, ← inByteRange_iff] at h
  unfold checkEncode
  rcases h with ⟨h₁, rfl, rfl⟩ | ⟨h₁, h⟩
  · simp [h₁, outOfRange]
  rcases h with ⟨h₂, rfl, rfl⟩ | ⟨h₂, h⟩
  · simp [h₁, h₂, outOfRange]
  simp only [h₁, h₂, Bool.not_true, Bool.false_eq_true, if_false]
  rcases h with ⟨h₃, rfl, rfl⟩ | ⟨rfl, rfl, rfl⟩ | ⟨rd, fd, hrd, hfd, h⟩
  · simp [checkProtocol_unknown hR h₃, unknownCode, dimNumber]
  · rw [checkProtocol_service hR]; rfl
  have hp : checkProtocol R p = none := (checkProtocol_none hR).mpr (rateDim_isSome.mp ⟨rd, hrd⟩)
  simp only [hp, hrd, hfd, Option.none_or]
  rcases h with ⟨h₄, rfl, rfl⟩ | ⟨h₄, h⟩
  · simp [checkSelected_not_mem hR h₄, unknownCode]
  simp only [checkSelected_mem hR h₄, Option.none_or]
  rcases h with ⟨h₅, rfl, rfl⟩ | ⟨h₅, h₆, rfl, rfl⟩
  · simp [checkSelected_not_mem hR h₅, unknownCode]
  · simp [checkSelected_mem hR h₅, (inDim_false hR _ _).mpr h₆, unknownCode, dimNumber]

/-- A packed header is 28 bytes long when its name field is 16. -/
theorem packHeader_length (p r sm ch c f : Byte) (name : List Byte) (fc : BitVec 32) (h : name.length = 16) :
    (packHeader p r sm ch c f name fc).length = 28 := by
  simp [packHeader, Config.magic, toLe32, h]

/-- A configuration's name field is 16 bytes long (R25). -/
@[simp] theorem StreamCfg.name_length (c : StreamCfg) : c.name.toList.length = 16 := c.name.length_toList

/-- The wire form of a name is 16 bytes long (R150). -/
@[simp] theorem encodeName_length_eq (name : List CodePoint) : (encodeName name).length = 16 := encodeName_length name

/-- Every header of a stream's factory is 28 bytes long (R210). -/
@[simp] theorem headerOf_length (c : StreamCfg) (fc : BitVec 32) : (headerOf c fc).length = 28 := by
  rw [headerOf, packHeader_length]
  exact c.name_length

/-- Two byte strings joined, as a number. -/
theorem append_byte_toNat {w : Nat} (x : BitVec w) (b : Byte) : (x ++ b).toNat = 256 * x.toNat + b.toNat := by
  rw [BitVec.toNat_append, Nat.shiftLeft_eq, Nat.mul_comm, ← Nat.two_pow_add_eq_or_of_lt b.isLt]

/-- `LE32` as a number (R8). -/
theorem le32_toNat (b : List Byte) (o : Nat) : (le32 b o).toNat =
    (byteAt b o).toNat + 256 * (byteAt b (o + 1)).toNat + 65536 * (byteAt b (o + 2)).toNat +
      16777216 * (byteAt b (o + 3)).toNat := by
  rw [le32, append_byte_toNat, append_byte_toNat, append_byte_toNat]
  omega

/-- The bytes of `toLE32` as numbers (R8). -/
theorem toLe32_toNat (v : BitVec 32) : (byteAt (toLe32 v) 0).toNat = v.toNat % 256 ∧
    (byteAt (toLe32 v) 1).toNat = v.toNat / 256 % 256 ∧ (byteAt (toLe32 v) 2).toNat = v.toNat / 65536 % 256 ∧
    (byteAt (toLe32 v) 3).toNat = v.toNat / 16777216 % 256 := by
  simp [byteAt, toLe32, BitVec.extractLsb'_toNat, Nat.shiftRight_eq_div_pow]

/-- A counter written least significant byte first reads back (R61). -/
theorem le32_toLe32 (v : BitVec 32) (b : List Byte) (o : Nat) (h : ∀ j < 4, byteAt b (o + j) = byteAt (toLe32 v) j) :
    le32 b o = v := by
  apply BitVec.eq_of_toNat_eq
  obtain ⟨h₀, h₁, h₂, h₃⟩ := toLe32_toNat v
  have hv := v.isLt
  rw [le32_toNat, ← Nat.add_zero o, Nat.add_assoc o 0 1, Nat.add_assoc o 0 2, Nat.add_assoc o 0 3, h 0 (by omega),
    h (0 + 1) (by omega), h (0 + 2) (by omega), h (0 + 3) (by omega), h₀, h₁, h₂, h₃]
  omega

/-- What a header's bytes are, offset by offset (R80). -/
theorem byteAt_packHeader (p r sm ch c f : Byte) (name : List Byte) (fc : BitVec 32) (h : name.length = 16) :
    byteAt (packHeader p r sm ch c f name fc) 4 = p ||| r ∧
    byteAt (packHeader p r sm ch c f name fc) 5 = wire sm ∧
    byteAt (packHeader p r sm ch c f name fc) 6 = wire ch ∧
    byteAt (packHeader p r sm ch c f name fc) 7 = c ||| f ∧
    (packHeader p r sm ch c f name fc).take 4 = Config.magic ∧
    ((packHeader p r sm ch c f name fc).drop 8).take 16 = name ∧
    (∀ j < 4, byteAt (packHeader p r sm ch c f name fc) (24 + j) = byteAt (toLe32 fc) j) := by
  refine ⟨rfl, rfl, rfl, rfl, rfl, ?_, ?_⟩
  · simp [packHeader, Config.magic, h]
  · intro j hj
    have hl : (Config.magic ++ [p ||| r, wire sm, wire ch, c ||| f] ++ name).length = 24 := by
      simp [Config.magic, h]
    rw [packHeader, byteAt, byteAt, List.getD_eq_getElem?_getD, List.getElem?_append_right (by omega), hl,
      List.getD_eq_getElem?_getD, Nat.add_sub_cancel_left]

/-- `checkDecode` passes exactly the decodable inputs (R158). -/
theorem checkDecode_none {R : Registries} (hR : registriesLegal R) {strict : Bool} {data : List Byte} :
    checkDecode R strict data = none ↔ decodable strict data := by
  unfold checkDecode decodable
  simp only [Config.hdrLen, Config.magic, sliceOf, List.drop_zero, Nat.sub_zero]
  generalize byteAt data 4 &&& 0xE0 = p
  generalize byteAt data 7 &&& 0xF0 = c
  split_ifs with h₁ h₂ h₃ h₄ h₅ h₆
  · simp [h₁]
  · exact iff_of_false (by simp) fun h => h₂ h.2.1
  · have := (inDim_false hR .protocol p).mp (by simpa using h₃)
    rw [mem_protocol_codes] at this
    simp [not_or.mp this]
  · subst h₄
    simp [streamProtocol]
  · have := (inDim_false hR .codec c).mp (by simpa using h₅)
    simp [this]
  · have hp : streamProtocol p :=
      (mem_protocol_codes.mp ((inDim_iff hR .protocol p).mp (by simpa using h₃))).resolve_right h₄
    have hc := (inDim_iff hR .codec c).mp (by simpa using h₅)
    obtain ⟨rd, hrd⟩ := rateDim_isSome.mpr hp
    obtain ⟨fd, hfd⟩ := fmtDim_isSome.mpr hp
    simp only [Option.or_eq_none_iff, hrd, hfd, checkSelected, not_not.mp h₁, not_not.mp h₂, hp, hc, h₆]
    simp [inDim_iff hR]
  · have hp : streamProtocol p :=
      (mem_protocol_codes.mp ((inDim_iff hR .protocol p).mp (by simpa using h₃))).resolve_right h₄
    have hc := (inDim_iff hR .codec c).mp (by simpa using h₅)
    simp [not_not.mp h₁, not_not.mp h₂, hp, hc, h₆]

/-- A first failing step of decode validation (R158) is the answer of `checkDecode`. -/
theorem checkDecode_some {R : Registries} (hR : registriesLegal R) {strict : Bool} {data : List Byte} {st : Status}
    {cause : BitVec 8} (h : decodeFails strict data st cause) : checkDecode R strict data = some ⟨st, cause⟩ := by
  unfold decodeFails at h
  unfold checkDecode
  simp only [Config.hdrLen, Config.magic, sliceOf, List.drop_zero, Nat.sub_zero] at h ⊢
  generalize byteAt data 4 &&& 0xE0 = p at h ⊢
  generalize byteAt data 7 &&& 0xF0 = c at h ⊢
  rcases h with ⟨h₁, rfl, rfl⟩ | ⟨h₁, h⟩
  · simp [h₁, malformedHeader]
  rw [if_neg (not_not.mpr h₁)]
  rcases h with ⟨h₂, rfl, rfl⟩ | ⟨h₂, h⟩
  · rw [if_pos h₂]; rfl
  rw [if_neg (not_not.mpr h₂)]
  have pass {q : Byte} (hq : streamProtocol q) : inDim R .protocol q = true ∧ q ≠ 0x60 :=
    ⟨(inDim_iff hR _ _).mpr (mem_protocol_codes.mpr (.inl hq)), streamProtocol_ne hq⟩
  rcases h with ⟨h₃, rfl, rfl⟩ | ⟨rfl, rfl, rfl⟩ | ⟨hp, h₅, rfl, rfl⟩ | ⟨rfl, hc, rd, fd, hrd, hfd, h⟩
  · simp [(inDim_false hR _ _).mpr h₃, malformedHeader]
  · rw [(inDim_iff hR .protocol 0x60).mpr (by decide)]; rfl
  · rw [(pass hp).1, if_neg (by simp), if_neg (pass hp).2, (inDim_false hR _ _).mpr h₅]; rfl
  have hp := rateDim_isSome.mp ⟨rd, hrd⟩
  rw [(pass hp).1, if_neg (by simp), if_neg (pass hp).2, (inDim_iff hR _ _).mpr hc, if_neg (by simp), if_pos rfl, hrd, hfd]
  rcases h with ⟨h₆, rfl, rfl⟩ | ⟨h₆, h₇, rfl, rfl⟩
  · rw [checkSelected_not_mem hR h₆]; rfl
  · rw [checkSelected_mem hR h₆, checkSelected_not_mem hR h₇]; rfl

/-- Every input either decodes or fails at a first step (R163). -/
theorem decodable_or_fails (strict : Bool) (data : List Byte) :
    decodable strict data ∨ ∃ st cause, decodeFails strict data st cause := by
  unfold decodable decodeFails
  by_cases h₁ : data.length = 28
  swap
  · exact .inr ⟨_, _, .inl ⟨h₁, rfl, rfl⟩⟩
  by_cases h₂ : data.take 4 = [0x56, 0x42, 0x41, 0x4E]
  swap
  · exact .inr ⟨_, _, .inr ⟨h₁, .inl ⟨h₂, rfl, rfl⟩⟩⟩
  generalize byteAt data 4 &&& 0xE0 = p
  generalize byteAt data 7 &&& 0xF0 = c
  by_cases h₃ : p ∈ Config.codes .protocol
  swap
  · exact .inr ⟨_, _, .inr ⟨h₁, .inr ⟨h₂, .inl ⟨h₃, rfl, rfl⟩⟩⟩⟩
  rcases mem_protocol_codes.mp h₃ with hp | h₄
  swap
  · exact .inr ⟨_, _, .inr ⟨h₁, .inr ⟨h₂, .inr (.inl ⟨h₄, rfl, rfl⟩)⟩⟩⟩
  by_cases hc : c ∈ Config.codes .codec
  swap
  · exact .inr ⟨_, _, .inr ⟨h₁, .inr ⟨h₂, .inr (.inr (.inl ⟨hp, hc, rfl, rfl⟩))⟩⟩⟩
  obtain ⟨rd, hrd⟩ := rateDim_isSome.mpr hp
  obtain ⟨fd, hfd⟩ := fmtDim_isSome.mpr hp
  cases strict
  · exact .inl ⟨h₁, h₂, hp, hc, by simp⟩
  by_cases h₆ : byteAt data 4 &&& 0x1F ∈ Config.codes rd
  swap
  · exact .inr ⟨_, _, .inr ⟨h₁, .inr ⟨h₂, .inr (.inr (.inr ⟨rfl, hc, rd, fd, hrd, hfd, .inl ⟨h₆, rfl, rfl⟩⟩))⟩⟩⟩
  by_cases h₇ : byteAt data 7 &&& 0x0F ∈ Config.codes fd
  swap
  · exact .inr ⟨_, _, .inr ⟨h₁, .inr ⟨h₂, .inr (.inr (.inr ⟨rfl, hc, rd, fd, hrd, hfd, .inr ⟨h₆, h₇, rfl, rfl⟩⟩))⟩⟩⟩
  exact .inl ⟨h₁, h₂, hp, hc, fun _ => ⟨rd, fd, hrd, hfd, h₆, h₇⟩⟩

/-- What `checkProtocol` fails with (R301). -/
theorem checkProtocol_status {R : Registries} {p : Byte} {e : Failure} (h : checkProtocol R p = some e) :
    (e.status = .unknownCode ∨ e.status = .unsupportedProtocol) ∧ e.cause = 0 := by
  unfold checkProtocol at h
  split_ifs at h <;> cases h
  · exact ⟨.inl rfl, rfl⟩
  · exact ⟨.inr rfl, rfl⟩

/-- What `checkSelected` fails with (R301). -/
theorem checkSelected_status {R : Registries} {d : Option Dimension} {c : Byte} {e : Failure}
    (h : checkSelected R d c = some e) :
    (e.status = .unknownCode ∨ e.status = .unsupportedProtocol) ∧ e.cause ∈ causesOf e.status := by
  cases d with
  | none => cases h; exact ⟨.inr rfl, by decide⟩
  | some d =>
    unfold checkSelected at h
    simp only at h
    split_ifs at h
    cases h
    exact ⟨.inl rfl, by cases d <;> decide⟩

/-- What `checkEncode` fails with (R301, R302). -/
theorem checkEncode_status {R : Registries} {p rate : Byte} {sm ch : BitVec 32} {f c : Byte} {e : Failure}
    (h : checkEncode R p rate sm ch f c = some e) :
    (e.status = .outOfRange ∨ e.status = .unknownCode ∨ e.status = .unsupportedProtocol) ∧
      e.cause ∈ causesOf e.status := by
  unfold checkEncode at h
  split_ifs at h with h₁ h₂ h₃
  · cases h; exact ⟨.inl rfl, by decide⟩
  · cases h; exact ⟨.inl rfl, by decide⟩
  all_goals
    simp only [Option.or_eq_some_iff] at h
    rcases h with h | ⟨-, h | ⟨-, h | ⟨-, h⟩⟩⟩
    · obtain ⟨hs, hc⟩ := checkProtocol_status h
      exact ⟨.inr hs, by rw [hc]; rcases hs with hs | hs <;> rw [hs] <;> decide⟩
    · exact ⟨.inr (checkSelected_status h).1, (checkSelected_status h).2⟩
    · exact ⟨.inr (checkSelected_status h).1, (checkSelected_status h).2⟩
    · cases h
      try exact ⟨.inr (.inl rfl), by decide⟩

/-- What decode validation fails with (R301, R302). -/
theorem checkDecode_status {R : Registries} {strict : Bool} {data : List Byte} {e : Failure}
    (h : checkDecode R strict data = some e) :
    (e.status = .malformedHeader ∨ e.status = .unsupportedProtocol ∨ e.status = .unknownCode) ∧
      e.cause ∈ causesOf e.status := by
  unfold checkDecode at h
  simp only at h
  split_ifs at h
  · cases h; exact ⟨.inl rfl, by decide⟩
  · cases h; exact ⟨.inl rfl, by decide⟩
  · cases h; exact ⟨.inl rfl, by decide⟩
  · cases h; exact ⟨.inr (.inl rfl), by decide⟩
  · cases h; exact ⟨.inl rfl, by decide⟩
  · rw [Option.or_eq_some_iff] at h
    rcases h with h | ⟨-, h⟩ <;>
      exact ⟨.inr ((checkSelected_status h).1.symm), (checkSelected_status h).2⟩

/-- What decoding a packet fails with (R301, R302). -/
theorem decodePacket_status {R : Registries} {strict : Bool} {d : Datagram} {e : Failure}
    (h : decodePacket R strict d = .error e) :
    (e.status = .malformedHeader ∨ e.status = .unsupportedProtocol ∨ e.status = .unknownCode ∨
      e.status = .payloadTooLarge) ∧ e.cause ∈ causesOf e.status := by
  unfold decodePacket decodeHeader at h
  cases hc : checkDecode R strict (d.take Config.hdrLen) with
  | some f =>
    rw [hc] at h
    cases h
    obtain ⟨hs, hf⟩ := checkDecode_status hc
    exact ⟨by tauto, hf⟩
  | none =>
    rw [hc] at h
    simp only at h
    split_ifs at h
    cases h
    exact ⟨by decide, by decide⟩

/-- A code of a rate dimension fits in five bits (R23). -/
theorem rate_code_lt {d : Dimension} {p c : Byte} (h : rateDim p = some d) (hc : c ∈ Config.codes d) :
    c.toNat < 32 := by
  have hd : d = .sampleRate ∨ d = .bitsPerSecond := by
    unfold rateDim at h
    split_ifs at h <;> simp_all
  rcases hd with rfl | rfl <;> revert c <;> decide

/-- A code of a format dimension fits in four bits (R23). -/
theorem format_code_lt {d : Dimension} {p c : Byte} (h : fmtDim p = some d) (hc : c ∈ Config.codes d) :
    c.toNat < 16 := by
  have hd : d = .audioFormat ∨ d = .format ∨ d = .commandFormat := by
    unfold fmtDim at h
    split_ifs at h <;> simp_all
  rcases hd with rfl | rfl | rfl <;> revert c <;> decide

/-- A five-bit code comes back from its field. -/
theorem setWidth_five {c : Byte} (h : c.toNat < 32) : (c.setWidth 5).setWidth 8 = c := by
  revert c; decide

/-- A four-bit code comes back from its field. -/
theorem setWidth_four {c : Byte} (h : c.toNat < 16) : (c.setWidth 4).setWidth 8 = c := by
  revert c; decide

/-- Byte 4 of a header joins a stream protocol and a five-bit rate without loss (R81). -/
theorem join_protocol_rate {p r : Byte} (hp : streamProtocol p) (hr : r.toNat < 32) :
    (p ||| r).toNat = p.toNat + r.toNat ∧ (p ||| r).extractLsb' 5 3 = p.extractLsb' 5 3 ∧
    (p ||| r).extractLsb' 0 5 = r.setWidth 5 ∧ (p ||| r) &&& 0xE0 = p ∧ (p ||| r).setWidth 5 = r.setWidth 5 ∧
    (p ||| r) &&& 0x1F = r := by
  rcases hp with rfl | rfl | rfl <;> revert hr <;> revert r <;> decide

/-- Byte 7 of a header joins a codec and a four-bit format without loss (R82). -/
theorem join_codec_format {c f : Byte} (hc : c ∈ Config.codes .codec) (hf : f.toNat < 16) :
    (c ||| f).toNat = c.toNat + f.toNat ∧ (c ||| f).extractLsb' 4 4 = c.extractLsb' 4 4 ∧
    (c ||| f).extractLsb' 0 4 = f.setWidth 4 ∧ (c ||| f) &&& 0xF0 = c ∧ (c ||| f).setWidth 4 = f.setWidth 4 ∧
    (c ||| f) &&& 0x0F = f := by
  have h : c = 0x00 ∨ c = 0x10 ∨ c = 0x20 ∨ c = 0xF0 := by simpa [Config.codes] using hc
  rcases h with rfl | rfl | rfl | rfl <;> revert hf <;> revert f <;> decide

/-- A plain ASCII name of at most 16 characters survives its encoding (R150, R156). -/
theorem encodeName_plain {nm : List CodePoint} (hl : nm.length ≤ 16)
    (hc : ∀ c ∈ nm, 1 ≤ c.toNat ∧ c.toNat ≤ 0x7F) :
    (encodeName nm).takeWhile (· != 0) = nm.map (·.setWidth 8) ∧
      (nm.map (·.setWidth 8)).map asciiDecode = nm := by
  have hn : ∀ c ∈ nm, nameByte c = c.setWidth 8 := by
    intro c h
    have := hc c h
    simp [nameByte, BitVec.lt_def]
    omega
  have hb : ∀ c ∈ nm, (c.setWidth 8 : Byte) ≠ 0 ∧ asciiDecode (c.setWidth 8) = c := by
    intro c h
    have := hc c h
    refine ⟨fun h => ?_, ?_⟩
    · have := congrArg BitVec.toNat h
      simp at this
      omega
    · rw [asciiDecode, if_pos]
      · apply BitVec.eq_of_toNat_eq
        simp
        omega
      · rw [BitVec.lt_def]
        simp
        omega
  constructor
  · rw [encodeName]
    simp only [Config.nameLen]
    rw [List.take_of_length_le hl, List.map_congr_left hn, List.takeWhile_append_of_pos]
    · simp [zeroBytes]
    · simp only [List.mem_map, bne_iff_ne, forall_exists_index, and_imp, forall_apply_eq_imp_iff₂]
      exact fun c h => (hb c h).1
  · rw [List.map_map]
    conv_rhs => rw [← List.map_id nm]
    exact List.map_congr_left fun c h => (hb c h).2

end Sys2Proof.Machine
end

