-- ==== Sys2Proof/Laws/PerInstr.lean ====
section
/-! SUPPORT. The per-command family `CommandWord`: what the encoder puts into the command word of each constructor. -/

namespace Sys2Proof.Laws.CommandWord

/-- The word the encoder gives a command: `op` in bits 7:0, `inst` in bits 15:8, so that the table's mask 0x00FF finds
the opcode (`30_encoding.md` R84). -/
def Statement (i : Instr) : Prop :=
  opField (encode i).1 = opcodeByte i.opcode ∧ instField (encode i).1 = i.inst ∧
  (encode i).1 &&& 0x00FF = (opcodeByte i.opcode).setWidth 16

/-- A command word as a number: `inst` counts 256s. -/
theorem commandWord_toNat (k op : Byte) : (commandWord k op).toNat = 256 * k.toNat + op.toNat := by
  rw [commandWord, BitVec.toNat_append, Nat.shiftLeft_eq, Nat.mul_comm, ← Nat.two_pow_add_eq_or_of_lt op.isLt]

/-- The two fields of a command word read back as they were put in. -/
theorem fields (k op : Byte) :
    opField (commandWord k op) = op ∧ instField (commandWord k op) = k ∧
    commandWord k op &&& 0x00FF = op.setWidth 16 := by
  have hop := op.isLt
  have hk := k.isLt
  refine ⟨?_, ?_, ?_⟩ <;> apply BitVec.eq_of_toNat_eq
  · rw [opField, BitVec.extractLsb'_toNat, commandWord_toNat]
    omega
  · rw [instField, BitVec.extractLsb'_toNat, commandWord_toNat]
    omega
  · have h : ((0x00FF : BitVec 16)).toNat = 2 ^ 8 - 1 := by decide
    rw [BitVec.toNat_and, h, Nat.and_two_pow_sub_one_eq_mod, commandWord_toNat, BitVec.toNat_setWidth]
    omega

theorem regLookup (k : Byte) (dim : BitVec 3) (code : Byte) : Statement (.regLookup k dim code) := fields _ _
theorem regDims (k : Byte) (p : Byte) : Statement (.regDims k p) := fields _ _
theorem hdrEncode (k : Byte) (r : HeaderRecord) : Statement (.hdrEncode k r) := fields _ _
theorem hdrDecode (k : Byte) (d : List Byte) : Statement (.hdrDecode k d) := fields _ _
theorem pktCreate (k : Byte) (h : List Byte) (p : List Byte) : Statement (.pktCreate k h p) := fields _ _
theorem pktDecode (k : Byte) (d : List Byte) : Statement (.pktDecode k d) := fields _ _
theorem frOpen (k : Byte) (r : StreamRecord) : Statement (.frOpen k r) := fields _ _
theorem frWrite (k : Byte) (d : List Byte) : Statement (.frWrite k d) := fields _ _
theorem frFlush (k : Byte) : Statement (.frFlush k) := fields _ _
theorem frSendData (k : Byte) (v : SendValue) : Statement (.frSendData k v) := fields _ _
theorem frClose (k : Byte) : Statement (.frClose k) := fields _ _
theorem dfOpen (k : Byte) (p : Byte) : Statement (.dfOpen k p) := fields _ _
theorem dfReadPacket (k : Byte) : Statement (.dfReadPacket k) := fields _ _
theorem dfReadData (k : Byte) : Statement (.dfReadData k) := fields _ _
theorem dfRead (k : Byte) (n : BitVec 32) : Statement (.dfRead k n) := fields _ _
theorem dfClose (k : Byte) : Statement (.dfClose k) := fields _ _

end Sys2Proof.Laws.CommandWord
end

