-- ==== Sys2Proof/Laws/Decode.lean ====
section
/-! SUPPORT. Lemmas of the decoder: opcode bytes and names, what a built command is, and the command-word check on a
decoded command. -/

namespace Sys2Proof

/-- Every opcode byte of the map selects its own command. -/
@[simp] theorem opcodeOf_opcodeByte (o : Opcode) : opcodeOf (opcodeByte o) = some o := by
  cases o <;> decide

/-- A byte that selects a command is that command's opcode byte. -/
theorem opcodeOf_some {b : Byte} {o : Opcode} (h : opcodeOf b = some o) : b = opcodeByte o := by
  exact (eq_of_beq (List.find?_some (p := fun o => opcodeByte o == b) h)).symm

/-- A built command has the opcode, the instance and the record it is built from. -/
theorem buildCommand_some {o : Opcode} {k : Byte} {r : OperandRecord} {i : Instr} (h : buildCommand o k r = some i) :
    i.opcode = o ∧ i.inst = k ∧ i.record = r := by
  cases o <;> cases r <;> cases h <;> exact ⟨rfl, rfl, rfl⟩

/-- A command is built from its own opcode, instance and record. -/
theorem buildCommand_self (i : Instr) : buildCommand i.opcode i.inst i.record = some i := by
  cases i <;> rfl

/-- A command word is made of its two fields. -/
theorem commandWord_fields (w : BitVec 16) : commandWord (instField w) (opField w) = w := by
  apply BitVec.eq_of_toNat_eq
  have hw := w.isLt
  rw [Laws.CommandWord.commandWord_toNat, instField, opField, BitVec.extractLsb'_toNat, BitVec.extractLsb'_toNat,
    Nat.shiftRight_eq_div_pow, Nat.shiftRight_eq_div_pow]
  omega

/-- What a decoded command has of its word and its record. -/
theorem decode_ok {w : BitVec 16} {r : OperandRecord} {i : Instr} (h : decode w r = .ok i) :
    opField w = opcodeByte i.opcode ∧ instField w = i.inst ∧ r = i.record := by
  unfold decode at h
  split at h
  · cases h
  · next o ho =>
    split at h
    · cases h
    · next j hj =>
      cases h
      obtain ⟨rfl, hk, hr⟩ := buildCommand_some hj
      exact ⟨opcodeOf_some ho, hk.symm, hr.symm⟩

end Sys2Proof

namespace Sys2Proof.Machine

/-- The command-word check of R308 on the word of a command `i`. -/
theorem wordCheck_encode (i : Instr) (s : State) : wordCheck s (commandWord i.inst (opcodeByte i.opcode)) =
    if isFramerOp (opcodeByte i.opcode) = true ∧ s.frs.length ≤ i.inst.toNat then some 2
    else if isDeframerOp (opcodeByte i.opcode) = true ∧ s.dfs.length ≤ i.inst.toNat then some 2
    else none := by
  have h := Laws.CommandWord.fields i.inst (opcodeByte i.opcode)
  simp [wordCheck, h.1, h.2.1]

end Sys2Proof.Machine
end

