-- ==== Sys2Proof/Laws/State.lean ====
section
/-! SUPPORT. What each named update of the state does to each field, so that no later proof unfolds one. -/

namespace Sys2Proof.Machine

@[simp] theorem State.report_params (s : State) (r : Result) : (s.report r).params = s.params := rfl
@[simp] theorem State.report_registries (s : State) (r : Result) : (s.report r).registries = s.registries := rfl
@[simp] theorem State.report_frs (s : State) (r : Result) : (s.report r).frs = s.frs := rfl
@[simp] theorem State.report_dfs (s : State) (r : Result) : (s.report r).dfs = s.dfs := rfl
@[simp] theorem State.report_events (s : State) (r : Result) : (s.report r).events = s.events := rfl
@[simp] theorem State.report_results (s : State) (r : Result) : (s.report r).results = s.results ++ [r] := rfl

@[simp] theorem State.setFramer_params (s : State) (k : Nat) (f : Framer) : (s.setFramer k f).params = s.params := rfl
@[simp] theorem State.setFramer_registries (s : State) (k : Nat) (f : Framer) : (s.setFramer k f).registries = s.registries := rfl
@[simp] theorem State.setFramer_frs (s : State) (k : Nat) (f : Framer) : (s.setFramer k f).frs = s.frs.set k f := rfl
@[simp] theorem State.setFramer_dfs (s : State) (k : Nat) (f : Framer) : (s.setFramer k f).dfs = s.dfs := rfl
@[simp] theorem State.setFramer_events (s : State) (k : Nat) (f : Framer) : (s.setFramer k f).events = s.events := rfl
@[simp] theorem State.setFramer_results (s : State) (k : Nat) (f : Framer) : (s.setFramer k f).results = s.results := rfl

@[simp] theorem State.setDeframer_params (s : State) (k : Nat) (d : Deframer) : (s.setDeframer k d).params = s.params := rfl
@[simp] theorem State.setDeframer_registries (s : State) (k : Nat) (d : Deframer) : (s.setDeframer k d).registries = s.registries := rfl
@[simp] theorem State.setDeframer_frs (s : State) (k : Nat) (d : Deframer) : (s.setDeframer k d).frs = s.frs := rfl
@[simp] theorem State.setDeframer_dfs (s : State) (k : Nat) (d : Deframer) : (s.setDeframer k d).dfs = s.dfs.set k d := rfl
@[simp] theorem State.setDeframer_events (s : State) (k : Nat) (d : Deframer) : (s.setDeframer k d).events = s.events := rfl
@[simp] theorem State.setDeframer_results (s : State) (k : Nat) (d : Deframer) : (s.setDeframer k d).results = s.results := rfl

@[simp] theorem Framer.report_isOpen (f : Framer) (r : Result) : (f.report r).isOpen = f.isOpen := rfl
@[simp] theorem Framer.report_cfg (f : Framer) (r : Result) : (f.report r).cfg = f.cfg := rfl
@[simp] theorem Framer.report_fc (f : Framer) (r : Result) : (f.report r).fc = f.fc := rfl
@[simp] theorem Framer.report_buf (f : Framer) (r : Result) : (f.report r).buf = f.buf := rfl
@[simp] theorem Framer.report_wait (f : Framer) (r : Result) : (f.report r).wait = f.wait := rfl
@[simp] theorem Framer.report_tx (f : Framer) (r : Result) : (f.report r).tx = f.tx := rfl
@[simp] theorem Framer.report_results (f : Framer) (r : Result) : (f.report r).results = f.results ++ [r] := rfl

@[simp] theorem Deframer.report_isOpen (d : Deframer) (r : Result) : (d.report r).isOpen = d.isOpen := rfl
@[simp] theorem Deframer.report_expected (d : Deframer) (r : Result) : (d.report r).expected = d.expected := rfl
@[simp] theorem Deframer.report_rx (d : Deframer) (r : Result) : (d.report r).rx = d.rx := rfl
@[simp] theorem Deframer.report_cursor (d : Deframer) (r : Result) : (d.report r).cursor = d.cursor := rfl
@[simp] theorem Deframer.report_wait (d : Deframer) (r : Result) : (d.report r).wait = d.wait := rfl
@[simp] theorem Deframer.report_queue (d : Deframer) (r : Result) : (d.report r).queue = d.queue := rfl
@[simp] theorem Deframer.report_results (d : Deframer) (r : Result) : (d.report r).results = d.results ++ [r] := rfl
@[simp] theorem Deframer.report_closings (d : Deframer) (r : Result) : (d.report r).closings = d.closings := rfl

/-- Reading back the framer just written. -/
theorem State.setFramer_get (s : State) {k : Nat} {f g : Framer} (h : s.frs[k]? = some g) :
    (s.setFramer k f).frs[k]? = some f := by
  obtain ⟨hk, -⟩ := List.getElem?_eq_some_iff.mp h
  simp [hk]

/-- Another framer reads as before. -/
theorem State.setFramer_get_ne (s : State) {j k : Nat} {f : Framer} (h : j ≠ k) :
    (s.setFramer k f).frs[j]? = s.frs[j]? := by
  simp [h.symm]

/-- Reading back the deframer just written. -/
theorem State.setDeframer_get (s : State) {k : Nat} {d g : Deframer} (h : s.dfs[k]? = some g) :
    (s.setDeframer k d).dfs[k]? = some d := by
  obtain ⟨hk, -⟩ := List.getElem?_eq_some_iff.mp h
  simp [hk]

/-- Another deframer reads as before. -/
theorem State.setDeframer_get_ne (s : State) {j k : Nat} {d : Deframer} (h : j ≠ k) :
    (s.setDeframer k d).dfs[j]? = s.dfs[j]? := by
  simp [h.symm]

/-- N_FR stays when a framer is written. -/
theorem State.setFramer_length (s : State) (k : Nat) (f : Framer) :
    (s.setFramer k f).frs.length = s.frs.length := by simp

/-- N_DF stays when a deframer is written. -/
theorem State.setDeframer_length (s : State) (k : Nat) (d : Deframer) :
    (s.setDeframer k d).dfs.length = s.dfs.length := by simp

end Sys2Proof.Machine
end

