-- ==== Sys2Proof/Laws/Deframer.lean ====
section
/-! SUPPORT. Lemmas of the input deframer: what a datagram decodes to, and everything a read that has reached its
`receive`, an arriving datagram and a close can do, each once. -/

namespace Sys2Proof.Machine

open Sys2Proof.Safety

@[simp] theorem endRead_isOpen (r : Result) (d : Deframer) : (endRead r d).isOpen = d.isOpen := rfl
@[simp] theorem endRead_expected (r : Result) (d : Deframer) : (endRead r d).expected = d.expected := rfl
@[simp] theorem endRead_wait (r : Result) (d : Deframer) : (endRead r d).wait = .idle := rfl
@[simp] theorem endRead_queue (r : Result) (d : Deframer) : (endRead r d).queue = d.queue := rfl
@[simp] theorem endRead_results (r : Result) (d : Deframer) : (endRead r d).results = d.results ++ [r] := rfl
@[simp] theorem endRead_closings (r : Result) (d : Deframer) : (endRead r d).closings = d.closings := rfl

/-- The end of a read on an instance that is still open leaves the view as it is. -/
theorem endRead_open {d : Deframer} (h : d.isOpen = true) (r : Result) :
    endRead r d = { d with wait := .idle, results := d.results ++ [r] } := by
  simp [endRead, h]

/-- The end of a read that a DF_CLOSE has overtaken empties the view (R257). -/
theorem endRead_closed {d : Deframer} (h : d.isOpen = false) (r : Result) :
    endRead r d = { d with wait := .idle, rx := [], cursor := 0, results := d.results ++ [r] } := by
  simp [endRead, h]

/-- A datagram decodes to a payload. -/
def decodesTo (R : Registries) (dg : Datagram) (p : List Byte) : Prop :=
  ∃ h, decodePacket R Config.strictDecode dg = .ok (h, p)

/-- A datagram decodes exactly when it is a good one (R192). -/
theorem decodesTo_iff {R : Registries} (hR : registriesLegal R) {dg : Datagram} {p : List Byte} :
    decodesTo R dg p ↔ goodDatagram dg p := by
  have hp : sliceOf dg Config.hdrLen dg.length = dg.drop 28 := by
    rw [sliceOf]
    exact List.take_of_length_le (Nat.le_of_eq List.length_drop)
  unfold decodesTo goodDatagram decodePacket decodeHeader
  rw [hp, show Config.strictDecode = true from rfl, show Config.hdrLen = 28 from rfl,
    show Config.maxDatagram = 1436 from rfl]
  cases hc : checkDecode R true (dg.take 28) with
  | some e =>
    have : ¬decodable true (dg.take 28) := fun h => by simp [(checkDecode_none hR).mpr h] at hc
    simp [this]
  | none =>
    have : decodable true (dg.take 28) := (checkDecode_none hR).mp hc
    by_cases hl : dg.length > 1436
    · simp only [hl, if_true]
      simp only [this, Nat.not_le.mpr hl, false_and, and_false, reduceCtorEq, exists_false]
    · simp only [hl, if_false]
      simp [this, Nat.not_lt.mp hl, eq_comm]

/-- A decoded header is of a stream protocol, and its payload within the bound. -/
theorem decodesTo_length {R : Registries} (hR : registriesLegal R) {dg : Datagram} {p : List Byte}
    (h : decodesTo R dg p) : p.length ≤ 1408 := by
  obtain ⟨-, hl, rfl⟩ := (decodesTo_iff hR).mp h
  simp
  omega

/-- A DF_READ is not done exactly when it still reads (R254, R255). -/
theorem readDone_false_iff {span : ReadSpan} {n : Nat} {b : List Byte} :
    readDone span n b = false ↔ stillReads span n b := by
  cases span <;> simp [readDone, stillReads, Nat.pos_iff_ne_zero]

/-- A DF_READ is done exactly when it reads no more (R254, R255). -/
theorem readDone_true_iff {span : ReadSpan} {n : Nat} {b : List Byte} :
    readDone span n b = true ↔ ¬stillReads span n b := by
  rw [← readDone_false_iff, Bool.not_eq_false]

/-- A DF_READ that is not done has taken the whole payload (R254, R255). -/
theorem take_all_of_not_done {span : ReadSpan} {n : Nat} {out p : List Byte}
    (h : readDone span n (out ++ p.take (min (n - out.length) p.length)) = false) :
    p.take (min (n - out.length) p.length) = p := by
  apply List.take_of_length_le
  cases span with
  | fill =>
    simp [readDone] at h
    omega
  | part =>
    simp only [readDone, Bool.or_eq_false_iff, decide_eq_false_iff_not, Bool.not_eq_false', List.isEmpty_iff,
      List.append_eq_nil_iff] at h
    obtain ⟨hn, rfl, hp⟩ := h
    have := congrArg List.length hp
    simp at this
    simp
    rcases this with h | rfl
    · omega
    · simp

/-- Everything a DF_READ from an exhausted view on can do (R254, R255, R260). It pulls datagrams that decode and whose
payloads do not suffice; then the queue is empty and it waits, or the next datagram does not decode and it fails, or
the next datagram suffices and it returns. -/
theorem pullRead_cases (R : Registries) (span : ReadSpan) (n : BitVec 32) :
    ∀ (out : List Byte) (q : List Datagram) (d : Deframer), ∃ pulled payloads,
      List.Forall₂ (decodesTo R) pulled payloads ∧
      (pulled ≠ [] → readDone span n.toNat (out ++ payloads.flatten) = false) ∧
      ((q = pulled ∧ pullRead R span n out q d = { d with
          rx := [], cursor := 0, queue := [], wait := .rxPending (.read n (out ++ payloads.flatten)) }) ∨
      (∃ bad e q', q = pulled ++ bad :: q' ∧ decodePacket R Config.strictDecode bad = .error e ∧
        pullRead R span n out q d =
          endRead (raiseResult e .none) { d with rx := [], cursor := 0, queue := q' }) ∨
      (∃ last p q' m, q = pulled ++ last :: q' ∧ decodesTo R last p ∧
        m = min (n.toNat - (out ++ payloads.flatten).length) p.length ∧
        readDone span n.toNat (out ++ payloads.flatten ++ p.take m) = true ∧
        pullRead R span n out q d = endRead (okResult (.data (out ++ payloads.flatten ++ p.take m)))
          { d with rx := p, cursor := m, queue := q' })) := by
  intro out q
  induction q generalizing out with
  | nil => intro d; exact ⟨[], [], .nil, by simp, .inl ⟨rfl, by simp [pullRead]⟩⟩
  | cons dg q ih =>
    intro d
    rw [pullRead]
    cases hdec : decodePacket R Config.strictDecode dg with
    | error e => exact ⟨[], [], .nil, by simp, .inr (.inl ⟨dg, e, q, rfl, hdec, rfl⟩)⟩
    | ok hp =>
      obtain ⟨h, p⟩ := hp
      have hto : decodesTo R dg p := ⟨h, hdec⟩
      simp only
      split
      · next hdone =>
        exact ⟨[], [], .nil, by simp, .inr (.inr ⟨dg, p, q, min (n.toNat - out.length) p.length, rfl, hto, by simp,
          by simpa using hdone, by simp⟩)⟩
      · next hdone =>
        have hdone := Bool.eq_false_iff.mpr hdone
        have hall := take_all_of_not_done hdone
        rw [hall] at hdone ⊢
        obtain ⟨pulled, payloads, hf, hnd, hcases⟩ := ih (out ++ p) d
        simp only [List.append_assoc] at hnd hcases
        refine ⟨dg :: pulled, p :: payloads, .cons hto hf, fun _ => ?_, ?_⟩
        · by_cases hnil : pulled = []
          · subst hnil
            cases hf
            simpa using hdone
          · simpa using hnd hnil
        · rcases hcases with ⟨rfl, h₁⟩ | ⟨bad, e, q', rfl, h₁, h₂⟩ | ⟨last, p', q', m, rfl, h₁, h₂, h₃, h₄⟩
          · exact .inl ⟨rfl, by simpa using h₁⟩
          · exact .inr (.inl ⟨bad, e, q', rfl, h₁, h₂⟩)
          · exact .inr (.inr ⟨last, p', q', m, rfl, h₁, by simpa using h₂, by simpa using h₃, by simpa using h₄⟩)

/-- A DF_READ that is not done with some bytes was not done with the first of them. -/
theorem readDone_false_left {span : ReadSpan} {n : Nat} {a b : List Byte} (h : readDone span n (a ++ b) = false) :
    readDone span n a = false := by
  cases span with
  | fill =>
    simp [readDone] at h ⊢
    omega
  | part =>
    simp only [readDone, Bool.or_eq_false_iff, Bool.not_eq_false', List.isEmpty_iff, List.append_eq_nil_iff] at h ⊢
    exact ⟨h.1, h.2.1⟩

/-- A DF_READ that is not done with a payload added takes the whole of it. -/
theorem take_all_of_short {span : ReadSpan} {n : Nat} {out p : List Byte} (h : readDone span n (out ++ p) = false) :
    p.take (min (n - out.length) p.length) = p := by
  apply List.take_of_length_le
  cases span with
  | fill =>
    simp [readDone] at h
    omega
  | part =>
    simp only [readDone, Bool.or_eq_false_iff, Bool.not_eq_false', List.isEmpty_iff, List.append_eq_nil_iff] at h
    simp [h.2.2]

/-- A DF_READ passes over datagrams that decode and do not suffice, and keeps their payloads (R254, R255). -/
theorem pullRead_skip {R : Registries} {span : ReadSpan} {n : BitVec 32} (q : List Datagram) (d : Deframer) :
    ∀ {dgs : List Datagram} {payloads : List (List Byte)} (out : List Byte),
      List.Forall₂ (decodesTo R) dgs payloads → readDone span n.toNat (out ++ payloads.flatten) = false →
      pullRead R span n out (dgs ++ q) d = pullRead R span n (out ++ payloads.flatten) q d := by
  intro dgs
  induction dgs with
  | nil => intro payloads out h _; cases h; simp
  | cons dg dgs ih =>
    intro payloads out h hn
    obtain _ | ⟨⟨hd, hdec⟩, hrest⟩ := h
    rename_i p ps
    rw [List.flatten_cons, ← List.append_assoc] at hn ⊢
    have h₁ := readDone_false_left hn
    have h₂ := take_all_of_short h₁
    rw [List.cons_append, pullRead, hdec]
    simp only [h₂, h₁, Bool.false_eq_true, if_false]
    exact ih (out ++ p) hrest hn

/-- A DF_READ ends at the datagram that suffices (R254, R255). -/
theorem pullRead_last {R : Registries} {span : ReadSpan} {n : BitVec 32} {out p : List Byte} {dg : Datagram}
    (q : List Datagram) (d : Deframer) (hp : decodesTo R dg p) (h₁ : readDone span n.toNat out = false)
    (h₂ : readDone span n.toNat (out ++ p) = true) :
    pullRead R span n out (dg :: q) d = endRead (okResult (.data ((out ++ p).take n.toNat)))
      { d with rx := p, cursor := min (n.toNat - out.length) p.length, queue := q } := by
  obtain ⟨h, hdec⟩ := hp
  have hlen : out.length ≤ n.toNat := by
    cases span with
    | fill =>
      simp [readDone] at h₁
      omega
    | part =>
      simp only [readDone, Bool.or_eq_false_iff, Bool.not_eq_false', List.isEmpty_iff] at h₁
      simp [h₁.2]
  have htake : (out ++ p).take n.toNat = out ++ p.take (min (n.toNat - out.length) p.length) := by
    rw [List.take_append, List.take_of_length_le hlen, ← List.take_eq_take_min]
  rw [pullRead, hdec, htake]
  simp only
  rw [if_pos]
  by_contra hnd
  rw [take_all_of_not_done (Bool.eq_false_iff.mpr hnd), h₂] at hnd
  exact hnd rfl

/-- A DF_READ ends at a datagram that does not decode. -/
theorem pullRead_bad {R : Registries} {span : ReadSpan} {n : BitVec 32} {out : List Byte} {dg : Datagram} {e : Failure}
    (q : List Datagram) (d : Deframer) (h : decodePacket R Config.strictDecode dg = .error e) :
    pullRead R span n out (dg :: q) d =
      endRead (raiseResult e .none) { d with rx := [], cursor := 0, queue := q } := by
  rw [pullRead, h]

/-- What a datagram read and a byte read that waits hold: nothing but the queue decides whether they go on. -/
theorem runReceive_frame (p : Params) (R : Registries) (c : DfCont) (d : Deframer) :
    (runReceive p R c d).isOpen = d.isOpen ∧ (runReceive p R c d).expected = d.expected ∧
    (runReceive p R c d).closings = d.closings ∧ (runReceive p R c d).queue <:+ d.queue ∧
    (((runReceive p R c d).results = d.results ∧ ∃ c', (runReceive p R c d).wait = .rxPending c') ∨
      ((runReceive p R c d).wait = .idle ∧ ∃ r, (runReceive p R c d).results = d.results ++ [r])) := by
  cases c with
  | readPacket =>
    unfold runReceive
    cases hq : d.queue with
    | nil => exact ⟨rfl, rfl, rfl, by simp, .inl ⟨rfl, _, rfl⟩⟩
    | cons dg q => exact ⟨rfl, rfl, rfl, List.suffix_cons _ _, .inr ⟨rfl, _, rfl⟩⟩
  | readData =>
    unfold runReceive
    cases hq : d.queue with
    | nil => exact ⟨rfl, rfl, rfl, by simp, .inl ⟨rfl, _, rfl⟩⟩
    | cons dg q => exact ⟨rfl, rfl, rfl, List.suffix_cons _ _, .inr ⟨rfl, _, rfl⟩⟩
  | read n out =>
    obtain ⟨pulled, payloads, -, -, ⟨-, h⟩ | ⟨bad, e, q', hq, -, h⟩ | ⟨last, p', q', m, hq, -, -, -, h⟩⟩ :=
      pullRead_cases R p.readSpan n out d.queue d
    all_goals simp only [runReceive, h]
    · exact ⟨trivial, trivial, trivial, List.nil_suffix, .inl ⟨trivial, _, rfl⟩⟩
    · refine ⟨rfl, rfl, rfl, ?_, .inr ⟨rfl, _, rfl⟩⟩
      rw [hq]
      exact (List.suffix_cons _ _).trans (List.suffix_append _ _)
    · refine ⟨rfl, rfl, rfl, ?_, .inr ⟨rfl, _, rfl⟩⟩
      rw [hq]
      exact (List.suffix_cons _ _).trans (List.suffix_append _ _)

/-- DF_READ either returns from the view or reaches its `receive` with all that is unread (R254, R255). -/
theorem startRead_cases (p : Params) (R : Registries) (n : BitVec 32) (d : Deframer) :
    (startRead p R n d = endRead (okResult (.data ((unread d).take n.toNat)))
        { d with cursor := d.cursor + min n.toNat (d.rx.length - d.cursor) } ∧
      readDone p.readSpan n.toNat ((unread d).take n.toNat) = true) ∨
    (startRead p R n d = runReceive p R (.read n (unread d)) d ∧ readDone p.readSpan n.toNat (unread d) = false) := by
  have hl : d.rx.length - d.cursor = (unread d).length := by simp [unread]
  have hs : sliceOf d.rx d.cursor (d.cursor + min n.toNat (unread d).length) =
      (unread d).take (min n.toNat (unread d).length) := by rw [sliceOf, Nat.add_sub_cancel_left]; rfl
  unfold startRead
  simp only [hl, hs]
  split
  · next h =>
    rw [← List.take_eq_take_min] at h ⊢
    exact .inl ⟨rfl, h⟩
  · next h =>
    have h := Bool.eq_false_iff.mpr h
    have hall := take_all_of_not_done (span := p.readSpan) (n := n.toNat) (out := []) (p := unread d) (by simpa using h)
    rw [List.length_nil, Nat.sub_zero] at hall
    rw [hall] at h ⊢
    exact .inr ⟨rfl, h⟩

/-- Everything an open-stream command of a deframer can do with a next state: the closed check, or its own act. -/
theorem whenDeframerOpen_ok {act : Deframer → Deframer} {d d' : Deframer}
    (h : whenDeframerOpen act d = .ok d') :
    (d.isOpen = false ∧ d' = d.report (raiseResult (streamClosed 0) .none)) ∨ (d.isOpen = true ∧ d' = act d) := by
  unfold whenDeframerOpen at h
  split_ifs at h with ho
  · exact .inr ⟨ho, by simpa [eq_comm] using h⟩
  · exact .inl ⟨by simpa using ho, by simpa [eq_comm] using h⟩

/-- Everything DF_OPEN can do with a next state (R250). -/
theorem openDeframer_ok {R : Registries} {protocol : Byte} {d d' : Deframer}
    (h : openDeframer R protocol d = .ok d') : d.isOpen = false ∧
    ((∃ e, checkProtocol R protocol = some e ∧ d' = d.report (raiseResult e .none)) ∨
      (checkProtocol R protocol = none ∧ d' = Deframer.report
        { d with expected := protocol, rx := [], cursor := 0, isOpen := true } (okResult .none))) := by
  unfold openDeframer at h
  split_ifs at h with ho
  refine ⟨by simpa using ho, ?_⟩
  split at h
  · next e he => exact .inl ⟨e, he, by simpa [eq_comm] using h⟩
  · next he => exact .inr ⟨he, by simpa [eq_comm] using h⟩

end Sys2Proof.Machine
end

