-- ==== Sys2Proof/Laws/Framer.lean ====
section
/-! SUPPORT. Lemmas of the growable buffer and the output framer: what an append, a flush, a write and the transport's
answer can do, each once. -/

namespace Sys2Proof.Machine

open Sys2Proof.Safety

/-- An append to a growable buffer always adds its byte, and the capacity never shrinks (R131, R135). -/
theorem bufAppend_growable {g : GrowBuf} (h : g.fixed = false) (b : Byte) :
    ∃ cap, g.cap ≤ cap ∧ (g.bytes.length ≤ g.cap → g.bytes.length + 1 ≤ cap) ∧
      bufAppend g b = .ok ⟨g.bytes ++ [b], cap, false⟩ := by
  unfold bufAppend
  split_ifs with h₁ h₂
  · simp [h] at h₂
  · exact ⟨max 1 (2 * g.cap), by omega, fun _ => by omega, by rw [h]⟩
  · exact ⟨_, le_rfl, fun _ => by omega, by rw [h]⟩

/-- A buffer within the payload bound passes both size checks of a flush: the flush hands its datagram over and waits
(R213). -/
theorem startFlush_fits {f : Framer} (h : f.buf.bytes.length ≤ 1408) (c : FrCont) :
    startFlush c f = { f with
      fc := f.fc + 1
      tx := f.tx ++ [(f.cfg.dest, headerOf f.cfg f.fc ++ f.buf.bytes)]
      wait := .txPending (headerOf f.cfg f.fc ++ f.buf.bytes) f.fc c } := by
  unfold startFlush
  rw [if_neg (by simp [bufLen, Config.maxDatagram]; omega),
    if_neg (by simp [bufLen, Config.maxDatagram, Config.hdrLen]; omega)]
  rfl

/-- Everything a flush up to its `send` can do: fail by size, or hand a datagram over and wait (R213). -/
theorem startFlush_cases (c : FrCont) (f : Framer) :
    (1408 < f.buf.bytes.length ∧ ∃ e, (e = bufferTooLarge 0 ∨ e = payloadTooLarge 1) ∧
      startFlush c f = failCont c e f) ∨
    (f.buf.bytes.length ≤ 1408 ∧ startFlush c f = { f with
      fc := f.fc + 1
      tx := f.tx ++ [(f.cfg.dest, headerOf f.cfg f.fc ++ f.buf.bytes)]
      wait := .txPending (headerOf f.cfg f.fc ++ f.buf.bytes) f.fc c }) := by
  by_cases h : f.buf.bytes.length ≤ 1408
  · exact .inr ⟨h, startFlush_fits h c⟩
  · refine .inl ⟨by omega, ?_⟩
    unfold startFlush
    split_ifs with h₁ h₂
    · exact ⟨_, .inl rfl, rfl⟩
    · exact ⟨_, .inr rfl, rfl⟩
    · simp [bufLen, Config.maxDatagram, Config.hdrLen] at h₂
      omega

/-- A property of framers that every append keeps, and that a flush, a failure and a return each turn into a second
property, is so turned by a whole write (R215). -/
theorem writeLoop_induct {P Q : Framer → Prop} (kind : WriteKind)
    (append : ∀ f b g, P f → f.buf.bytes.length < 1408 → bufAppend f.buf b = .ok g → P { f with buf := g })
    (flush : ∀ f c, P f → contOp c = kindOp kind → Q (startFlush c f))
    (fail : ∀ f n, P f → f.buf.fixed = true →
      Q (f.report (raiseResult (bufferTooLarge 1) (.consumed n))))
    (done : ∀ f n, P f → Q (f.report (okResult (.consumed n)))) :
    ∀ (data : List Byte) (n : Nat) (f : Framer), P f → Q (writeLoop kind data n f) := by
  intro data
  induction data with
  | nil =>
    intro n f h
    cases kind with
    | write => exact done f _ h
    | sendData =>
      simp only [writeLoop, endWrite]
      split_ifs
      · exact flush f _ h rfl
      · exact done f _ h
  | cons b rest ih =>
    intro n f h
    unfold writeLoop
    by_cases h₁ : bufLen f.buf + 1 > Config.maxPayload
    · rw [if_pos h₁]
      exact flush f _ h (by cases kind <;> rfl)
    · rw [if_neg h₁]
      have h₂ : f.buf.bytes.length < 1408 := by
        simp [bufLen, Config.maxPayload, Config.maxDatagram, Config.hdrLen] at h₁
        omega
      split
      · next e he =>
        unfold bufAppend at he
        split_ifs at he with h₃ h₄
        cases he
        cases kind <;> exact fail f _ h h₄
      · next g hg =>
        split
        · exact flush _ _ (append f b g h h₂ hg) (by cases kind <;> rfl)
        · exact ih _ _ (append f b g h h₂ hg)

/-- A write of bytes that hold no newline and fit in the buffer appends them and goes on with the rest (R215). -/
theorem writeLoop_plain {kind : WriteKind} (rest : List Byte) :
    ∀ (data : List Byte) (n : Nat) (f : Framer), f.buf.fixed = false → (0x0A : Byte) ∉ data →
      f.buf.bytes.length + data.length ≤ 1408 →
      ∃ cap, f.buf.cap ≤ cap ∧ writeLoop kind (data ++ rest) n f =
        writeLoop kind rest (n + data.length) { f with buf := ⟨f.buf.bytes ++ data, cap, false⟩ } := by
  intro data
  induction data with
  | nil => intro n f h _ _; exact ⟨f.buf.cap, le_rfl, by simp [← h]⟩
  | cons b data ih =>
    intro n f h hn hl
    simp only [List.mem_cons, not_or, List.length_cons] at hn hl
    obtain ⟨cap, hcap, -, hb⟩ := bufAppend_growable h b
    obtain ⟨cap', hcap', ht⟩ := ih (n + 1) { f with buf := ⟨f.buf.bytes ++ [b], cap, false⟩ } rfl hn.2 (by simp; omega)
    refine ⟨cap', le_trans hcap hcap', ?_⟩
    rw [List.cons_append, writeLoop, if_neg (by simp [bufLen, Config.maxPayload, Config.maxDatagram, Config.hdrLen]; omega),
      hb]
    simp only
    rw [if_neg (fun h => hn.1 h.symm), ht]
    simp [Nat.add_assoc, Nat.add_comm 1]

/-- A write of a newline that fits flushes after the append (R215). -/
theorem writeLoop_newline {kind : WriteKind} {f : Framer} (rest : List Byte) (n : Nat) (h : f.buf.fixed = false)
    (hl : f.buf.bytes.length < 1408) :
    ∃ cap, f.buf.cap ≤ cap ∧ writeLoop kind (0x0A :: rest) n f =
      startFlush (.write kind rest (n + 1)) { f with buf := ⟨f.buf.bytes ++ [0x0A], cap, false⟩ } := by
  obtain ⟨cap, hcap, -, hb⟩ := bufAppend_growable h 0x0A
  refine ⟨cap, hcap, ?_⟩
  rw [writeLoop, if_neg (by simp [bufLen, Config.maxPayload, Config.maxDatagram, Config.hdrLen]; omega), hb]
  rfl

/-- A write of a byte into a full buffer flushes first (R215). -/
theorem writeLoop_full {kind : WriteKind} {f : Framer} (b : Byte) (rest : List Byte) (n : Nat)
    (hl : f.buf.bytes.length = 1408) :
    writeLoop kind (b :: rest) n f = startFlush (.write kind (b :: rest) n) f := by
  rw [writeLoop, if_pos (by simp [bufLen, Config.maxPayload, Config.maxDatagram, Config.hdrLen]; omega)]

/-- The transport's answer to a framer that waits (R213). -/
theorem answerFramer_pending {p : Params} {f : Framer} {dg : Datagram} {u : BitVec 32} {c : FrCont}
    (h : f.wait = .txPending dg u c) :
    answerFramer p true f = .ok (resumeFramer c u { f with wait := .idle, buf := ⟨[], f.buf.cap, f.buf.fixed⟩ }) ∧
    answerFramer p false f = .ok (failCont c transportError
      { f with wait := .idle, fc := if p.txFail = .restored then u else f.fc }) := by
  constructor
  · simp only [answerFramer, h]
    rfl
  · simp only [answerFramer, h]
    cases p.txFail <;> rfl

/-- Everything an open-stream command of a framer can do with a next state: the closed check, or its own act. -/
theorem whenFramerOpen_ok {op : Byte} {act : Framer → Except Refusal Framer} {f f' : Framer}
    (h : whenFramerOpen op act f = .ok f') :
    (f.isOpen = false ∧ f' = f.report (raiseResult (streamClosed 0) (failFields op))) ∨
    (f.isOpen = true ∧ act f = .ok f') := by
  unfold whenFramerOpen at h
  split_ifs at h with ho
  · exact .inr ⟨ho, h⟩
  · exact .inl ⟨by simpa using ho, by simpa [eq_comm] using h⟩

/-- Everything FR_OPEN can do with a next state (R211). -/
theorem openFramer_ok {p : Params} {R : Registries} {r : StreamRecord} {f f' : Framer}
    (h : openFramer p R r f = .ok f') : f.isOpen = false ∧
    ((∃ e, checkEncode R r.protocol r.rate r.samples r.channel r.format r.codec = some e ∧
        f' = f.report (raiseResult e .none)) ∨
      (checkEncode R r.protocol r.rate r.samples r.channel r.format r.codec = none ∧
        f' = Framer.report { f with cfg := openCfg r, fc := 0, buf := bufInit p.bufInitCap false, isOpen := true }
          (okResult .none))) := by
  unfold openFramer at h
  split_ifs at h with ho
  refine ⟨by simpa using ho, ?_⟩
  split at h
  · next e he => exact .inl ⟨e, he, by simpa [eq_comm] using h⟩
  · next he => exact .inr ⟨he, by simpa [eq_comm] using h⟩

end Sys2Proof.Machine
end

