-- ==== Sys2Proof/Laws/Ops.lean ====
section
/-! SUPPORT. One lemma per shared operation that says everything it can do: reaching an instance, the command-word
check, an event, a step. -/

namespace Sys2Proof.Machine

/-- A framer's outcome is a next state when there is a new framer. -/
@[simp] theorem framerOutcome_next {s t : State} {k : Nat} {o : Except Refusal Framer} :
    framerOutcome s k o = .next t ↔ ∃ f, o = .ok f ∧ t = s.setFramer k f := by
  cases o <;> simp [framerOutcome, eq_comm]

/-- A deframer's outcome is a next state when there is a new deframer. -/
@[simp] theorem deframerOutcome_next {s t : State} {k : Nat} {o : Except Refusal Deframer} :
    deframerOutcome s k o = .next t ↔ ∃ d, o = .ok d ∧ t = s.setDeframer k d := by
  cases o <;> simp [deframerOutcome, eq_comm]

/-- An instance command to a framer that is there and idle. -/
theorem onFramer_some {op k : Byte} {act : Framer → Except Refusal Framer} {s : State} {f : Framer}
    (hf : s.frs[k.toNat]? = some f) (hw : f.wait = .idle) :
    onFramer op k act s = framerOutcome s k.toNat (act f) := by
  simp [onFramer, hf, hw]

/-- An instance command to a framer that is not there. -/
theorem onFramer_none {op k : Byte} {act : Framer → Except Refusal Framer} {s : State}
    (hf : s.frs[k.toNat]? = none) : onFramer op k act s = illegalInstance op s := by
  simp [onFramer, hf]

/-- Everything `onFramer` can answer with a next state. -/
theorem onFramer_next {op k : Byte} {act : Framer → Except Refusal Framer} {s t : State}
    (h : onFramer op k act s = .next t) :
    (s.frs[k.toNat]? = none ∧ t = s.report (raiseResult (illegalCommand 2) (failFields op))) ∨
    (∃ f f', s.frs[k.toNat]? = some f ∧ f.wait = .idle ∧ act f = .ok f' ∧ t = s.setFramer k.toNat f') := by
  unfold onFramer at h
  split at h
  · next hf => exact .inl ⟨hf, by simpa [illegalInstance, eq_comm] using h⟩
  · next f hf =>
    split at h
    · cases h
    · next hw =>
      obtain ⟨f', ha, ht⟩ := framerOutcome_next.mp h
      exact .inr ⟨f, f', hf, hw, ha, ht⟩

/-- Everything `onAnyDeframer` can answer with a next state. -/
theorem onAnyDeframer_next {op k : Byte} {act : Deframer → Except Refusal Deframer} {s t : State}
    (h : onAnyDeframer op k act s = .next t) :
    (s.dfs[k.toNat]? = none ∧ t = s.report (raiseResult (illegalCommand 2) (failFields op))) ∨
    (∃ d d', s.dfs[k.toNat]? = some d ∧ act d = .ok d' ∧ t = s.setDeframer k.toNat d') := by
  unfold onAnyDeframer at h
  split at h
  · next hf => exact .inl ⟨hf, by simpa [illegalInstance, eq_comm] using h⟩
  · next d hd =>
    obtain ⟨d', ha, ht⟩ := deframerOutcome_next.mp h
    exact .inr ⟨d, d', hd, ha, ht⟩

/-- Everything `onDeframer` can answer with a next state. -/
theorem onDeframer_next {op k : Byte} {act : Deframer → Except Refusal Deframer} {s t : State}
    (h : onDeframer op k act s = .next t) :
    (s.dfs[k.toNat]? = none ∧ t = s.report (raiseResult (illegalCommand 2) (failFields op))) ∨
    (∃ d d', s.dfs[k.toNat]? = some d ∧ d.wait = .idle ∧ act d = .ok d' ∧ t = s.setDeframer k.toNat d') := by
  obtain h | ⟨d, d', hd, ha, ht⟩ := onAnyDeframer_next h
  · exact .inl h
  · cases hw : d.wait with
    | idle => exact .inr ⟨d, d', hd, hw, by simpa [hw] using ha, ht⟩
    | rxPending c => simp [hw] at ha

/-- A command to a deframer that is there, whether or not a read waits. -/
theorem onAnyDeframer_some {op k : Byte} {act : Deframer → Except Refusal Deframer} {s : State} {d : Deframer}
    (hd : s.dfs[k.toNat]? = some d) :
    onAnyDeframer op k act s = deframerOutcome s k.toNat (act d) := by
  simp [onAnyDeframer, hd]

/-- A command to a deframer that is there and idle. -/
theorem onDeframer_some {op k : Byte} {act : Deframer → Except Refusal Deframer} {s : State} {d : Deframer}
    (hd : s.dfs[k.toNat]? = some d) (hw : d.wait = .idle) :
    onDeframer op k act s = deframerOutcome s k.toNat (act d) := by
  simp [onDeframer, onAnyDeframer, hd, hw]

/-- A step with no event leaves the block as it is. -/
theorem step_nil {s : State} (h : s.events = []) : step s = .next s := by
  simp [step, h]

/-- A step with events takes the oldest. -/
theorem step_cons {s : State} {e : Event} {rest : List Event} (h : s.events = e :: rest) :
    step s = eventStep e { s with events := rest } := by
  simp [step, h]

/-- Everything a transmit event can answer with a next state. -/
theorem txEvent_next {k : Nat} {ok : Bool} {s t : State} (h : txEvent k ok s = .next t) :
    ∃ f f', s.frs[k]? = some f ∧ answerFramer s.params ok f = .ok f' ∧ t = s.setFramer k f' := by
  unfold txEvent at h
  split at h
  · cases h
  · next f hf =>
    obtain ⟨f', ha, ht⟩ := framerOutcome_next.mp h
    exact ⟨f, f', hf, ha, ht⟩

/-- Everything a receive event can answer with a next state. -/
theorem rxEvent_next {k : Nat} {dg : Datagram} {s t : State} (h : rxEvent k dg s = .next t) :
    ∃ d, s.dfs[k]? = some d ∧ t = s.setDeframer k (arriveDeframer s.params s.registries dg d) := by
  unfold rxEvent at h
  split at h
  · cases h
  · next d hd => exact ⟨d, hd, by simpa [eq_comm] using h⟩

/-- Everything an arriving command can answer with a next state: an IllegalCommand of the word, or the command's
meaning. -/
theorem runCommand_next {w : BitVec 16} {r : OperandRecord} {s t : State} (h : runCommand w r s = .next t) :
    (∃ c, wordCheck s w = some c ∧
      t = s.report (raiseResult (illegalCommand c) (failFields (opField w)))) ∨
    (∃ i, wordCheck s w = none ∧ decode w r = .ok i ∧ i.wellFormed = true ∧ exec i s = .next t) := by
  unfold runCommand at h
  split at h
  · next c hc => exact .inl ⟨c, hc, by simpa [eq_comm] using h⟩
  · next hc =>
    split at h
    · cases h
    · next i hi =>
      split at h
      · next hwf => exact .inr ⟨i, hc, hi, hwf, h⟩
      · cases h

end Sys2Proof.Machine
end

