-- ==== Sys2Proof/Laws/Exec.lean ====
section
/-! SUPPORT. What `exec` does by the kind of its command: a stateless command reports one result, a framer command acts on
one framer, a deframer command on one deframer, and the act depends on nothing but the parameters and the registries. -/

namespace Sys2Proof.Machine

open Sys2Proof.Safety

/-- The result of a stateless command. -/
def statelessResult (R : Registries) (i : Instr) : Result :=
  match i with
  | .regLookup _ dim code     => resultOf .value (lookupAnswer R dim code)
  | .regDims _ p              => resultOf (fun d => .dims (dimNumber d.1) (dimNumber d.2)) (dimsAnswer R p)
  | .hdrEncode _ r            => resultOf .hb (encodeHeader R r)
  | .hdrDecode _ data         => resultOf .hdr (decodeHeader R Config.strictDecode data)
  | .pktCreate _ header payld => resultOf .dg (createPacket header payld)
  | .pktDecode _ data         => resultOf (fun p => .packet p.1 p.2) (decodePacket R Config.strictDecode data)
  | _                         => okResult .none

/-- What a framer command makes of an idle framer. -/
def framerAct (p : Params) (R : Registries) (i : Instr) : Framer → Except Refusal Framer :=
  match i with
  | .frOpen _ r     => openFramer p R r
  | .frWrite _ data => whenFramerOpen 0x31 fun f => .ok (writeLoop .write data 0 f)
  | .frFlush _      => whenFramerOpen 0x32 fun f => .ok (startFlush .flush f)
  | .frSendData _ v => whenFramerOpen 0x33 fun f =>
      match sendBytes f.cfg.protocol v with
      | none      => .error .wrongValueKind
      | some data => .ok (writeLoop .sendData data 0 f)
  | .frClose _      => whenFramerOpen 0x34 fun f =>
      .ok (Framer.report { f with buf := bufClear f.buf, isOpen := false } (okResult .none))
  | _               => .ok

/-- What a deframer command other than DF_CLOSE makes of an idle deframer. -/
def idleDeframerAct (p : Params) (R : Registries) (i : Instr) : Deframer → Except Refusal Deframer :=
  match i with
  | .dfOpen _ protocol => openDeframer R protocol
  | .dfReadPacket _    => whenDeframerOpen (runReceive p R .readPacket)
  | .dfReadData _      => whenDeframerOpen (runReceive p R .readData)
  | .dfRead _ count    => whenDeframerOpen (startRead p R count)
  | _                  => .ok

/-- What a deframer command makes of a deframer. -/
def deframerAct (p : Params) (R : Registries) (i : Instr) (d : Deframer) : Except Refusal Deframer :=
  match i with
  | .dfClose k => whenDeframerOpen (fun d => closeDeframer (Config.closeAborts k.toNat d.closings) d) d
  | _ =>
    match d.wait with
    | .rxPending _ => .error .instanceBusy
    | .idle        => idleDeframerAct p R i d

/-- A stateless command reports its result and changes nothing else (R92). -/
theorem exec_stateless {i : Instr} (h : targetOf i = none) (s : State) :
    exec i s = .next (s.report (statelessResult s.registries i)) := by
  cases i <;> first | rfl | simp [targetOf, Instr.opcode, opcodeByte, isFramerOp, isDeframerOp] at h

/-- A framer command acts on the framer of its `inst`. -/
theorem exec_framer {i : Instr} {k : Nat} (h : targetOf i = some (true, k)) (s : State) : k = i.inst.toNat ∧
    exec i s = onFramer (opcodeByte i.opcode) i.inst (framerAct s.params s.registries i) s := by
  cases i <;> simp [targetOf, Instr.opcode, opcodeByte, isFramerOp, isDeframerOp] at h <;> exact ⟨h.symm, rfl⟩

/-- A deframer command acts on the deframer of its `inst`. -/
theorem exec_deframer {i : Instr} {k : Nat} (h : targetOf i = some (false, k)) (s : State) : k = i.inst.toNat ∧
    exec i s = onAnyDeframer (opcodeByte i.opcode) i.inst (deframerAct s.params s.registries i) s := by
  cases i <;> simp [targetOf, Instr.opcode, opcodeByte, isFramerOp, isDeframerOp] at h <;> exact ⟨h.symm, rfl⟩

/-- A command is stateless, a framer's or a deframer's. -/
theorem targetOf_cases (i : Instr) : targetOf i = none ∨ targetOf i = some (true, i.inst.toNat) ∨
    targetOf i = some (false, i.inst.toNat) := by
  unfold targetOf
  split_ifs <;> simp

/-- Everything `exec` can do with a next state: one result on the port of no instance, one framer changed, or one
deframer changed. -/
theorem exec_next {i : Instr} {s t : State} (h : exec i s = .next t) :
    (targetOf i = none ∧ t = s.report (statelessResult s.registries i)) ∨
    (targetOf i = some (true, i.inst.toNat) ∧
      ((s.frs[i.inst.toNat]? = none ∧
        t = s.report (raiseResult (illegalCommand 2) (failFields (opcodeByte i.opcode)))) ∨
      ∃ f f', s.frs[i.inst.toNat]? = some f ∧ f.wait = .idle ∧ framerAct s.params s.registries i f = .ok f' ∧
        t = s.setFramer i.inst.toNat f')) ∨
    (targetOf i = some (false, i.inst.toNat) ∧
      ((s.dfs[i.inst.toNat]? = none ∧
        t = s.report (raiseResult (illegalCommand 2) (failFields (opcodeByte i.opcode)))) ∨
      ∃ d d', s.dfs[i.inst.toNat]? = some d ∧ deframerAct s.params s.registries i d = .ok d' ∧
        t = s.setDeframer i.inst.toNat d')) := by
  rcases targetOf_cases i with ht | ht | ht
  · rw [exec_stateless ht] at h
    exact .inl ⟨ht, by simpa [eq_comm] using h⟩
  · rw [(exec_framer ht s).2] at h
    exact .inr (.inl ⟨ht, onFramer_next h⟩)
  · rw [(exec_deframer ht s).2] at h
    exact .inr (.inr ⟨ht, onAnyDeframer_next h⟩)

/-- Everything a step can do with a next state: nothing, one result on the port of no instance, one framer changed, or
one deframer changed; the event it takes is gone. -/
theorem step_next {s t : State} (h : step s = .next t) :
    (s.events = [] ∧ t = s) ∨
    ∃ e rest, s.events = e :: rest ∧
      ((∃ w r c, e = .command w r ∧ wordCheck { s with events := rest } w = some c ∧ t = State.report
          { s with events := rest } (raiseResult (illegalCommand c) (failFields (opField w)))) ∨
      (∃ w r i, e = .command w r ∧ decode w r = .ok i ∧ i.wellFormed = true ∧
        exec i { s with events := rest } = .next t) ∨
      (∃ k ok f f', e = .tx k ok ∧ s.frs[k]? = some f ∧ answerFramer s.params ok f = .ok f' ∧
        t = State.setFramer { s with events := rest } k f') ∨
      (∃ k dg d, e = .rx k dg ∧ s.dfs[k]? = some d ∧
        t = State.setDeframer { s with events := rest } k (arriveDeframer s.params s.registries dg d))) := by
  cases he : s.events with
  | nil =>
    rw [step_nil he] at h
    cases h
    exact .inl ⟨rfl, rfl⟩
  | cons e rest =>
    rw [step_cons he] at h
    refine .inr ⟨e, rest, rfl, ?_⟩
    cases e with
    | command w r =>
      obtain ⟨c, hc, rfl⟩ | ⟨i, -, hd, hw, hx⟩ := runCommand_next h
      · exact .inl ⟨w, r, c, rfl, hc, rfl⟩
      · exact .inr (.inl ⟨w, r, i, rfl, hd, hw, hx⟩)
    | tx k ok =>
      obtain ⟨f, f', hf, ha, rfl⟩ := txEvent_next h
      exact .inr (.inr (.inl ⟨k, ok, f, f', rfl, hf, ha, rfl⟩))
    | rx k dg =>
      obtain ⟨d, hd, rfl⟩ := rxEvent_next h
      exact .inr (.inr (.inr ⟨k, dg, d, rfl, hd, rfl⟩))

/-- No result is an answer of any commands. -/
@[simp] theorem answers_nil (ops : List Byte) : answers ops [] := by
  simp [answers]

/-- A legal result of the first command is an answer, with or without results of the others after it. -/
@[simp] theorem answers_cons {op : Byte} {ops : List Byte} {r : Result} {new : List Result} :
    answers (op :: ops) (r :: new) ↔ resultLegal op r ∧ answers ops new := by
  simp only [answers, List.length_cons, Nat.add_le_add_iff_right, List.zip_cons_cons, List.forall_mem_cons]
  tauto

/-- What holds of every framer, and of a new value for one, holds of every framer after the write. -/
theorem forall_setFramer {s : State} {k : Nat} {f : Framer} {P : Framer → Prop} (h : ∀ g ∈ s.frs, P g) (hf : P f) :
    ∀ g ∈ (s.setFramer k f).frs, P g := by
  intro g hg
  rcases List.mem_or_eq_of_mem_set hg with hg | rfl
  · exact h g hg
  · exact hf

/-- The same of deframers. -/
theorem forall_setDeframer {s : State} {k : Nat} {d : Deframer} {P : Deframer → Prop} (h : ∀ g ∈ s.dfs, P g)
    (hd : P d) : ∀ g ∈ (s.setDeframer k d).dfs, P g := by
  intro g hg
  rcases List.mem_or_eq_of_mem_set hg with hg | rfl
  · exact h g hg
  · exact hd

/-- The encoding of a well-formed command to an instance that is there runs that command. -/
theorem step_encoded {i : Instr} {s : State} {rest : List Event} (he : s.events = .command (encode i).1 i.record :: rest)
    (hw : i.wellFormed = true) (ht : targetExists i s) : step s = exec i { s with events := rest } := by
  have hf := Laws.CommandWord.fields i.inst (opcodeByte i.opcode)
  have hd : decode (encode i).1 i.record = .ok i := by
    rw [decode, encode, hf.1, hf.2.1, opcodeOf_opcodeByte]
    simp only [buildCommand_self]
  rw [step_cons he]
  simp only [eventStep, runCommand]
  rw [show wordCheck { s with events := rest } (encode i).1 = none from ?_]
  · simp only [hd, hw, if_true]
  · rw [encode, wordCheck_encode, if_neg, if_neg]
    · rintro ⟨h₁, h₂⟩
      exact absurd (ht.2 h₁) (Nat.not_lt.mpr h₂)
    · rintro ⟨h₁, h₂⟩
      exact absurd (ht.1 h₁) (Nat.not_lt.mpr h₂)

end Sys2Proof.Machine
end

