-- ==== Sys2Proof/Laws/Run.lean ====
section
/-! SUPPORT. Lemmas of runs: a send answered `ok`, what a stream write run to its end leaves, the counter in a sent
datagram, and what the framer's shared operations never change. -/

namespace Sys2Proof.Machine

open Sys2Proof.Safety

/-- One step more of a run. -/
theorem runSteps_succ (n : Nat) (s : State) : runSteps (n + 1) s = match step s with
    | .next t    => runSteps n t
    | .fault e   => .fault e
    | .refused e => .refused e := rfl

/-- `runSteps` is the host's own run of this machine. -/
theorem core_run_eq (n : Nat) (s : Sys2Proof.core.State) : Host.Core.run Sys2Proof.core n s = runSteps n s := by
  induction n generalizing s with
  | zero => rfl
  | succ n ih =>
    unfold Host.Core.run
    refine Eq.trans ?_ (runSteps_succ n s).symm
    cases h : step s with
    | next t    => rw [show Sys2Proof.core.step s = .next t from h]; exact ih t
    | fault e   => rw [show Sys2Proof.core.step s = .fault e from h]; rfl
    | refused e => rw [show Sys2Proof.core.step s = .refused e from h]; rfl

/-- The counter that a framer's datagram carries (R61, R210). -/
theorem le32_headerOf (c : StreamCfg) (fc : BitVec 32) (payload : List Byte) :
    le32 (headerOf c fc ++ payload) 24 = fc := by
  apply le32_toLe32
  intro j hj
  have hlt : 24 + j < (headerOf c fc).length := by rw [headerOf_length]; omega
  have hb := (byteAt_packHeader c.protocol (c.rate.setWidth 8) c.samples c.channel c.codec (c.format.setWidth 8)
    c.name.toList fc c.name_length).2.2.2.2.2.2 j hj
  rw [← hb]
  simp only [byteAt, List.getD_eq_getElem?_getD, List.getElem?_append_left hlt]
  rfl

/-- A flush up to its `send` changes neither the configuration nor the open flag, and only adds results. -/
theorem startFlush_frame (c : FrCont) (f : Framer) : (startFlush c f).cfg = f.cfg ∧
    (startFlush c f).isOpen = f.isOpen ∧ ∃ rs, (startFlush c f).results = f.results ++ rs := by
  rcases startFlush_cases c f with ⟨-, e, -, h⟩ | ⟨-, h⟩ <;> rw [h]
  · exact ⟨rfl, rfl, _, rfl⟩
  · exact ⟨rfl, rfl, [], by simp⟩

/-- A write changes neither the configuration nor the open flag, and only adds results. -/
theorem writeLoop_frame (kind : WriteKind) (data : List Byte) (n : Nat) (f : Framer) :
    (writeLoop kind data n f).cfg = f.cfg ∧ (writeLoop kind data n f).isOpen = f.isOpen ∧
      ∃ rs, (writeLoop kind data n f).results = f.results ++ rs := by
  refine writeLoop_induct
    (P := fun g => g.cfg = f.cfg ∧ g.isOpen = f.isOpen ∧ ∃ rs, g.results = f.results ++ rs)
    (Q := fun g => g.cfg = f.cfg ∧ g.isOpen = f.isOpen ∧ ∃ rs, g.results = f.results ++ rs)
    kind ?_ ?_ ?_ ?_ data n f ⟨rfl, rfl, [], by simp⟩
  · intro g b g' h _ _
    exact h
  · rintro g c ⟨h₁, h₂, rs, h₃⟩ _
    obtain ⟨k₁, k₂, rs', k₃⟩ := startFlush_frame c g
    exact ⟨k₁.trans h₁, k₂.trans h₂, rs ++ rs', by rw [k₃, h₃, List.append_assoc]⟩
  · rintro g n ⟨h₁, h₂, rs, h₃⟩ _
    exact ⟨h₁, h₂, rs ++ [_], by rw [Framer.report_results, h₃, List.append_assoc]⟩
  · rintro g n ⟨h₁, h₂, rs, h₃⟩
    exact ⟨h₁, h₂, rs ++ [_], by rw [Framer.report_results, h₃, List.append_assoc]⟩

/-- The buffer a stream write leaves keeps its bound (R222). -/
theorem writeSpec_length {c : StreamCfg} : ∀ (data buf : List Byte) (fc : BitVec 32), buf.length ≤ 1408 →
    (writeSpec c data buf fc).2.1.length ≤ 1408 := by
  intro data
  induction data with
  | nil => intro buf fc h; exact h
  | cons b data ih =>
    intro buf fc h
    simp only [writeSpec]
    apply ih
    simp only [show Config.maxPayload = 1408 from rfl]
    by_cases hf : 1408 < buf.length + 1
    · simp only [hf, if_true]
      split_ifs <;> simp
    · simp only [hf, if_false]
      split_ifs <;> simp
      omega

/-- The answer `ok` to a framer that waits resumes its command with an empty buffer (R213). -/
theorem step_tx_ok {s : State} {k : Nat} (hk : k < s.frs.length) {f : Framer} {dg : Datagram} {u : BitVec 32}
    {c : FrCont} {rest : List Event} (hw : f.wait = .txPending dg u c) :
    step (State.setFramer { s with events := .tx k true :: rest } k f) = .next (State.setFramer
      { s with events := rest } k
      (resumeFramer c u { f with wait := .idle, buf := ⟨[], f.buf.cap, f.buf.fixed⟩ })) := by
  rw [step_cons (e := .tx k true) (rest := rest) rfl]
  simp only [eventStep, txEvent]
  rw [show ({ State.setFramer { s with events := .tx k true :: rest } k f with events := rest } : State).frs =
    s.frs.set k f from rfl, List.getElem?_set_self hk]
  simp only
  rw [(answerFramer_pending hw).1]
  simp [framerOutcome, State.setFramer]

/-- A byte that does not find the buffer full, then the rest of a write. -/
theorem runSteps_write_byte {k : Nat} {s : State} (hk : k < s.frs.length) (kind : WriteKind) (b : Byte)
    (data : List Byte)
    (ih : ∀ (n : Nat) (f : Framer) (m : Nat) (rest : List Event), f.wait = .idle → f.buf.fixed = false →
      f.buf.bytes.length ≤ 1408 → ∃ cap,
      runSteps ((writeSpec f.cfg data f.buf.bytes f.fc).1.length + m) (State.setFramer { s with events :=
        (List.replicate (writeSpec f.cfg data f.buf.bytes f.fc).1.length (.tx k true) ++ rest) } k
          (writeLoop kind data n f)) =
      runSteps m (State.setFramer { s with events := rest } k (endWrite kind (n + data.length) { f with
        buf := ⟨(writeSpec f.cfg data f.buf.bytes f.fc).2.1, cap, false⟩
        fc := (writeSpec f.cfg data f.buf.bytes f.fc).2.2
        tx := f.tx ++ (writeSpec f.cfg data f.buf.bytes f.fc).1.map (f.cfg.dest, ·) })))
    (n : Nat) (f : Framer) (m : Nat) (rest : List Event) (hw : f.wait = .idle) (hx : f.buf.fixed = false)
    (hl : f.buf.bytes.length < 1408) : ∃ cap,
    runSteps ((writeSpec f.cfg (b :: data) f.buf.bytes f.fc).1.length + m) (State.setFramer { s with events :=
      (List.replicate (writeSpec f.cfg (b :: data) f.buf.bytes f.fc).1.length (.tx k true) ++ rest) } k
        (writeLoop kind (b :: data) n f)) =
    runSteps m (State.setFramer { s with events := rest } k (endWrite kind (n + (data.length + 1)) { f with
      buf := ⟨(writeSpec f.cfg (b :: data) f.buf.bytes f.fc).2.1, cap, false⟩
      fc := (writeSpec f.cfg (b :: data) f.buf.bytes f.fc).2.2
      tx := f.tx ++ (writeSpec f.cfg (b :: data) f.buf.bytes f.fc).1.map (f.cfg.dest, ·) })) := by
  have hnf : ¬Config.maxPayload < f.buf.bytes.length + 1 := by
    simp [Config.maxPayload, Config.maxDatagram, Config.hdrLen]
    omega
  rw [show n + (data.length + 1) = n + 1 + data.length by omega]
  by_cases hb : b = 0x0A
  · subst hb
    obtain ⟨cap, -, h⟩ := writeLoop_newline (kind := kind) (f := f) data n hx hl
    rw [h, startFlush_fits (by simp; omega)]
    obtain ⟨cap', h'⟩ := ih (n + 1) { f with
      fc := f.fc + 1
      buf := ⟨[], cap, false⟩
      tx := f.tx ++ [(f.cfg.dest, headerOf f.cfg f.fc ++ (f.buf.bytes ++ [0x0A]))] } m rest hw rfl (by simp)
    refine ⟨cap', ?_⟩
    have he : writeSpec f.cfg (0x0A :: data) f.buf.bytes f.fc =
        ((headerOf f.cfg f.fc ++ (f.buf.bytes ++ [0x0A])) :: (writeSpec f.cfg data [] (f.fc + 1)).1,
          (writeSpec f.cfg data [] (f.fc + 1)).2) := by
      simp [writeSpec, hnf, Config.newline]
    rw [he]
    simp only [List.length_cons, List.replicate_succ, List.cons_append, Nat.add_right_comm _ 1 m]
    rw [runSteps_succ, step_tx_ok hk rfl]
    simp only [resumeFramer]
    convert h' using 4
    · simp [hw]
    · simp [hw]
  · obtain ⟨cap, -, h⟩ := writeLoop_plain (kind := kind) data [b] n f hx (by simpa using fun h => hb h.symm)
      (by simp; omega)
    simp only [List.singleton_append] at h
    rw [h]
    obtain ⟨cap', h'⟩ := ih (n + 1) { f with buf := ⟨f.buf.bytes ++ [b], cap, false⟩ } m rest hw rfl (by simp; omega)
    refine ⟨cap', ?_⟩
    have he : writeSpec f.cfg (b :: data) f.buf.bytes f.fc = writeSpec f.cfg data (f.buf.bytes ++ [b]) f.fc := by
      have hn : b ≠ Config.newline := hb
      simp [writeSpec, hnf, hn]
    rw [he]
    exact h'

/-- A stream write with every send answered `ok`, followed over its steps, does what `writeSpec` reads off the rule
(R215), and then what follows the write (R216, R218). -/
theorem runSteps_write {k : Nat} {s : State} (hk : k < s.frs.length) (kind : WriteKind) :
    ∀ (data : List Byte) (n : Nat) (f : Framer) (m : Nat) (rest : List Event), f.wait = .idle → f.buf.fixed = false →
      f.buf.bytes.length ≤ 1408 → ∃ cap,
      runSteps ((writeSpec f.cfg data f.buf.bytes f.fc).1.length + m) (State.setFramer { s with events :=
        (List.replicate (writeSpec f.cfg data f.buf.bytes f.fc).1.length (.tx k true) ++ rest) } k
          (writeLoop kind data n f)) =
      runSteps m (State.setFramer { s with events := rest } k (endWrite kind (n + data.length) { f with
        buf := ⟨(writeSpec f.cfg data f.buf.bytes f.fc).2.1, cap, false⟩
        fc := (writeSpec f.cfg data f.buf.bytes f.fc).2.2
        tx := f.tx ++ (writeSpec f.cfg data f.buf.bytes f.fc).1.map (f.cfg.dest, ·) })) := by
  intro data
  induction data with
  | nil =>
    intro n f m rest _ hx _
    exact ⟨f.buf.cap, by simp [writeSpec, writeLoop, ← hx]⟩
  | cons b data ih =>
    intro n f m rest hw hx hl
    rcases Nat.lt_or_eq_of_le hl with hl | hl
    · exact runSteps_write_byte hk kind b data ih n f m rest hw hx hl
    · rw [writeLoop_full _ _ _ hl, startFlush_fits (by omega)]
      obtain ⟨cap', h'⟩ := runSteps_write_byte hk kind b data ih n { f with
        fc := f.fc + 1
        buf := ⟨[], f.buf.cap, false⟩
        tx := f.tx ++ [(f.cfg.dest, headerOf f.cfg f.fc ++ f.buf.bytes)] } m rest hw rfl (by simp)
      refine ⟨cap', ?_⟩
      have he : writeSpec f.cfg (b :: data) f.buf.bytes f.fc =
          ((headerOf f.cfg f.fc ++ f.buf.bytes) :: (writeSpec f.cfg (b :: data) [] (f.fc + 1)).1,
            (writeSpec f.cfg (b :: data) [] (f.fc + 1)).2) := by
        simp [writeSpec, hl, Config.maxPayload, Config.maxDatagram, Config.hdrLen]
      rw [he]
      simp only [List.length_cons, List.replicate_succ, List.cons_append, Nat.add_right_comm _ 1 m]
      rw [runSteps_succ, step_tx_ok hk rfl]
      simp only [resumeFramer]
      convert h' using 4
      · simp [hw, hx]
      · simp [hw]

end Sys2Proof.Machine
end

