-- ==== Sys2Proof/Machine/Assembler.lean ====
section
/-! DEFINITION. The assembler syntax of `30_encoding.md` R95: how a command, or an event, is written. Text is no input of
the block; this is for reading programs. -/

namespace Sys2Proof.Machine

/-- The mnemonics of the opcode map (R84). -/
def mnemonic : Opcode → String
  | .regLookup    => "REG_LOOKUP"
  | .regDims      => "REG_DIMS"
  | .hdrEncode    => "HDR_ENCODE"
  | .hdrDecode    => "HDR_DECODE"
  | .pktCreate    => "PKT_CREATE"
  | .pktDecode    => "PKT_DECODE"
  | .frOpen       => "FR_OPEN"
  | .frWrite      => "FR_WRITE"
  | .frFlush      => "FR_FLUSH"
  | .frSendData   => "FR_SEND_DATA"
  | .frClose      => "FR_CLOSE"
  | .dfOpen       => "DF_OPEN"
  | .dfReadPacket => "DF_READ_PACKET"
  | .dfReadData   => "DF_READ_DATA"
  | .dfRead       => "DF_READ"
  | .dfClose      => "DF_CLOSE"

/-- One hexadecimal digit. -/
def hexDigit (n : Nat) : Char := if n < 10 then Char.ofNat (48 + n) else Char.ofNat (55 + n)

/-- `HH` of a byte. -/
def hexPair (b : Byte) : String := String.ofList [hexDigit (b.toNat / 16), hexDigit (b.toNat % 16)]

/-- `0xHH` of a byte. -/
def byteText (b : Byte) : String := "0x" ++ hexPair b

/-- `[b, b, ...]` of a byte string. -/
def bytesText (bs : List Byte) : String := "[" ++ ", ".intercalate (bs.map byteText) ++ "]"

/-- One character inside quotes, with the escapes of R95. A quote, a backslash and a control character are escaped. -/
def charText (c : CodePoint) : String :=
  if c = 0x0A then "\\n"
  else if c = 0x00 then "\\0"
  else if c < 0x20 ∨ c = 0x22 ∨ c = 0x5C then "\\x" ++ hexPair (c.setWidth 8)
  else String.singleton (Char.ofNat c.toNat)

/-- `"..."` of a character string. -/
def charsText (cs : List CodePoint) : String := "\"" ++ String.join (cs.map charText) ++ "\""

/-- The operand fields of a record, in R85's order. -/
def fieldTexts : OperandRecord → List String
  | .none          => []
  | .lookup dim c  => ["dim=" ++ toString dim.toNat, "code=" ++ byteText c]
  | .protocol p    => ["protocol=" ++ byteText p]
  | .header r      => ["protocol=" ++ byteText r.protocol, "rate=" ++ toString r.rate.toNat,
      "samples=" ++ toString r.samples.toInt, "channel=" ++ toString r.channel.toInt,
      "format=" ++ toString r.format.toNat, "codec=" ++ byteText r.codec, "name=" ++ charsText r.name,
      "fc=" ++ toString r.fc.toNat]
  | .data d        => ["data=" ++ bytesText d]
  | .packet h p    => ["header=" ++ bytesText h, "payload=" ++ bytesText p]
  | .stream r      => ["protocol=" ++ byteText r.protocol, "rate=" ++ toString r.rate.toNat,
      "format=" ++ toString r.format.toNat, "codec=" ++ byteText r.codec, "samples=" ++ toString r.samples.toInt,
      "channel=" ++ toString r.channel.toInt] ++
      (if r.nameSet then ["name_set=1", "name=" ++ charsText r.name] else ["name=default"]) ++
      ["dest=" ++ toString r.dest]
  | .value (.chars cs) => ["value=" ++ charsText cs]
  | .value (.bytes bs) => ["value=" ++ bytesText bs]
  | .count n       => ["count=" ++ toString n.toNat]

/-- The stream that a command names, `fr<k>` or `df<k>`; none for a stateless command. -/
def streamText (i : Instr) : List String :=
  if 0x30 ≤ opcodeByte i.opcode ∧ opcodeByte i.opcode ≤ 0x34 then ["fr" ++ toString i.inst.toNat]
  else if 0x40 ≤ opcodeByte i.opcode then ["df" ++ toString i.inst.toNat]
  else []

/-- A command, as `MNEMONIC stream, field=value, ...`. -/
def commandText (i : Instr) : String :=
  " ".intercalate (mnemonic i.opcode :: match streamText i ++ fieldTexts i.record with
    | []   => []
    | args => [", ".intercalate args])

/-- An event, as R95 writes it; none for a word and a record that are no command. -/
def eventText : Event → Option String
  | .command w r =>
    match decode w r with
    | .ok i    => some (commandText i)
    | .error _ => none
  | .tx k ok => some ("@tx fr" ++ toString k ++ (if ok then " ok" else " fail"))
  | .rx k d  => some ("@rx df" ++ toString k ++ " <- " ++ bytesText d)

end Sys2Proof.Machine
end

