-- ==== Sys2Proof/Tests/Slice0.lean ====
section
/-! SUPPORT. The model's own tests: the well-formedness smoke, command words, the spec's test vectors
(`95_test_vectors.md`) one command each, and a witness for the hypotheses of every obligation that has some. -/

namespace Sys2Proof.Tests

open Sys2Proof Sys2Proof.Machine Sys2Proof.Safety

/-! ## Helpers: the state the vectors start from, and what to look at -/

/-- The header HT(n) of the vectors, with the counter's four bytes given. -/
def ht (fc : List Byte) : List Byte :=
  [0x56, 0x42, 0x41, 0x4E, 0x52, 0xFF, 0xFF, 0x01, 0x43, 0x6F, 0x6D, 0x6D, 0x61, 0x6E, 0x64, 0x31, 0, 0, 0, 0, 0, 0, 0, 0] ++ fc

/-- HT(0). -/
def ht0 : List Byte := ht [0, 0, 0, 0]

/-- HA(0) of the vectors. -/
def ha0 : List Byte :=
  [0x56, 0x42, 0x41, 0x4E, 0x03, 0xFF, 0xFF, 0x01, 0x53, 0x74, 0x72, 0x65, 0x61, 0x6D, 0x31, 0, 0, 0, 0, 0, 0, 0, 0, 0,
   0, 0, 0, 0]

/-- "Command1". -/
def command1 : List CodePoint := [0x43, 0x6F, 0x6D, 0x6D, 0x61, 0x6E, 0x64, 0x31]

/-- The operands of L1-1. -/
def rec1 : HeaderRecord := ⟨0x40, 18, 0, 0, 1, 0, command1, 0⟩

/-- The operands of the vectors' default FR_OPEN, to endpoint 9. -/
def open1 : StreamRecord := ⟨0x40, 18, 1, 0, 0, 0, false, [], 9⟩

/-- The framer after that FR_OPEN, with these bytes buffered and this counter. -/
def textFramer (bytes : List Byte) (cap : Nat) (fc : BitVec 32) : Framer :=
  ⟨true, openCfg open1, fc, ⟨bytes, cap, false⟩, .idle, [], []⟩

/-- The deframer after DF_OPEN Text, with this view and queue. -/
def textDeframer (rx : List Byte) (cursor : Nat) (queue : List Datagram) : Deframer :=
  ⟨true, 0x40, rx, cursor, .idle, queue, [], 0⟩

/-- The parameters of a vector. -/
def params (span : ReadSpan) : Params := ⟨span, .advanced, 0⟩

/-- Two framers and two deframers: FR[0] and DF[0] as given, FR[1] and DF[1] closed. -/
def st (span : ReadSpan) (f : Framer) (d : Deframer) : State :=
  ⟨params span, registryContents, [f, Framer.reset (params span)], [d, Deframer.reset], [], []⟩

/-- The start state of most vectors. -/
def st0 : State := st .fill (textFramer [] 0 0) (textDeframer [] 0 [])

/-- T3 and T4 of the vectors, and BAD. -/
def t3 : Datagram := ht0 ++ [0x61, 0x62, 0x63]
def t4 : Datagram := ht0 ++ [0x64, 0x65, 0x66, 0x67]
def bad : Datagram := 0 :: t3.tail

/-- A Text deframer with a DF_READ of three bytes waiting. -/
def waitingDeframer : Deframer := { textDeframer [] 0 [] with wait := .rxPending (.read 3 []) }

/-- The next state of an outcome. -/
def nextOf : StepOutcome → Option State
  | .next s => some s
  | _ => none

/-- The refusal of an outcome. -/
def refusalOf : StepOutcome → Option Refusal
  | .refused r => some r
  | _ => none

/-- What a test looks at in a framer: open, buffered bytes, counter, datagrams sent, results. -/
structure SeenFramer where
  isOpen  : Bool
  buf     : List Byte
  fc      : BitVec 32
  sent    : List Datagram
  results : List Result
  deriving DecidableEq, Repr

/-- What a test looks at in a deframer: open, view, cursor, length of the queue, results. -/
structure SeenDeframer where
  isOpen  : Bool
  rx      : List Byte
  cursor  : Nat
  queue   : Nat
  results : List Result
  deriving DecidableEq, Repr

/-- The results on the stateless port after a command. -/
def stateless (o : StepOutcome) : Option (List Result) := (nextOf o).map State.results

/-- FR[k] after a command. -/
def frAt (k : Nat) (o : StepOutcome) : Option SeenFramer :=
  (nextOf o).bind fun s => (s.frs[k]?).map fun f => ⟨f.isOpen, f.buf.bytes, f.fc, f.tx.map Prod.snd, f.results⟩

/-- DF[k] after a command. -/
def dfAt (k : Nat) (o : StepOutcome) : Option SeenDeframer :=
  (nextOf o).bind fun s => (s.dfs[k]?).map fun d => ⟨d.isOpen, d.rx, d.cursor, d.queue.length, d.results⟩

/-- One step more after an outcome, on one event. -/
def thenOn (e : Event) (o : StepOutcome) : StepOutcome :=
  match o with
  | .next s => step { s with events := [e] }
  | o       => o

/-- One step on one event. -/
def stepOn (e : Event) (s : State) : StepOutcome := step { s with events := [e] }

/-! ## Well-formedness -/

theorem test_wf_surrogate : (Instr.hdrEncode 0 { rec1 with name := [0xD800] }).wellFormed = false := by decide
theorem test_wf_too_large : (Instr.frOpen 0 { open1 with name := [0x110000] }).wellFormed = false := by decide
theorem test_wf_send_value : (Instr.frSendData 0 (.chars [0x61, 0xDFFF])).wellFormed = false := by decide
theorem test_wf_bounds : (Instr.frSendData 0 (.chars [0, 0xD7FF, 0xE000, 0x10FFFF])).wellFormed = true := by decide
theorem test_ill_formed_refused :
    refusalOf (stepOn (.command 0x0010 (.header { rec1 with name := [0xD800] })) st0) = some .illFormedRecord := by decide
theorem test_wrong_record_refused :
    refusalOf (stepOn (.command 0x0010 .none) st0) = some .illFormedRecord := by decide
theorem test_wrong_kind_refused :
    refusalOf (stepOn (.command 0x0033 (.value (.bytes [1]))) st0) = some .wrongValueKind := by decide

/-! ## Command words: the table's words, bit for bit, and what the decoder reads from them -/

theorem test_decode_reg_lookup : decode 0b0000000000000001 (.lookup 2 18) = .ok (.regLookup 0 2 18) := by decide
theorem test_decode_reg_dims : decode 0b0000000000000010 (.protocol 0x40) = .ok (.regDims 0 0x40) := by decide
theorem test_decode_hdr_encode : decode 0b1111111100010000 (.header rec1) = .ok (.hdrEncode 255 rec1) := by decide
theorem test_decode_hdr_decode : decode 0b0000000000010001 (.data ht0) = .ok (.hdrDecode 0 ht0) := by decide
theorem test_decode_pkt_create : decode 0b0000000000100000 (.packet [1] [2]) = .ok (.pktCreate 0 [1] [2]) := by decide
theorem test_decode_pkt_decode : decode 0b0000000000100001 (.data [3]) = .ok (.pktDecode 0 [3]) := by decide
theorem test_decode_fr_open : decode 0b0000000000110000 (.stream open1) = .ok (.frOpen 0 open1) := by decide
theorem test_decode_fr_write : decode 0b0000000100110001 (.data [0x61]) = .ok (.frWrite 1 [0x61]) := by decide
theorem test_decode_fr_flush : decode 0b0000000100110010 .none = .ok (.frFlush 1) := by decide
theorem test_decode_fr_send_data :
    decode 0b0000000100110011 (.value (.bytes [1])) = .ok (.frSendData 1 (.bytes [1])) := by decide
theorem test_decode_fr_close : decode 0b0000000000110100 .none = .ok (.frClose 0) := by decide
theorem test_decode_df_open : decode 0b0000000101000000 (.protocol 0x20) = .ok (.dfOpen 1 0x20) := by decide
theorem test_decode_df_read_packet : decode 0b0000000101000001 .none = .ok (.dfReadPacket 1) := by decide
theorem test_decode_df_read_data : decode 0b0000000101000010 .none = .ok (.dfReadData 1) := by decide
theorem test_decode_df_read : decode 0b0000000001000011 (.count 5) = .ok (.dfRead 0 5) := by decide
theorem test_decode_df_close : decode 0b1111111101000100 .none = .ok (.dfClose 255) := by decide
theorem test_decode_reserved : ([0x0000, 0x0003, 0x0035, 0x0045, 0x00FF].map fun w => decode w .none) =
    [.error (.reservedOp 0x00), .error (.reservedOp 0x03), .error (.reservedOp 0x35), .error (.reservedOp 0x45),
     .error (.reservedOp 0xFF)] := by decide
theorem test_table_words :
    ([1, 2, 16, 17, 32, 33, 48, 49, 50, 51, 52, 64, 65, 66, 67, 68].map fun w => (decodeTableWord 16 w).map Instr.opcode) =
    opcodeTable.map some := by decide
theorem test_table_reserved : decodeTableWord 16 3 = none ∧ decodeTableWord 17 1 = none := by decide

/-- Every word of the table runs as the first command after reset. -/
theorem test_table_words_run :
    ([1, 2, 16, 17, 32, 33, 48, 49, 50, 51, 52, 64, 65, 66, 67, 68].all fun w =>
      (nextOf (step (State.reset.withFetchWord 16 w))).isSome) = true := by decide

theorem test_assembler : eventText (.command 0x0131 (.data [0x61, 0x0A])) = some "FR_WRITE fr1, data=[0x61, 0x0A]" ∧
    eventText (.tx 0 false) = some "@tx fr0 fail" := by decide

/-- R96: each pseudo-instruction is one command. -/
theorem test_pseudo : Instr.frWriteln 1 [0x61] = .frWrite 1 [0x61, 0x0A] ∧
    Instr.regProtocol 0 0x60 = .regLookup 0 0 0x60 ∧ Instr.regCodec 0 0xF0 = .regLookup 0 6 0xF0 := by decide

/-- R300: the status numbers. -/
theorem test_status_codes : [Status.ok, .malformedHeader, .unsupportedProtocol, .outOfRange, .payloadTooLarge,
    .bufferTooLarge, .streamClosed, .protocolMismatch, .unknownCode, .transportError, .illegalCommand].map statusCode =
    [0, 1, 2, 3, 4, 5, 6, 7, 8, 9, 10] := by decide

/-! ## The spec's vectors -/

/-- L2-REG-1, L2-REG-6, L2-REG-14. -/
theorem test_reg_lookup : stateless (exec (.regLookup 0 2 18) st0) = some [⟨.ok, 0, .value (.bitsPerSecond 256000)⟩] ∧
    stateless (exec (.regLookup 9 1 21) st0) = some [⟨.unknownCode, 1, .none⟩] ∧
    stateless (exec (.regLookup 0 7 0) st0) = some [⟨.illegalCommand, 3, .none⟩] := by decide

/-- L2-REG-16, L2-REG-18, L2-REG-19. -/
theorem test_reg_dims : stateless (exec (.regDims 0 0x20) st0) = some [⟨.ok, 0, .dims 2 4⟩] ∧
    stateless (exec (.regDims 0 0x60) st0) = some [⟨.unsupportedProtocol, 0, .none⟩] ∧
    stateless (exec (.regDims 0 0x01) st0) = some [⟨.unknownCode, 0, .none⟩] := by decide

/-- L1-1, L2-HE-4. -/
theorem test_hdr_encode : stateless (exec (.hdrEncode 0 rec1) st0) = some [⟨.ok, 0, .hb ht0⟩] ∧
    stateless (exec (.hdrEncode 0 ⟨0, 20, 128, 255, 7, 0xF0, [0x41, 0x42, 0x43, 0x44, 0x45, 0x46, 0x47, 0x48, 0x49, 0x4A,
      0x4B, 0x4C, 0x4D, 0x4E, 0x4F, 0x50, 0x51, 0x52, 0x53], 0xFFFFFFFF⟩) st0) =
    some [⟨.ok, 0, .hb [0x56, 0x42, 0x41, 0x4E, 0x14, 0x7F, 0xFE, 0xF7, 0x41, 0x42, 0x43, 0x44, 0x45, 0x46, 0x47, 0x48,
      0x49, 0x4A, 0x4B, 0x4C, 0x4D, 0x4E, 0x4F, 0x50, 0xFF, 0xFF, 0xFF, 0xFF]⟩] := by decide

/-- L2-HE-5, L2-HE-10, L2-HE-11, L2-HE-22. -/
theorem test_hdr_encode_checks :
    stateless (exec (.hdrEncode 0 ⟨0x40, 0, 0, 0, 0, 0x10, [0x61, 0xE9, 0x20AC], 0⟩) st0) =
      some [⟨.ok, 0, .hb ([0x56, 0x42, 0x41, 0x4E, 0x40, 0xFF, 0xFF, 0x10, 0x61, 0x3F, 0x3F] ++ List.replicate 17 0)⟩] ∧
    stateless (exec (.hdrEncode 0 ⟨0x40, 18, 0, -1, 1, 0, [], 0⟩) st0) = some [⟨.outOfRange, 2, .none⟩] ∧
    stateless (exec (.hdrEncode 0 ⟨0x80, 18, 300, 0, 1, 0, [], 0⟩) st0) = some [⟨.outOfRange, 1, .none⟩] ∧
    stateless (exec (.hdrEncode 0 ⟨0x40, 0, 0, 0, 3, 0x30, [], 0⟩) st0) = some [⟨.unknownCode, 5, .none⟩] := by decide

/-- L2-HD-1, L2-HD-20. -/
theorem test_hdr_decode :
    stateless (exec (.hdrDecode 0 ht0) st0) = some [⟨.ok, 0, .hdr ⟨0x40, 18, 0, 0, 1, 0,
      [0x43, 0x6F, 0x6D, 0x6D, 0x61, 0x6E, 0x64, 0x31], command1, 0⟩⟩] ∧
    stateless (exec (.hdrDecode 0 (ht0.take 8 ++ [0x61, 0x62, 0, 0x63, 0x64, 0x65, 0x66, 0x67, 0x68, 0x69, 0x6A, 0x6B,
      0x6C, 0x6D, 0x6E, 0x6F, 0x78, 0x56, 0x34, 0x12])) st0) =
      some [⟨.ok, 0, .hdr ⟨0x40, 18, 0, 0, 1, 0, [0x61, 0x62], [0x61, 0x62], 0x12345678⟩⟩] := by decide

/-- L2-HD-2, L2-HD-16, L2-HD-17, L2-HD-18, L2-HD-15, L2-HD-11a. -/
theorem test_hdr_decode_checks :
    stateless (exec (.hdrDecode 0 (ht0.take 27)) st0) = some [⟨.malformedHeader, 1, .none⟩] ∧
    stateless (exec (.hdrDecode 0 ((ht0.set 0 0).set 4 0x80)) st0) = some [⟨.malformedHeader, 2, .none⟩] ∧
    stateless (exec (.hdrDecode 0 ((ht0.set 4 0x60).set 7 0x30)) st0) = some [⟨.unsupportedProtocol, 0, .none⟩] ∧
    stateless (exec (.hdrDecode 0 ((ht0.set 4 0x5F).set 7 0x30)) st0) = some [⟨.malformedHeader, 4, .none⟩] ∧
    stateless (exec (.hdrDecode 0 ((ht0.set 4 0x5F).set 7 0x0F)) st0) = some [⟨.unknownCode, 2, .none⟩] ∧
    (decodeHeader registryContents false ((ht0.set 4 0x15).set 7 0)).toOption.isSome = true := by decide

/-- L2-PK-5, L2-PK-6. -/
theorem test_pkt_create :
    stateless (exec (.pktCreate 0 (ht0.take 27) [0x78, 0x79]) st0) = some [⟨.ok, 0, .dg (ht0.take 27 ++ [0x78, 0x79])⟩] ∧
    stateless (exec (.pktCreate 0 (ht [7, 0, 0, 0]) [0x68, 0x69]) st0) =
      some [⟨.ok, 0, .dg (ht [7, 0, 0, 0] ++ [0x68, 0x69])⟩] := by decide

/-- L2-PK-3. -/
theorem test_pkt_create_too_large :
    createPacket ht0 (List.replicate 1409 0) = .error (payloadTooLarge 1) := by
  rw [createPacket, if_pos (by rw [List.length_replicate]; decide)]

/-- L2-PK-7, L2-PK-11, L2-PK-13. -/
theorem test_pkt_decode :
    stateless (exec (.pktDecode 0 t3) st0) = some [⟨.ok, 0, .packet ⟨0x40, 18, 0, 0, 1, 0,
      [0x43, 0x6F, 0x6D, 0x6D, 0x61, 0x6E, 0x64, 0x31], command1, 0⟩ [0x61, 0x62, 0x63]⟩] ∧
    stateless (exec (.pktDecode 0 (ht0.take 20)) st0) = some [⟨.malformedHeader, 1, .none⟩] ∧
    stateless (exec (.pktDecode 0 (ht0.set 4 0x60 ++ [0x7A, 0x7A])) st0) =
      some [⟨.unsupportedProtocol, 0, .none⟩] := by decide

/-- L2-BUF-1, L2-BUF-4. -/
theorem test_buffer :
    ([0x61, 0x62, 0x63, 0x64, 0x65].foldlM bufAppend (bufInit 0 false)).toOption =
      some ⟨[0x61, 0x62, 0x63, 0x64, 0x65], 8, false⟩ ∧
    [0x61, 0x62, 0x63].foldlM bufAppend (bufInit 2 true) = .error (bufferTooLarge 1) := by decide

/-- L2-FR-21 and L2-FR-22: a fresh stream; Service is refused. -/
theorem test_fr_open :
    frAt 1 (exec (.frOpen 1 open1) st0) = some ⟨true, [], 0, [], [⟨.ok, 0, .none⟩]⟩ ∧
    frAt 1 (exec (.frOpen 1 { open1 with protocol := 0x60 }) st0) =
      some ⟨false, [], 0, [], [⟨.unsupportedProtocol, 0, .none⟩]⟩ := by decide

/-- L2-FR-21: the default name of a Text stream. -/
theorem test_fr_open_name : (openCfg open1).name.toList =
    [0x43, 0x6F, 0x6D, 0x6D, 0x61, 0x6E, 0x64, 0x31, 0, 0, 0, 0, 0, 0, 0, 0] := by decide

/-- L2-FR-1: up to the send, then on from the answer. -/
theorem test_fr_write :
    frAt 0 (exec (.frWrite 0 [0x61, 0x62, 0x0A, 0x63, 0x64]) st0) =
      some ⟨true, [0x61, 0x62, 0x0A], 1, [ht0 ++ [0x61, 0x62, 0x0A]], []⟩ ∧
    frAt 0 (thenOn (.tx 0 true) (exec (.frWrite 0 [0x61, 0x62, 0x0A, 0x63, 0x64]) st0)) =
      some ⟨true, [0x63, 0x64], 1, [ht0 ++ [0x61, 0x62, 0x0A]], [⟨.ok, 0, .consumed 5⟩]⟩ := by decide

/-- L2-FR-24: the newline flush fails. -/
theorem test_fr_write_fails :
    frAt 0 (thenOn (.tx 0 false) (exec (.frWrite 0 [0x61, 0x62, 0x0A, 0x63, 0x64]) st0)) =
      some ⟨true, [0x61, 0x62, 0x0A], 1, [ht0 ++ [0x61, 0x62, 0x0A]], [⟨.transportError, 0, .consumed 3⟩]⟩ := by
  decide

/-- L2-FR-8: the counter wraps. -/
theorem test_fr_flush :
    frAt 0 (exec (.frFlush 0) (st .fill (textFramer [] 0 0xFFFFFFFF) (textDeframer [] 0 []))) =
      some ⟨true, [], 0, [ht [0xFF, 0xFF, 0xFF, 0xFF]], []⟩ := by decide

/-- L2-FR-15, L2-FR-13. -/
theorem test_fr_send_data :
    frAt 0 (exec (.frSendData 0 (.chars [0xE9, 0x20AC, 0x1F600])) st0) =
      some ⟨true, [0xC3, 0xA9, 0xE2, 0x82, 0xAC, 0xF0, 0x9F, 0x98, 0x80], 1,
        [ht0 ++ [0xC3, 0xA9, 0xE2, 0x82, 0xAC, 0xF0, 0x9F, 0x98, 0x80]], []⟩ ∧
    frAt 0 (exec (.frSendData 0 (.chars [0x7A])) (st .fill (textFramer [0x78, 0x79] 2 0) (textDeframer [] 0 []))) =
      some ⟨true, [0x78, 0x79, 0x7A], 1, [ht0 ++ [0x78, 0x79, 0x7A]], []⟩ := by decide

/-- L2-FR-14: an empty value sends nothing. -/
theorem test_fr_send_data_empty :
    frAt 0 (exec (.frSendData 0 (.chars [])) st0) = some ⟨true, [], 0, [], [⟨.ok, 0, .consumed 0⟩]⟩ := by decide

/-- L2-FR-18, L2-FR-20. -/
theorem test_fr_close :
    frAt 0 (exec (.frClose 0) (st .fill (textFramer [0x63, 0x64] 2 1) (textDeframer [] 0 []))) =
      some ⟨false, [], 1, [], [⟨.ok, 0, .none⟩]⟩ ∧
    frAt 1 (exec (.frWrite 1 [0x61]) st0) = some ⟨false, [], 0, [], [⟨.streamClosed, 0, .consumed 0⟩]⟩ := by decide

/-- L2-DF-13, L2-DF-14, L2-DF-15: DF_OPEN. -/
theorem test_df_open :
    dfAt 1 (exec (.dfOpen 1 0x20) st0) = some ⟨true, [], 0, 0, [⟨.ok, 0, .none⟩]⟩ ∧
    dfAt 1 (exec (.dfOpen 1 0x60) st0) = some ⟨false, [], 0, 0, [⟨.unsupportedProtocol, 0, .none⟩]⟩ ∧
    dfAt 1 (exec (.dfOpen 1 0x01) st0) = some ⟨false, [], 0, 0, [⟨.unknownCode, 0, .none⟩]⟩ := by decide

/-- L2-DF-8: no protocol check; L2-DF-17: closed. -/
theorem test_df_read_packet :
    dfAt 0 (exec (.dfReadPacket 0) (st .fill (textFramer [] 0 0) (textDeframer [] 0 [ha0 ++ [1, 2]]))) =
      some ⟨true, [], 0, 0, [⟨.ok, 0, .packet ⟨0, 3, 0, 0, 1, 0, [0x53, 0x74, 0x72, 0x65, 0x61, 0x6D, 0x31],
        [0x53, 0x74, 0x72, 0x65, 0x61, 0x6D, 0x31], 0⟩ [1, 2]⟩]⟩ ∧
    dfAt 1 (exec (.dfReadPacket 1) st0) = some ⟨false, [], 0, 0, [⟨.streamClosed, 0, .none⟩]⟩ := by decide

/-- L2-DF-7 and L2-DF-10: the typed value's checks. -/
theorem test_df_read_data :
    dfAt 0 (exec (.dfReadData 0) (st .fill (textFramer [] 0 0) (textDeframer [] 0 [ha0 ++ [1, 2], t3]))) =
      some ⟨true, [], 0, 1, [⟨.protocolMismatch, 0, .none⟩]⟩ ∧
    dfAt 0 (exec (.dfReadData 0) (st .fill (textFramer [] 0 0) (textDeframer [] 0 [t3.set 4 0x72]))) =
      some ⟨true, [], 0, 0, [⟨.unsupportedProtocol, 0, .none⟩]⟩ := by decide

/-- L2-DF-13's DF_READ_DATA: a Serial value and its characters. -/
theorem test_df_read_data_serial : dataAnswer registryContents 0x20
    ([0x56, 0x42, 0x41, 0x4E, 0x32, 0xFF, 0xFF, 0, 0x4D, 0x49, 0x44, 0x49, 0x31] ++ List.replicate 15 0 ++ [0x41, 0x42]) =
    ⟨.ok, 0, .typed 0x20 [0x41, 0x42] (some [0x41, 0x42])⟩ := by decide

/-- L2-DF-1, L2-DF-5, L2-DF-1b under `fill`. -/
theorem test_df_read_fill :
    dfAt 0 (exec (.dfRead 0 5) (st .fill (textFramer [] 0 0) (textDeframer [] 0 [t3, t4]))) =
      some ⟨true, [0x64, 0x65, 0x66, 0x67], 2, 0, [⟨.ok, 0, .data [0x61, 0x62, 0x63, 0x64, 0x65]⟩]⟩ ∧
    dfAt 0 (exec (.dfRead 0 5) (st .fill (textFramer [] 0 0) (textDeframer [] 0 [t3, bad, t4]))) =
      some ⟨true, [], 0, 1, [⟨.malformedHeader, 2, .none⟩]⟩ ∧
    dfAt 0 (exec (.dfRead 0 1) (st .fill (textFramer [] 0 0) (textDeframer [0x64, 0x65, 0x66, 0x67] 4 []))) =
      some ⟨true, [], 0, 0, []⟩ := by decide

/-- L2-DF-2, L2-DF-3, L2-DF-4 under `partial`. -/
theorem test_df_read_partial :
    dfAt 0 (exec (.dfRead 0 5) (st .part (textFramer [] 0 0) (textDeframer [] 0 [t3, t4]))) =
      some ⟨true, [0x61, 0x62, 0x63], 3, 1, [⟨.ok, 0, .data [0x61, 0x62, 0x63]⟩]⟩ ∧
    dfAt 0 (exec (.dfRead 0 0) (st .part (textFramer [] 0 0) (textDeframer [] 0 [t3]))) =
      some ⟨true, [], 0, 1, [⟨.ok, 0, .data []⟩]⟩ ∧
    dfAt 0 (exec (.dfRead 0 2) (st .part (textFramer [] 0 0) (textDeframer [] 0 [ht0, t4]))) =
      some ⟨true, [0x64, 0x65, 0x66, 0x67], 2, 0, [⟨.ok, 0, .data [0x64, 0x65]⟩]⟩ := by decide

/-- L2-DF-16. -/
theorem test_df_close :
    dfAt 0 (exec (.dfClose 0) (st .fill (textFramer [] 0 0) (textDeframer [0x64, 0x65, 0x66, 0x67] 2 []))) =
      some ⟨false, [], 0, 0, [⟨.ok, 0, .none⟩]⟩ := by decide

/-- Both outcomes of L2-DF-19, as the two values of the free choice. -/
theorem test_df_close_during_read :
    (closeDeframer true waitingDeframer).results = [⟨.ok, 0, .none⟩, ⟨.streamClosed, 1, .none⟩] ∧
    (arriveDeframer (params .fill) registryContents t4 (closeDeframer false waitingDeframer)).rx = [] ∧
    (arriveDeframer (params .fill) registryContents t4 (closeDeframer false waitingDeframer)).results =
      [⟨.ok, 0, .none⟩, ⟨.ok, 0, .data [0x64, 0x65, 0x66]⟩] := by decide

/-- L2-IL-2, L2-IL-4, L2-IL-5. -/
theorem test_illegal :
    stateless (stepOn (.command 0x0003 .none) st0) = some [⟨.illegalCommand, 1, .none⟩] ∧
    stateless (stepOn (.command 0x0231 (.data [])) st0) = some [⟨.illegalCommand, 2, .consumed 0⟩] ∧
    stateless (stepOn (.command 0xFF44 .none) st0) = some [⟨.illegalCommand, 2, .none⟩] := by decide

/-- R309, R318: broken duties. -/
theorem test_duties :
    refusalOf (stepOn (.tx 0 true) st0) = some .unsolicitedAnswer ∧
    refusalOf (stepOn (.rx 2 t3) st0) = some .noSuchPort ∧
    refusalOf (exec (.frOpen 0 open1) st0) = some .alreadyOpen ∧
    refusalOf (exec (.dfOpen 0 0x40) (st .fill (textFramer [] 0 0) { textDeframer [] 0 [] with
      isOpen := false, wait := .rxPending .readPacket })) = some .instanceBusy := by decide

/-! ## Witnesses: states and operands that meet the hypotheses of each obligation, clause by clause -/

/-- The record of an Audio stream with its own name, at the ends of its ranges. -/
def openAudio : StreamRecord := ⟨0x00, 20, 7, 0xF0, 255, 0, true, [0x41], 1⟩

/-- The record of a Serial stream with the default name. -/
def openSerial : StreamRecord := ⟨0x20, 24, 0, 0x10, 0, 255, false, [], 2⟩

/-- An Audio stream's record with the default name. -/
def openAudioDefault : StreamRecord := { openAudio with nameSet := false }

/-- A Text framer whose buffer is as full as it may be. -/
def fullFramer : Framer := textFramer (List.replicate 1408 0x61) 1408 0

theorem full_length : fullFramer.buf.bytes.length = 1408 := List.length_replicate ..

/-- A Text framer that waits in `send` with this left to do. -/
def sendingFramer (c : FrCont) : Framer :=
  { textFramer [0x61] 1 8 with wait := .txPending (ht [7, 0, 0, 0] ++ [0x61]) 7 c }

/-- The block with this as FR[0], the rest as in `st0`. -/
def withFramer (f : Framer) : State := st .fill f (textDeframer [] 0 [])

/-- The block with this as DF[0], the rest as in `st0`. -/
def withDeframer (d : Deframer) : State := st .fill (textFramer [] 0 0) d

theorem legal0 : registriesLegal st0.registries := registryContents_legal

theorem encodable_text : encodable 0x40 18 0 0 1 0 :=
  ⟨by decide, by decide, .inr (.inr rfl), ⟨.bitsPerSecond, by decide, by decide⟩, ⟨.commandFormat, by decide, by decide⟩,
    by decide⟩

theorem encodable_audio : encodable 0x00 20 255 0 7 0xF0 :=
  ⟨by decide, by decide, .inl rfl, ⟨.sampleRate, by decide, by decide⟩, ⟨.audioFormat, by decide, by decide⟩, by decide⟩

theorem encodable_serial : encodable 0x20 24 0 255 0 0x10 :=
  ⟨by decide, by decide, .inr (.inl rfl), ⟨.bitsPerSecond, by decide, by decide⟩, ⟨.format, by decide, by decide⟩,
    by decide⟩

theorem decodable_ht0 : decodable true ht0 := by
  unfold decodable
  exact ⟨by decide, by decide, .inr (.inr (by decide)), by decide,
    fun _ => ⟨.bitsPerSecond, .commandFormat, by decide, by decide, by decide, by decide⟩⟩

theorem good_t3 : goodDatagram t3 [0x61, 0x62, 0x63] := ⟨decodable_ht0, by decide, by decide⟩
theorem good_t4 : goodDatagram t4 [0x64, 0x65, 0x66, 0x67] := ⟨decodable_ht0, by decide, by decide⟩
theorem good_empty : goodDatagram ht0 [] := ⟨decodable_ht0, by decide, by decide⟩

theorem witness_WaitsUnchangedWithoutEvents : st0.events = [] := rfl

theorem witness_RegistriesFullFromResetAndNeverWritten : ∃ s t, step s = .next t := ⟨st0, st0, rfl⟩

theorem witness_ParametersAndInstanceCountsFixed : ∃ s t, step s = .next t := ⟨st0, st0, rfl⟩

theorem witness_StepRunsTheDecodedCommand : ∃ (s : State) (w : BitVec 16) (r : OperandRecord) (rest : List Event)
    (i : Instr), s.events = .command w r :: rest ∧ decode w r = .ok i ∧ i.wellFormed = true :=
  ⟨{ st0 with events := [.command 0x0131 (.data [0x61])] }, 0x0131, .data [0x61], [], .frWrite 1 [0x61], rfl, by decide,
    by decide⟩

theorem witness_DecodeAndEncodeAgree : decode 0x0131 (.data [0x61]) = .ok (.frWrite 1 [0x61]) ∧
    encode (.frWrite 1 [0x61]) = (0x0131, .data [0x61]) := by decide

/-- Each range of reserved opcodes at both ends; both ranges of instance opcodes at both ends, with the first `inst`
past the two instances there are; a stateless command under two values of `inst`. -/
theorem witness_ReservedWordsAreIllegalCommands :
    ({ st0 with events := [.command 0x0003 .none] } : State).events = .command 0x0003 .none :: [] ∧
    (∀ op ∈ ([0x00, 0x03, 0x0F, 0x12, 0x1F, 0x22, 0x2F, 0x35, 0x3F, 0x45, 0xFF] : List Byte), reservedOp op) ∧
    (0x30 ≤ (opField 0x0230).toNat ∧ (opField 0x0230).toNat ≤ 0x34 ∧ st0.frs.length ≤ (instField 0x0230).toNat) ∧
    (0x30 ≤ (opField 0xFF34).toNat ∧ (opField 0xFF34).toNat ≤ 0x34 ∧ st0.frs.length ≤ (instField 0xFF34).toNat) ∧
    (0x40 ≤ (opField 0x0240).toNat ∧ (opField 0x0240).toNat ≤ 0x44 ∧ st0.dfs.length ≤ (instField 0x0240).toNat) ∧
    (0x40 ≤ (opField 0xFF44).toNat ∧ (opField 0xFF44).toNat ≤ 0x44 ∧ st0.dfs.length ≤ (instField 0xFF44).toNat) ∧
    statelessOp (opField 0x0001) ∧ statelessOp (opField 0x0021) ∧ opField 0xFF01 = opField 0x0001 := by
  unfold reservedOp statelessOp; decide

theorem witness_RegLookupAnswers : registriesLegal st0.registries ∧ dimNumber .codec = 6 ∧
    0xF0 ∈ Config.codes .codec ∧ 0x30 ∉ Config.codes .codec ∧ dimNumber .protocol = 0 ∧ 0x60 ∈ Config.codes .protocol ∧
    20 ∈ Config.codes .sampleRate ∧ 21 ∉ Config.codes .sampleRate ∧ 24 ∈ Config.codes .bitsPerSecond ∧
    25 ∉ Config.codes .bitsPerSecond := ⟨legal0, by decide⟩

theorem witness_RegDimsAnswers : registriesLegal st0.registries := legal0

/-- One witness for each check: samples, channel, protocol unknown, Service, rate, format, codec. -/
theorem witness_EncodeChecksDecideInOrder :
    (registriesLegal st0.registries ∧ st0.frs[(1 : Byte).toNat]? = some (Framer.reset (params .fill)) ∧
      (Framer.reset (params .fill)).wait = .idle ∧ (Framer.reset (params .fill)).isOpen = false) ∧
    encodeFails 0x40 18 256 (-1) 1 0 .outOfRange 1 ∧ encodeFails 0x40 18 0 (-1) 1 0 .outOfRange 2 ∧
    encodeFails 0x80 18 0 0 1 0 .unknownCode 0 ∧ encodeFails 0x60 18 0 0 1 0 .unsupportedProtocol 0 ∧
    encodeFails 0x40 25 0 0 3 0x30 .unknownCode 2 ∧ encodeFails 0x40 18 0 0 3 0x30 .unknownCode 5 ∧
    encodeFails 0x40 18 255 255 1 0x30 .unknownCode 6 := by
  refine ⟨⟨legal0, rfl, rfl, rfl⟩, .inl (by decide), .inr ⟨by decide, .inl (by decide)⟩,
    .inr ⟨by decide, .inr ⟨by decide, .inl (by decide)⟩⟩, .inr ⟨by decide, .inr ⟨by decide, .inr (.inl (by decide))⟩⟩,
    .inr ⟨by decide, .inr ⟨by decide, .inr (.inr ⟨.bitsPerSecond, .commandFormat, by decide, by decide, .inl (by decide)⟩)⟩⟩,
    .inr ⟨by decide, .inr ⟨by decide, .inr (.inr ⟨.bitsPerSecond, .commandFormat, by decide, by decide,
      .inr ⟨by decide, .inl (by decide)⟩⟩)⟩⟩,
    .inr ⟨by decide, .inr ⟨by decide, .inr (.inr ⟨.bitsPerSecond, .commandFormat, by decide, by decide,
      .inr ⟨by decide, .inr (by decide)⟩⟩)⟩⟩⟩

theorem witness_HdrEncodeAnswersTheHeader : registriesLegal st0.registries ∧
    encodable rec1.protocol rec1.rate rec1.samples rec1.channel rec1.format rec1.codec ∧
    encodable 0x00 20 255 0 7 0xF0 ∧ encodable 0x20 24 0 255 0 0x10 :=
  ⟨legal0, encodable_text, encodable_audio, encodable_serial⟩

/-- One witness for each step of decode validation: length, magic, protocol, Service, codec, rate, format. -/
theorem witness_DecodeChecksDecideInOrder : registriesLegal st0.registries ∧ decodable true ht0 ∧
    decodeFails true (ht0.take 27) .malformedHeader 1 ∧ decodeFails true (ht0.set 0 0) .malformedHeader 2 ∧
    decodeFails true (ht0.set 4 0x80) .malformedHeader 3 ∧ decodeFails true (ht0.set 4 0x7F) .unsupportedProtocol 0 ∧
    decodeFails true (ht0.set 7 0x30) .malformedHeader 4 ∧ decodeFails true (ht0.set 4 0x59) .unknownCode 2 ∧
    decodeFails true (ht0.set 7 0x03) .unknownCode 5 := by
  unfold decodeFails
  refine ⟨legal0, decodable_ht0, .inl (by decide), .inr ⟨by decide, .inl (by decide)⟩,
    .inr ⟨by decide, .inr ⟨by decide, .inl (by decide)⟩⟩, .inr ⟨by decide, .inr ⟨by decide, .inr (.inl (by decide))⟩⟩,
    .inr ⟨by decide, .inr ⟨by decide, .inr (.inr (.inl ⟨.inr (.inr (by decide)), by decide⟩))⟩⟩,
    .inr ⟨by decide, .inr ⟨by decide, .inr (.inr (.inr ⟨rfl, by decide, .bitsPerSecond, .commandFormat, by decide,
      by decide, .inl (by decide)⟩))⟩⟩,
    .inr ⟨by decide, .inr ⟨by decide, .inr (.inr (.inr ⟨rfl, by decide, .bitsPerSecond, .commandFormat, by decide,
      by decide, .inr (by decide)⟩))⟩⟩⟩

theorem witness_HdrDecodeAnswersTheFields : registriesLegal st0.registries ∧ decodable true ht0 :=
  ⟨legal0, decodable_ht0⟩

theorem witness_HeaderRoundTrip : registriesLegal st0.registries ∧
    encodable rec1.protocol rec1.rate rec1.samples rec1.channel rec1.format rec1.codec ∧ rec1.name.length ≤ 16 ∧
    (∀ c ∈ rec1.name, 1 ≤ c.toNat ∧ c.toNat ≤ 0x7F) :=
  ⟨legal0, encodable_text, by decide, by simp [rec1, command1]⟩

theorem witness_WrongMagicIsMalformed :
    (ht0.set 3 0x4D).length = 28 ∧ (ht0.set 3 0x4D).take 4 ≠ [0x56, 0x42, 0x41, 0x4E] := by decide

theorem witness_ServiceNeverDecodes : (registriesLegal st0.registries ∧ (ht0.set 4 0x7F).length = 28 ∧
    (ht0.set 4 0x7F).take 4 = [0x56, 0x42, 0x41, 0x4E] ∧ (byteAt (ht0.set 4 0x7F) 4).toNat / 32 = 3) ∧
    ∃ h, decodeHeader registryContents true ht0 = .ok h := ⟨⟨legal0, by decide⟩, _, rfl⟩

theorem witness_PktCreateJoinsOrRefuses : ht0.length + (List.replicate 1408 (0x61 : Byte)).length ≤ 1436 ∧
    1436 < ht0.length + (List.replicate 1409 (0x61 : Byte)).length := by
  rw [List.length_replicate, List.length_replicate]; decide

theorem witness_PktDecodeSplitsAndValidates : registriesLegal st0.registries ∧
    decodeFails true ((ht0.take 27).take 28) .malformedHeader 1 ∧
    (decodable true ((ht0 ++ List.replicate 1409 (0 : Byte)).take 28) ∧
      1436 < (ht0 ++ List.replicate 1409 (0 : Byte)).length) ∧
    (decodable true ((ht0 ++ List.replicate 1408 (0 : Byte)).take 28) ∧
      (ht0 ++ List.replicate 1408 (0 : Byte)).length ≤ 1436) := by
  have h28 : ht0.length = 28 := by decide
  refine ⟨legal0, .inl (by decide), ⟨?_, ?_⟩, ⟨?_, ?_⟩⟩
  · rw [List.take_append_of_le_length (by rw [h28])]; exact decodable_ht0
  · rw [List.length_append, List.length_replicate, h28]; decide
  · rw [List.take_append_of_le_length (by rw [h28])]; exact decodable_ht0
  · rw [List.length_append, List.length_replicate, h28]

theorem witness_PacketLaws : exec (.pktCreate 0 [1] [2]) st0 = .next (st0.report ⟨.ok, 0, .dg [1, 2]⟩) ∧
    registriesLegal st0.registries ∧ encodable 0x40 18 0 0 1 0 ∧ (List.replicate 1408 (0x61 : Byte)).length ≤ 1408 :=
  ⟨rfl, legal0, encodable_text, by rw [List.length_replicate]⟩

theorem witness_BufAppendGrowsOrFails :
    (GrowBuf.mk [] 1 false).bytes.length ≠ (GrowBuf.mk [] 1 false).cap ∧
    ((GrowBuf.mk [] 0 false).bytes.length = (GrowBuf.mk [] 0 false).cap ∧ (GrowBuf.mk [] 0 false).fixed = false) ∧
    ((GrowBuf.mk [1, 2] 2 false).bytes.length = (GrowBuf.mk [1, 2] 2 false).cap ∧
      (GrowBuf.mk [1, 2] 2 false).fixed = false) ∧
    ((GrowBuf.mk [1, 2] 2 true).bytes.length = (GrowBuf.mk [1, 2] 2 true).cap ∧
      (GrowBuf.mk [1, 2] 2 true).fixed = true) := by decide

theorem witness_AppendsKeepContentsAndCapacity : (bufInit 0 false).bytes = [] ∧ (bufInit 0 false).fixed = false := by decide

/-- An open instance; the closed FR[1] with operands that fail the first and the last check; and on it the records of a
name that is set and of each default name. -/
theorem witness_FrOpenStartsAFreshStream :
    (st0.frs[(0 : Byte).toNat]? = some (textFramer [] 0 0) ∧ (textFramer [] 0 0).wait = .idle ∧
      (textFramer [] 0 0).isOpen = true) ∧
    encodeFails 0x40 18 256 (-1) 1 0 .outOfRange 1 ∧ encodeFails 0x40 18 255 255 1 0x30 .unknownCode 6 ∧
    (registriesLegal st0.registries ∧ st0.frs[(1 : Byte).toNat]? = some (Framer.reset (params .fill)) ∧
      (Framer.reset (params .fill)).wait = .idle ∧ (Framer.reset (params .fill)).isOpen = false) ∧
    (encodable openAudio.protocol openAudio.rate openAudio.samples openAudio.channel openAudio.format openAudio.codec ∧
      openAudio.nameSet = true) ∧
    (encodable 0x00 20 255 0 7 0xF0 ∧ openAudioDefault.nameSet = false ∧ openAudioDefault.protocol = 0x00) ∧
    (encodable openSerial.protocol openSerial.rate openSerial.samples openSerial.channel openSerial.format
      openSerial.codec ∧ openSerial.nameSet = false ∧ openSerial.protocol = 0x20) ∧
    (encodable open1.protocol open1.rate open1.samples open1.channel open1.format open1.codec ∧
      open1.nameSet = false ∧ open1.protocol = 0x40) :=
  ⟨⟨rfl, rfl, rfl⟩, witness_EncodeChecksDecideInOrder.2.1, witness_EncodeChecksDecideInOrder.2.2.2.2.2.2.2,
    ⟨legal0, rfl, rfl, rfl⟩, ⟨encodable_audio, rfl⟩, ⟨encodable_audio, rfl, rfl⟩, ⟨encodable_serial, rfl, rfl⟩,
    encodable_text, rfl, rfl⟩

theorem witness_FactoryHeaderIsHdrEncode : registriesLegal st0.registries ∧
    st0.frs[(1 : Byte).toNat]? = some (Framer.reset (params .fill)) ∧
    (Framer.reset (params .fill)).isOpen = false ∧
    encodable open1.protocol open1.rate open1.samples open1.channel open1.format open1.codec ∧
    ∃ t, exec (.frOpen 1 open1) st0 = .next t := ⟨legal0, rfl, rfl, encodable_text, _, rfl⟩

/-- The five clauses: a buffer of 1408 bytes, of 1409, of 1437, and the two answers to a pending send. -/
theorem witness_FrFlushSendsOnePacket :
    ((withFramer fullFramer).frs[(0 : Byte).toNat]? = some fullFramer ∧ fullFramer.isOpen = true ∧
      fullFramer.wait = .idle ∧ fullFramer.buf.bytes.length ≤ 1408) ∧
    (let f := textFramer (List.replicate 1409 0x61) 1409 0;
      (withFramer f).frs[(0 : Byte).toNat]? = some f ∧ f.isOpen = true ∧ f.wait = .idle ∧
      1408 < f.buf.bytes.length ∧ f.buf.bytes.length ≤ 1436) ∧
    (let f := textFramer (List.replicate 1437 0x61) 1437 0;
      (withFramer f).frs[(0 : Byte).toNat]? = some f ∧ f.isOpen = true ∧ f.wait = .idle ∧
      1436 < f.buf.bytes.length) ∧
    (∀ ok, let s := { withFramer (sendingFramer .flush) with events := [.tx 0 ok] };
      s.frs[(0 : Byte).toNat]? = some (sendingFramer .flush) ∧ (sendingFramer .flush).isOpen = true ∧
      (sendingFramer .flush).wait = .txPending (ht [7, 0, 0, 0] ++ [0x61]) 7 .flush ∧
      s.events = .tx (0 : Byte).toNat ok :: []) := by
  refine ⟨⟨rfl, rfl, rfl, ?_⟩, ⟨rfl, rfl, rfl, ?_, ?_⟩, ⟨rfl, rfl, rfl, ?_⟩, fun _ => ⟨rfl, rfl, rfl, rfl⟩⟩
  · exact (List.length_replicate ..).le
  · exact lt_of_lt_of_eq (by decide) (List.length_replicate ..).symm
  · exact (List.length_replicate ..).le.trans (by decide)
  · exact lt_of_lt_of_eq (by decide) (List.length_replicate ..).symm

theorem witness_FailedFlushEndsTheWrite :
    (∀ kind, let c := FrCont.write kind [0x62] 3;
      let s := { withFramer (sendingFramer c) with events := [.tx 0 false] };
      s.frs[0]? = some (sendingFramer c) ∧ (sendingFramer c).wait = .txPending (ht [7, 0, 0, 0] ++ [0x61]) 7 c ∧
      s.events = .tx 0 false :: []) ∧
    (let c := FrCont.trailing 3;
      let s := { withFramer (sendingFramer c) with events := [.tx 0 false] };
      s.frs[0]? = some (sendingFramer c) ∧ (sendingFramer c).wait = .txPending (ht [7, 0, 0, 0] ++ [0x61]) 7 c ∧
      s.events = .tx 0 false :: []) := ⟨fun _ => ⟨rfl, rfl, rfl⟩, rfl, rfl, rfl⟩

theorem witness_FrWriteBuffersWhatFits : ∃ (data : List Byte) (f : Framer),
    (withFramer f).frs[(0 : Byte).toNat]? = some f ∧ f.isOpen = true ∧ f.wait = .idle ∧ f.buf.fixed = false ∧
    (0x0A : Byte) ∉ data ∧ f.buf.bytes.length + data.length = 1408 := by
  refine ⟨[0x61, 0x62, 0x63], textFramer (List.replicate 1405 0x61) 2048 0, rfl, rfl, rfl, rfl, by decide, ?_⟩
  exact congrArg (· + 3) (List.length_replicate ..)

/-- With nothing and with something left after the newline, which is the byte that fills the buffer. -/
theorem witness_FrWriteFlushesAtNewline : ∀ rest ∈ ([[], [0x62]] : List (List Byte)), ∃ (before : List Byte) (f : Framer),
    (withFramer f).frs[(0 : Byte).toNat]? = some f ∧ f.isOpen = true ∧ f.wait = .idle ∧ f.buf.fixed = false ∧
    (0x0A : Byte) ∉ before ∧ f.buf.bytes.length + before.length + 1 = 1408 ∧ (rest = [] ∨ rest ≠ []) := by
  intro rest _
  refine ⟨[0x61], textFramer (List.replicate 1406 0x61) 2048 0, rfl, rfl, rfl, rfl, by decide, ?_, em _⟩
  exact congrArg (· + 2) (List.length_replicate ..)

theorem witness_FrWriteFlushesBeforeOverflow : ∃ (before : List Byte) (f : Framer),
    (withFramer f).frs[(0 : Byte).toNat]? = some f ∧ f.isOpen = true ∧ f.wait = .idle ∧ f.buf.fixed = false ∧
    (0x0A : Byte) ∉ before ∧ f.buf.bytes.length + before.length = 1408 :=
  ⟨[], fullFramer, rfl, rfl, rfl, rfl, by decide, by rw [full_length, List.length_nil]⟩

theorem witness_FrWriteRunsAsTheRuleReads : (withFramer fullFramer).frs[(0 : Byte).toNat]? = some fullFramer ∧
    fullFramer.isOpen = true ∧ fullFramer.wait = .idle ∧ fullFramer.buf.fixed = false ∧
    fullFramer.buf.bytes.length ≤ 1408 := ⟨rfl, rfl, rfl, rfl, (List.length_replicate ..).le⟩

/-- A Text stream with characters, and a Serial stream with bytes. -/
theorem witness_FrSendDataWritesThenFlushes :
    (let f := textFramer [] 0 0;
      (withFramer f).frs[(0 : Byte).toNat]? = some f ∧ f.isOpen = true ∧ f.wait = .idle ∧ f.buf.fixed = false ∧
      f.buf.bytes.length ≤ 1408 ∧ (SendValue.chars [0xE9]).wellFormed = true ∧ f.cfg.protocol = 0x40 ∧
      ∃ cs, SendValue.chars [0xE9] = .chars cs ∧ [0xC3, 0xA9] = utf8Encode cs) ∧
    (let f := { textFramer [] 0 0 with cfg := openCfg openSerial };
      (withFramer f).frs[(0 : Byte).toNat]? = some f ∧ f.isOpen = true ∧ f.wait = .idle ∧ f.buf.fixed = false ∧
      f.buf.bytes.length ≤ 1408 ∧ (SendValue.bytes [0xC3]).wellFormed = true ∧ f.cfg.protocol ≠ 0x40 ∧
      SendValue.bytes [0xC3] = .bytes [0xC3]) :=
  ⟨⟨rfl, rfl, rfl, rfl, by decide, by decide, rfl, _, rfl, by decide⟩, rfl, rfl, rfl, rfl, by decide, by decide,
    by decide, rfl⟩

/-- A value that ends in a newline and fills the buffer, on a Text and on a Serial stream. -/
theorem witness_FrSendDataHandsOverOnePacket :
    (let f := textFramer (List.replicate 1406 0x61) 2048 0;
      (withFramer f).frs[(0 : Byte).toNat]? = some f ∧ f.isOpen = true ∧ f.wait = .idle ∧ f.buf.fixed = false ∧
      (f.cfg.protocol = 0x40 ∧ ∃ cs, SendValue.chars [0x62, 0x0A] = .chars cs ∧ [0x62, 0x0A] = utf8Encode cs) ∧
      ([0x62, 0x0A] : List Byte) ≠ [] ∧ (0x0A : Byte) ∉ ([0x62, 0x0A] : List Byte).dropLast ∧
      f.buf.bytes.length + ([0x62, 0x0A] : List Byte).length ≤ 1408) ∧
    (let f := { textFramer [] 0 0 with cfg := openCfg openSerial };
      (withFramer f).frs[(0 : Byte).toNat]? = some f ∧ f.isOpen = true ∧ f.wait = .idle ∧ f.buf.fixed = false ∧
      f.cfg.protocol ≠ 0x40 ∧ SendValue.bytes [0xC3] = .bytes [0xC3] ∧ ([0xC3] : List Byte) ≠ [] ∧
      (0x0A : Byte) ∉ ([0xC3] : List Byte).dropLast ∧ f.buf.bytes.length + ([0xC3] : List Byte).length ≤ 1408) := by
  refine ⟨⟨rfl, rfl, rfl, rfl, ⟨rfl, _, rfl, by decide⟩, by decide, by decide, ?_⟩, rfl, rfl, rfl, rfl, by decide, rfl,
    by decide, by decide, by decide⟩
  exact (congrArg (· + 2) (List.length_replicate ..)).le

theorem witness_FrCloseDropsTheBuffer :
    (st0.frs[(0 : Byte).toNat]? = some (textFramer [] 0 0) ∧ (textFramer [] 0 0).wait = .idle ∧
      (textFramer [] 0 0).isOpen = true) ∧
    (st0.frs[(1 : Byte).toNat]? = some (Framer.reset (params .fill)) ∧ (Framer.reset (params .fill)).wait = .idle ∧
      (Framer.reset (params .fill)).isOpen = false) := by decide

theorem witness_ClosedFramerAnswersStreamClosed : Instr.frFlush 1 ∈ [Instr.frWrite 1 [], .frFlush 1,
      .frSendData 1 (.bytes []), .frClose 1] ∧
    st0.frs[(1 : Byte).toNat]? = some (Framer.reset (params .fill)) ∧
    (Framer.reset (params .fill)).wait = .idle ∧ (Framer.reset (params .fill)).isOpen = false := by decide

theorem witness_Utf8EncodeFollowsTheTable :
    ∀ u ∈ ([0, 0x7F, 0x80, 0x7FF, 0x800, 0xD7FF, 0xE000, 0xFFFF, 0x10000, 0x10FFFF] : List CodePoint),
      isScalar u = true := by simp [isScalar]

theorem witness_DfOpenFixesTheExpectedProtocol : (registriesLegal st0.registries ∧
      st0.dfs[(1 : Byte).toNat]? = some Deframer.reset ∧ Deframer.reset.wait = .idle ∧ Deframer.reset.isOpen = false) ∧
    (streamProtocol 0x00 ∧ streamProtocol 0x20 ∧ streamProtocol 0x40) ∧ (0x60 : Byte) = 0x60 ∧
    0x01 ∉ Config.codes .protocol ∧ 0x80 ∉ Config.codes .protocol :=
  ⟨⟨legal0, rfl, rfl, rfl⟩, ⟨.inl rfl, .inr (.inl rfl), .inr (.inr rfl)⟩, rfl, by decide⟩

theorem witness_DfReadPacketAnswersTheHeadDatagram : ∀ q ∈ [[t3, bad], []],
    (withDeframer (textDeframer [] 0 q)).dfs[(0 : Byte).toNat]? = some (textDeframer [] 0 q) ∧
    (textDeframer [] 0 q).wait = .idle ∧ (textDeframer [] 0 q).isOpen = true ∧
    ((textDeframer [] 0 [t3, bad]).queue = t3 :: [bad] ∧ (textDeframer [] 0 []).queue = []) := by
  intro q _; exact ⟨rfl, rfl, rfl, rfl, rfl⟩

theorem witness_DfReadDataAnswersTheTypedValue : ∀ q ∈ [[t3, bad], []],
    registriesLegal (withDeframer (textDeframer [] 0 q)).registries ∧
    (withDeframer (textDeframer [] 0 q)).dfs[(0 : Byte).toNat]? = some (textDeframer [] 0 q) ∧
    (textDeframer [] 0 q).wait = .idle ∧ (textDeframer [] 0 q).isOpen = true ∧
    ((textDeframer [] 0 [t3, bad]).queue = t3 :: [bad] ∧ (textDeframer [] 0 []).queue = []) := by
  intro q _; exact ⟨legal0, rfl, rfl, rfl, rfl, rfl⟩

/-- An idle instance, and one with either packet read waiting, open and overtaken by a close. -/
theorem witness_ArrivingDatagramQueuesOrEndsTheRead :
    ∀ w ∈ [DfWait.idle, .rxPending .readPacket, .rxPending .readData], ∀ o : Bool,
    let d := { textDeframer [] 0 [] with wait := w, isOpen := o };
    let s := { withDeframer d with events := [.rx 0 t3] };
    s.dfs[0]? = some d ∧ s.events = .rx 0 t3 :: [] ∧ d.wait = w ∧ d.queue = [] := by
  intro w _ o; exact ⟨rfl, rfl, rfl, rfl⟩

/-- All that is unread, and no byte. -/
theorem witness_DfReadTakesFromTheView : ∀ n ∈ ([0, 2] : List (BitVec 32)),
    let d := textDeframer [0x64, 0x65, 0x66, 0x67] 2 [];
    (withDeframer d).dfs[(0 : Byte).toNat]? = some d ∧ d.wait = .idle ∧ d.isOpen = true ∧ d.cursor ≤ d.rx.length ∧
    n.toNat ≤ d.rx.length - d.cursor := by
  intro n hn
  refine ⟨rfl, rfl, rfl, by decide, ?_⟩
  rcases List.mem_cons.1 hn with rfl | hn
  · decide
  · rw [List.mem_singleton.1 hn]; decide

theorem witness_DfReadFillSpansDatagrams :
    let d := textDeframer [0x78, 0x79] 1 [ht0, t3, t4, bad];
    registriesLegal (withDeframer d).registries ∧ (withDeframer d).params.readSpan = .fill ∧
    (withDeframer d).dfs[(0 : Byte).toNat]? = some d ∧ d.wait = .idle ∧ d.isOpen = true ∧ d.cursor ≤ d.rx.length ∧
    d.queue = [ht0, t3] ++ t4 :: [bad] ∧ List.Forall₂ goodDatagram [ht0, t3] [[], [0x61, 0x62, 0x63]] ∧
    goodDatagram t4 [0x64, 0x65, 0x66, 0x67] ∧
    (unread d ++ [[], [0x61, 0x62, 0x63]].flatten).length < (5 : BitVec 32).toNat ∧
    (5 : BitVec 32).toNat ≤ (unread d ++ [[], [0x61, 0x62, 0x63]].flatten ++ [0x64, 0x65, 0x66, 0x67]).length :=
  ⟨legal0, rfl, rfl, rfl, rfl, by decide, rfl, .cons good_empty (.cons good_t3 .nil), good_t4, by decide, by decide⟩

/-- With bytes unread, and with a view read to its end. -/
theorem witness_DfReadPartialTakesOneDatagram :
    (∀ c ∈ ([1, 2] : List Nat), let d := textDeframer [0x78, 0x79] c [ht0, t3, bad];
      registriesLegal (st .part (textFramer [] 0 0) d).registries ∧
      (st .part (textFramer [] 0 0) d).params.readSpan = .part ∧
      (st .part (textFramer [] 0 0) d).dfs[(0 : Byte).toNat]? = some d ∧ d.wait = .idle ∧ d.isOpen = true ∧
      d.cursor ≤ d.rx.length ∧ 0 < (1 : BitVec 32).toNat) ∧
    (textDeframer [0x78, 0x79] 1 []).cursor < (textDeframer [0x78, 0x79] 1 []).rx.length ∧
    (let d := textDeframer [0x78, 0x79] 2 [ht0, t3, bad];
      d.cursor = d.rx.length ∧ d.queue = [ht0] ++ t3 :: [bad] ∧ (∀ e ∈ [ht0], goodDatagram e []) ∧
      goodDatagram t3 [0x61, 0x62, 0x63] ∧ ([0x61, 0x62, 0x63] : List Byte) ≠ []) := by
  refine ⟨fun c hc => ⟨legal0, rfl, rfl, rfl, rfl, ?_, by decide⟩, by decide, rfl, rfl, ?_, good_t3, by decide⟩
  · revert c; decide
  · intro e he; rw [List.mem_singleton.1 he]; exact good_empty

/-- Under fill with one byte too few, and under partial with nothing but an empty payload. -/
theorem witness_DfReadWaitsForMore :
    (let d := textDeframer [0x78, 0x79] 1 [ht0, t3]; let s := st .fill (textFramer [] 0 0) d;
      registriesLegal s.registries ∧ s.dfs[(0 : Byte).toNat]? = some d ∧ d.wait = .idle ∧ d.isOpen = true ∧
      d.cursor ≤ d.rx.length ∧ List.Forall₂ goodDatagram d.queue [[], [0x61, 0x62, 0x63]] ∧
      stillReads s.params.readSpan (5 : BitVec 32).toNat (unread d ++ [[], [0x61, 0x62, 0x63]].flatten)) ∧
    (let d := textDeframer [0x78, 0x79] 2 [ht0]; let s := st .part (textFramer [] 0 0) d;
      registriesLegal s.registries ∧ s.dfs[(0 : Byte).toNat]? = some d ∧ d.wait = .idle ∧ d.isOpen = true ∧
      d.cursor ≤ d.rx.length ∧ List.Forall₂ goodDatagram d.queue [[]] ∧
      stillReads s.params.readSpan (1 : BitVec 32).toNat (unread d ++ [[]].flatten)) :=
  ⟨⟨legal0, rfl, rfl, rfl, by decide, .cons good_empty (.cons good_t3 .nil), (by decide : 4 < 5)⟩,
    legal0, rfl, rfl, rfl, by decide, .cons good_empty .nil, by decide, rfl⟩

/-- PKT_DECODE's failure on `bad`. -/
theorem bad_fails (s : State) : ∃ r : Result, exec (.pktDecode 0 bad) s = .next (s.report r) ∧ r.status ≠ .ok := by
  refine ⟨_, rfl, ?_⟩
  have h : checkDecode s.registries Config.strictDecode (bad.take Config.hdrLen) = some (malformedHeader 2) := by
    rw [checkDecode, if_neg (by decide), if_pos (by decide)]
  rw [decodePacket, decodeHeader, h]
  decide

/-- Under fill after a payload that does not suffice, and under partial after an empty one. -/
theorem witness_DfReadFailureEmptiesTheView :
    (let d := textDeframer [0x78, 0x79] 1 [t3, bad, t4]; let s := st .fill (textFramer [] 0 0) d;
      registriesLegal s.registries ∧ s.dfs[(0 : Byte).toNat]? = some d ∧ d.wait = .idle ∧ d.isOpen = true ∧
      d.cursor ≤ d.rx.length ∧ d.queue = [t3] ++ bad :: [t4] ∧ List.Forall₂ goodDatagram [t3] [[0x61, 0x62, 0x63]] ∧
      stillReads s.params.readSpan (5 : BitVec 32).toNat (unread d ++ [[0x61, 0x62, 0x63]].flatten) ∧
      ∃ r : Result, exec (.pktDecode 0 bad) s = .next (s.report r) ∧ r.status ≠ .ok) ∧
    (let d := textDeframer [0x78, 0x79] 2 [ht0, bad, t4]; let s := st .part (textFramer [] 0 0) d;
      registriesLegal s.registries ∧ s.dfs[(0 : Byte).toNat]? = some d ∧ d.wait = .idle ∧ d.isOpen = true ∧
      d.cursor ≤ d.rx.length ∧ d.queue = [ht0] ++ bad :: [t4] ∧ List.Forall₂ goodDatagram [ht0] [[]] ∧
      stillReads s.params.readSpan (5 : BitVec 32).toNat (unread d ++ [[]].flatten) ∧
      ∃ r : Result, exec (.pktDecode 0 bad) s = .next (s.report r) ∧ r.status ≠ .ok) :=
  ⟨⟨legal0, rfl, rfl, rfl, by decide, rfl, .cons good_t3 .nil, (by decide : 4 < 5), bad_fails _⟩,
    legal0, rfl, rfl, rfl, by decide, rfl, .cons good_empty .nil, ⟨by decide, rfl⟩, bad_fails _⟩

theorem waiting_inv : deframerInv (params .fill) waitingDeframer :=
  ⟨by decide, by decide, by decide, fun _ => .inr (.inr rfl), rfl, rfl, rfl, (by decide : 0 < 3)⟩

theorem witness_DfReadKeepsTheByteStream :
    (let d := textDeframer [0x78, 0x79] 1 [t3, bad, t4];
      registriesLegal (withDeframer d).registries ∧ (withDeframer d).dfs[(0 : Byte).toNat]? = some d ∧
      d.wait = .idle ∧ d.isOpen = true ∧ d.cursor ≤ d.rx.length) ∧
    (let s := { withDeframer waitingDeframer with events := [.rx 0 t3] };
      registriesLegal s.registries ∧ s.dfs[0]? = some waitingDeframer ∧ deframerInv s.params waitingDeframer ∧
      waitingDeframer.wait = .rxPending (.read 3 []) ∧ s.events = .rx 0 t3 :: []) :=
  ⟨⟨legal0, rfl, rfl, rfl, by decide⟩, legal0, rfl, waiting_inv, rfl, rfl⟩

theorem witness_DfCloseDropsTheView :
    (st0.dfs[(0 : Byte).toNat]? = some (textDeframer [] 0 []) ∧ (textDeframer [] 0 []).wait = .idle ∧
      (textDeframer [] 0 []).isOpen = true) ∧
    (st0.dfs[(1 : Byte).toNat]? = some Deframer.reset ∧ Deframer.reset.isOpen = false) := by decide

theorem witness_DfCloseDuringAReceiveAbortsOrLingers :
    (withDeframer waitingDeframer).dfs[(0 : Byte).toNat]? = some waitingDeframer ∧
    waitingDeframer.wait = .rxPending (.read 3 []) ∧ waitingDeframer.isOpen = true := by decide

theorem witness_OvertakenReadLeavesAnEmptyView :
    let d := { waitingDeframer with isOpen := false };
    let s := { withDeframer d with events := [.rx 0 t3] };
    s.dfs[0]? = some d ∧ d.isOpen = false ∧ d.wait = .rxPending (.read 3 []) ∧ s.events = .rx 0 t3 :: [] ∧
    ∃ t, step s = .next t := ⟨rfl, rfl, rfl, rfl, _, rfl⟩

/-- A read to an idle closed instance, and a second close while the read that the first overtook still waits. -/
theorem witness_ClosedDeframerAnswersStreamClosed :
    (Instr.dfRead 1 0 ∈ [Instr.dfReadPacket 1, .dfReadData 1, .dfRead 1 0, .dfClose 1] ∧
      st0.dfs[(1 : Byte).toNat]? = some Deframer.reset ∧ Deframer.reset.wait = .idle ∧
      Deframer.reset.isOpen = false) ∧
    (Instr.dfClose 0 ∈ [Instr.dfReadPacket 0, .dfReadData 0, .dfRead 0 0, .dfClose 0] ∧
      (withDeframer { waitingDeframer with isOpen := false }).dfs[(0 : Byte).toNat]? =
        some { waitingDeframer with isOpen := false }) := by decide

/-- The start state of the vectors meets the invariant, and so does one with a send and a read pending. -/
theorem st_inv (f : Framer) (d : Deframer) (hf : framerInv f) (hd : deframerInv (params .fill) d) :
    stateInv (st .fill f d) := by
  refine ⟨legal0, ⟨Nat.le_add_left 1 1, (by decide : 2 ≤ 256)⟩, ⟨Nat.le_add_left 1 1, (by decide : 2 ≤ 256)⟩, ?_, ?_⟩
  · intro g hg
    rcases List.mem_cons.1 hg with rfl | hg
    · exact hf
    · rw [List.mem_singleton.1 hg]
      exact ⟨by decide, by decide, rfl, by decide, nofun, trivial, by decide⟩
  · intro g hg
    rcases List.mem_cons.1 hg with rfl | hg
    · exact hd
    · rw [List.mem_singleton.1 hg]
      exact ⟨by decide, by decide, by decide, by simp [Deframer.reset], trivial⟩

theorem cfg_legal : cfgLegal (openCfg open1) :=
  ⟨.inr (.inr rfl), ⟨.bitsPerSecond, by decide, by decide⟩, ⟨.commandFormat, by decide, by decide⟩, by decide⟩

theorem sending_inv : framerInv (sendingFramer .flush) :=
  ⟨by decide, by decide, rfl, by decide, fun _ => cfg_legal, ⟨by decide, by decide⟩, by decide⟩

theorem witness_EveryStepKeepsTheInvariant :
    let s := { st .fill (sendingFramer .flush) waitingDeframer with events := [.rx 0 t3] };
    stateInv s ∧ ∃ t, step s = .next t := ⟨st_inv _ _ sending_inv waiting_inv, _, rfl⟩

/-- A failed answer, a datagram for the read that waits, the close that may abort it, and a reserved word. -/
theorem witness_EveryResultIsOneTheCommandMayReturn :
    ∀ e ∈ [Event.tx 0 false, .rx 0 t3, .command 0x0044 .none, .command 0x0003 .none],
    let s := { st .fill (sendingFramer .flush) waitingDeframer with events := [e] };
    stateInv s ∧ s.events = e :: [] ∧ s.frs[0]? = some (sendingFramer .flush) ∧ s.dfs[0]? = some waitingDeframer ∧
    ∃ t, step s = .next t := by
  intro e he
  refine ⟨st_inv _ _ sending_inv waiting_inv, rfl, rfl, rfl, ?_⟩
  simp only [List.mem_cons, List.not_mem_nil, or_false] at he
  rcases he with rfl | rfl | rfl | rfl <;> exact ⟨_, rfl⟩

/-- The commands that may end at each port, for the events above. -/
theorem test_ending_commands :
    framerOps (.tx 0 false) 0 (sendingFramer .flush) = [0x32] ∧ framerOps (.tx 1 false) 0 (sendingFramer .flush) = [] ∧
    deframerOps (.rx 0 t3) 0 waitingDeframer = [0x43] ∧
    deframerOps (.command 0x0044 .none) 0 waitingDeframer = [0x44, 0x43] ∧
    deframerOps (.command 0x0144 .none) 0 waitingDeframer = [] ∧ looseOps (.command 0x0003 .none) = [0x03] := by decide

/-- A stateless command, a framer command and a deframer command. -/
theorem witness_CommandsWriteOnlyTheirOwnState :
    (targetOf (.regDims 9 0) = none ∧ ∃ t, exec (.regDims 9 0) st0 = .next t) ∧
    (targetOf (.frFlush 0) = some (true, 0) ∧ st0.frs[0]? = some (textFramer [] 0 0) ∧
      ∃ t, exec (.frFlush 0) st0 = .next t) ∧
    (targetOf (.dfRead 0 1) = some (false, 0) ∧ st0.dfs[0]? = some (textDeframer [] 0 []) ∧
      ∃ t, exec (.dfRead 0 1) st0 = .next t) := ⟨⟨by decide, _, rfl⟩, ⟨by decide, rfl, _, rfl⟩, by decide, rfl, _, rfl⟩

theorem witness_CommandsToDifferentInstancesCommute : targetOf (.frFlush 0) ≠ targetOf (.frWrite 1 [0x61]) ∧
    targetExists (.frFlush 0) st0 ∧ targetExists (.frWrite 1 [0x61]) st0 ∧
    (∃ t, exec (.frFlush 0) st0 = .next t) ∧ ∃ t, exec (.frWrite 1 [0x61]) st0 = .next t :=
  ⟨by decide, ⟨by decide, by decide⟩, ⟨by decide, by decide⟩, ⟨_, rfl⟩, _, rfl⟩

/-- A duty that is kept, and one that is broken. -/
theorem witness_OnlyBrokenDutiesAreRefused :
    ({ st0 with events := [.rx 1 t3] } : State).events = .rx 1 t3 :: [] ∧ eventDuty (.rx 1 t3) st0 ∧
    ¬eventDuty (.rx 2 t3) st0 := ⟨rfl, ⟨Deframer.reset, rfl⟩, fun ⟨_, h⟩ => by cases h⟩

/-- A step that sends, an FR_OPEN, and a failed answer. -/
theorem witness_EachSendNumbersItsPacket :
    (∃ (s t : State) (f f' : Framer), step s = .next t ∧ s.frs[0]? = some f ∧ t.frs[0]? = some f' ∧ f'.tx ≠ f.tx) ∧
    (∃ (s t : State) (f f' : Framer), step s = .next t ∧ s.frs[1]? = some f ∧ t.frs[1]? = some f' ∧
      f.isOpen = false ∧ f'.isOpen = true) ∧
    (∃ (s t : State) (f f' : Framer), step s = .next t ∧ s.frs[0]? = some f ∧ t.frs[0]? = some f' ∧
      f.wait ≠ .idle ∧ f'.wait = .idle) :=
  ⟨⟨{ st0 with events := [.command 0x0032 .none] }, _, _, _, rfl, rfl, rfl, by decide⟩,
    ⟨{ st0 with events := [.command 0x0130 (.stream open1)] }, _, _, _, rfl, rfl, rfl, rfl, rfl⟩,
    ⟨{ withFramer (sendingFramer .flush) with events := [.tx 0 false] }, _, _, _, rfl, rfl, rfl, by decide, rfl⟩⟩

/-- Each clause under both spans, for an instance that is open and for one that a close has overtaken: `bad`; an empty
payload; and a payload that ends the read, which asks for three bytes, and of which fill has two. -/
theorem witness_ArrivingDatagramResumesDfRead : ∀ o : Bool,
    ∀ c ∈ [(ReadSpan.fill, [(0x78 : Byte), 0x79]), (.part, [])],
    let d := { waitingDeframer with wait := .rxPending (.read 3 c.2), isOpen := o };
    (∀ dg ∈ [bad, ht0, t3], let s := { st c.1 (textFramer [] 0 0) d with events := [.rx 0 dg] };
      registriesLegal s.registries ∧ s.dfs[0]? = some d ∧ d.wait = .rxPending (.read 3 c.2) ∧ d.queue = [] ∧
      stillReads s.params.readSpan (3 : BitVec 32).toNat c.2 ∧ s.events = .rx 0 dg :: []) ∧
    (∃ r : Result, exec (.pktDecode 0 bad) st0 = .next (st0.report r) ∧ r.status ≠ .ok) ∧
    (goodDatagram ht0 [] ∧ stillReads c.1 (3 : BitVec 32).toNat (c.2 ++ [])) ∧
    (goodDatagram t3 [0x61, 0x62, 0x63] ∧ ¬stillReads c.1 (3 : BitVec 32).toNat (c.2 ++ [0x61, 0x62, 0x63])) := by
  intro o c hc
  have h : stillReads c.1 (3 : BitVec 32).toNat c.2 ∧
      ¬stillReads c.1 (3 : BitVec 32).toNat (c.2 ++ [0x61, 0x62, 0x63]) := by
    simp only [List.mem_cons, List.not_mem_nil, or_false] at hc
    rcases hc with rfl | rfl <;> simp [stillReads]
  exact ⟨fun dg _ => ⟨legal0, rfl, rfl, rfl, h.1, rfl⟩, bad_fails _, ⟨good_empty, by simpa using h.1⟩, good_t3, h.2⟩

end Sys2Proof.Tests
end

