-- ==== Sys2Proof/Proofs/FixedState.lean ====
section
/-! The part of the state that no step writes: the parameters (R6), the registries (R332) and the numbers of instances
(R24). Each operation on the state keeps it, so `exec` and `step` keep it. -/

namespace Sys2Proof.Machine

/-- `t` has the parameters, the registries and the numbers of framers and deframers of `s`. -/
structure SameFixedState (s t : State) : Prop where
  params : t.params = s.params
  registries : t.registries = s.registries
  framers : t.frs.length = s.frs.length
  deframers : t.dfs.length = s.dfs.length

theorem SameFixedState.refl (s : State) : SameFixedState s s := ⟨rfl, rfl, rfl, rfl⟩

theorem SameFixedState.report (s : State) (r : Result) : SameFixedState s (s.report r) := ⟨rfl, rfl, rfl, rfl⟩

theorem SameFixedState.setFramer (s : State) (k : Nat) (f : Framer) : SameFixedState s (s.setFramer k f) :=
  ⟨rfl, rfl, s.setFramer_length k f, rfl⟩

theorem SameFixedState.setDeframer (s : State) (k : Nat) (d : Deframer) : SameFixedState s (s.setDeframer k d) :=
  ⟨rfl, rfl, rfl, s.setDeframer_length k d⟩

/-- The events to come are not part of the fixed state. -/
theorem SameFixedState.of_events {s t : State} {es : List Event} (h : SameFixedState { s with events := es } t) :
    SameFixedState s t :=
  ⟨h.params, h.registries, h.framers, h.deframers⟩

/-- A command reports a result or writes one instance in its place. -/
theorem exec_sameFixedState {i : Instr} {s t : State} (h : exec i s = .next t) : SameFixedState s t := by
  obtain ⟨-, rfl⟩ | ⟨-, ⟨-, rfl⟩ | ⟨f, f', -, -, -, rfl⟩⟩ | ⟨-, ⟨-, rfl⟩ | ⟨d, d', -, -, rfl⟩⟩ := exec_next h
  · exact .report ..
  · exact .report ..
  · exact .setFramer ..
  · exact .report ..
  · exact .setDeframer ..

/-- A step takes an event, and then does what a command does, or reports a result or writes one instance itself. -/
theorem step_sameFixedState {s t : State} (h : step s = .next t) : SameFixedState s t := by
  obtain ⟨-, rfl⟩ | ⟨e, rest, -, hstep⟩ := step_next h
  · exact .refl _
  · apply SameFixedState.of_events (es := rest)
    obtain ⟨w, r, c, -, -, rfl⟩ | ⟨w, r, i, -, -, -, hexec⟩ | ⟨k, ok, f, f', -, -, -, rfl⟩ | ⟨k, dg, d, -, -, rfl⟩ :=
      hstep
    · exact .report ..
    · exact exec_sameFixedState hexec
    · exact .setFramer ..
    · exact .setDeframer ..

/-- Settles O4: the parameters and the instance counts are part of the state that every step keeps. -/
theorem parametersAndInstanceCountsFixed : Obligations.ParametersAndInstanceCountsFixed := by
  intro s t h
  obtain ⟨hparams, -, hframers, hdeframers⟩ := step_sameFixedState h
  exact ⟨hparams, hframers, hdeframers⟩

end Sys2Proof.Machine
end

