-- ==== Sys2Proof/Proofs/InstanceMoves.lean ====
section
/-! What one command, one answer of the transport and one step can do to a single instance: each move once, so that a
property of instances is proved move by move. -/

namespace Sys2Proof.Machine

open Sys2Proof.Safety

/-- The moves of a framer command on an idle framer (R211 to R220). -/
inductive FramerMove (p : Params) (R : Registries) (f : Framer) : Instr → Framer → Prop
  /-- A check fails: one result, and nothing else. -/
  | rejects {i : Instr} (r : Result) : FramerMove p R f i (f.report r)
  | opens {k : Byte} {r : StreamRecord} (hclosed : f.isOpen = false)
      (hchecks : checkEncode R r.protocol r.rate r.samples r.channel r.format r.codec = none) :
      FramerMove p R f (.frOpen k r) (Framer.report
        { f with cfg := openCfg r, fc := 0, buf := bufInit p.bufInitCap false, isOpen := true } (okResult .none))
  | writes {k : Byte} {data : List Byte} (hopen : f.isOpen = true) :
      FramerMove p R f (.frWrite k data) (writeLoop .write data 0 f)
  | flushes {k : Byte} (hopen : f.isOpen = true) : FramerMove p R f (.frFlush k) (startFlush .flush f)
  | sends {k : Byte} {v : SendValue} (data : List Byte) (hopen : f.isOpen = true) :
      FramerMove p R f (.frSendData k v) (writeLoop .sendData data 0 f)
  | closes {k : Byte} (hopen : f.isOpen = true) :
      FramerMove p R f (.frClose k)
        (Framer.report { f with buf := bufClear f.buf, isOpen := false } (okResult .none))

/-- The moves of a deframer command on a deframer (R250 to R258). -/
inductive DeframerMove (p : Params) (R : Registries) (d : Deframer) : Instr → Deframer → Prop
  /-- A check fails: one result, and nothing else. -/
  | rejects {i : Instr} (r : Result) : DeframerMove p R d i (d.report r)
  | opens {k protocol : Byte} (hclosed : d.isOpen = false) (hidle : d.wait = .idle)
      (hcheck : checkProtocol R protocol = none) :
      DeframerMove p R d (.dfOpen k protocol) (Deframer.report
        { d with expected := protocol, rx := [], cursor := 0, isOpen := true } (okResult .none))
  | readsPacket {k : Byte} (hopen : d.isOpen = true) :
      DeframerMove p R d (.dfReadPacket k) (runReceive p R .readPacket d)
  | readsData {k : Byte} (hopen : d.isOpen = true) :
      DeframerMove p R d (.dfReadData k) (runReceive p R .readData d)
  | reads {k : Byte} {n : BitVec 32} (hopen : d.isOpen = true) :
      DeframerMove p R d (.dfRead k n) (startRead p R n d)
  | closes {k : Byte} (abort : Bool) (hopen : d.isOpen = true) :
      DeframerMove p R d (.dfClose k) (closeDeframer abort d)

/-- A framer command that goes on makes one of the moves. -/
theorem framerAct_move {p : Params} {R : Registries} {i : Instr} {k : Nat} {f f' : Framer}
    (ht : targetOf i = some (true, k)) (h : framerAct p R i f = .ok f') : FramerMove p R f i f' := by
  cases i with
  | frOpen _ r =>
    obtain ⟨hclosed, ⟨e, -, rfl⟩ | ⟨hchecks, rfl⟩⟩ := openFramer_ok h
    · exact .rejects _
    · exact .opens hclosed hchecks
  | frWrite _ data =>
    simp only [framerAct] at h
    obtain ⟨-, rfl⟩ | ⟨hopen, hact⟩ := whenFramerOpen_ok h
    · exact .rejects _
    · cases hact
      exact .writes hopen
  | frFlush =>
    simp only [framerAct] at h
    obtain ⟨-, rfl⟩ | ⟨hopen, hact⟩ := whenFramerOpen_ok h
    · exact .rejects _
    · cases hact
      exact .flushes hopen
  | frSendData _ v =>
    simp only [framerAct] at h
    obtain ⟨-, rfl⟩ | ⟨hopen, hact⟩ := whenFramerOpen_ok h
    · exact .rejects _
    · split at hact
      · cases hact
      · cases hact
        exact .sends _ hopen
  | frClose =>
    simp only [framerAct] at h
    obtain ⟨-, rfl⟩ | ⟨hopen, hact⟩ := whenFramerOpen_ok h
    · exact .rejects _
    · cases hact
      exact .closes hopen
  | _ => cases ht

/-- A deframer command other than DF_CLOSE goes on only on an idle deframer (R309). -/
theorem deframerAct_idle {p : Params} {R : Registries} {i : Instr} {d d' : Deframer} (hi : i.opcode ≠ .dfClose)
    (h : deframerAct p R i d = .ok d') : d.wait = .idle ∧ idleDeframerAct p R i d = .ok d' := by
  unfold deframerAct at h
  split at h
  · exact absurd rfl hi
  · split at h
    · cases h
    · next hidle => exact ⟨hidle, h⟩

/-- A deframer command that goes on makes one of the moves. -/
theorem deframerAct_move {p : Params} {R : Registries} {i : Instr} {k : Nat} {d d' : Deframer}
    (ht : targetOf i = some (false, k)) (h : deframerAct p R i d = .ok d') : DeframerMove p R d i d' := by
  cases i with
  | dfOpen _ protocol =>
    obtain ⟨hidle, h⟩ := deframerAct_idle (by simp [Instr.opcode]) h
    obtain ⟨hclosed, ⟨e, -, rfl⟩ | ⟨hcheck, rfl⟩⟩ := openDeframer_ok h
    · exact .rejects _
    · exact .opens hclosed hidle hcheck
  | dfReadPacket =>
    obtain ⟨-, rfl⟩ | ⟨hopen, rfl⟩ := whenDeframerOpen_ok (deframerAct_idle (by simp [Instr.opcode]) h).2
    · exact .rejects _
    · exact .readsPacket hopen
  | dfReadData =>
    obtain ⟨-, rfl⟩ | ⟨hopen, rfl⟩ := whenDeframerOpen_ok (deframerAct_idle (by simp [Instr.opcode]) h).2
    · exact .rejects _
    · exact .readsData hopen
  | dfRead _ n =>
    obtain ⟨-, rfl⟩ | ⟨hopen, rfl⟩ := whenDeframerOpen_ok (deframerAct_idle (by simp [Instr.opcode]) h).2
    · exact .rejects _
    · exact .reads hopen
  | dfClose =>
    obtain ⟨-, rfl⟩ | ⟨hopen, rfl⟩ := whenDeframerOpen_ok h
    · exact .rejects _
    · exact .closes _ hopen
  | _ => cases ht

/-- An answer of the transport that goes on finds a send pending: `ok` resumes the command with an empty buffer, `fail`
ends it (R213). -/
theorem answerFramer_ok {p : Params} {ok : Bool} {f f' : Framer} (h : answerFramer p ok f = .ok f') :
    ∃ dg u c, f.wait = .txPending dg u c ∧
      (f' = resumeFramer c u { f with wait := .idle, buf := ⟨[], f.buf.cap, f.buf.fixed⟩ } ∨
       f' = failCont c transportError { f with wait := .idle, fc := if p.txFail = .restored then u else f.fc }) := by
  cases hw : f.wait with
  | idle => simp [answerFramer, hw] at h
  | txPending dg u c =>
    obtain ⟨hok, hfail⟩ := answerFramer_pending (p := p) hw
    refine ⟨dg, u, c, rfl, ?_⟩
    cases ok with
    | true => exact .inl (Except.ok.inj (h.symm.trans hok))
    | false => exact .inr (Except.ok.inj (h.symm.trans hfail))

/-- A framer read back after one framer is written is the one written, or as it was. -/
theorem setFramer_get_cases {s : State} {j k : Nat} {g f f' : Framer} (hf : s.frs[k]? = some f)
    (hf' : (s.setFramer j g).frs[k]? = some f') : (k = j ∧ f' = g) ∨ f' = f := by
  by_cases hk : k = j
  · subst hk
    rw [s.setFramer_get hf] at hf'
    exact .inl ⟨rfl, (Option.some.inj hf').symm⟩
  · rw [s.setFramer_get_ne hk, hf] at hf'
    exact .inr (Option.some.inj hf').symm

/-- The same of deframers. -/
theorem setDeframer_get_cases {s : State} {j k : Nat} {g d d' : Deframer} (hd : s.dfs[k]? = some d)
    (hd' : (s.setDeframer j g).dfs[k]? = some d') : (k = j ∧ d' = g) ∨ d' = d := by
  by_cases hk : k = j
  · subst hk
    rw [s.setDeframer_get hd] at hd'
    exact .inl ⟨rfl, (Option.some.inj hd').symm⟩
  · rw [s.setDeframer_get_ne hk, hd] at hd'
    exact .inr (Option.some.inj hd').symm

/-- What a step does to one framer: nothing, a move of a command while it is idle, or an answer of the transport. -/
theorem step_framer {s t : State} {k : Nat} {f f' : Framer} (h : step s = .next t) (hf : s.frs[k]? = some f)
    (hf' : t.frs[k]? = some f') :
    f' = f ∨ (f.wait = .idle ∧ ∃ i, FramerMove s.params s.registries f i f') ∨
      ∃ ok, answerFramer s.params ok f = .ok f' := by
  have same (hfrs : t.frs = s.frs) : f' = f := by rw [hfrs, hf] at hf'; exact (Option.some.inj hf').symm
  obtain ⟨-, rfl⟩ | ⟨e, rest, -, ⟨w, r, c, -, -, rfl⟩ | ⟨w, r, i, -, -, -, hexec⟩ | ⟨j, ok, g, g', -, hg, hans, rfl⟩ |
    ⟨j, dg, d, -, -, rfl⟩⟩ := step_next h
  · exact .inl (same rfl)
  · exact .inl (same rfl)
  · obtain ⟨-, rfl⟩ | ⟨ht, ⟨-, rfl⟩ | ⟨g, g', hg, hidle, hact, rfl⟩⟩ | ⟨-, ⟨-, rfl⟩ | ⟨d, d', -, -, rfl⟩⟩ :=
      exec_next hexec
    · exact .inl (same rfl)
    · exact .inl (same rfl)
    · obtain ⟨rfl, rfl⟩ | heq := setFramer_get_cases hf hf'
      · cases hf.symm.trans hg
        exact .inr (.inl ⟨hidle, i, framerAct_move ht hact⟩)
      · exact .inl heq
    · exact .inl (same rfl)
    · exact .inl (same rfl)
  · obtain ⟨rfl, rfl⟩ | heq := setFramer_get_cases hf hf'
    · cases hf.symm.trans hg
      exact .inr (.inr ⟨ok, hans⟩)
    · exact .inl heq
  · exact .inl (same rfl)

/-- What a step does to one deframer: nothing, a move of a command, or the arrival of a datagram. -/
theorem step_deframer {s t : State} {k : Nat} {d d' : Deframer} (h : step s = .next t) (hd : s.dfs[k]? = some d)
    (hd' : t.dfs[k]? = some d') :
    d' = d ∨ (∃ i, DeframerMove s.params s.registries d i d') ∨
      ∃ dg, d' = arriveDeframer s.params s.registries dg d := by
  have same (hdfs : t.dfs = s.dfs) : d' = d := by rw [hdfs, hd] at hd'; exact (Option.some.inj hd').symm
  obtain ⟨-, rfl⟩ | ⟨e, rest, -, ⟨w, r, c, -, -, rfl⟩ | ⟨w, r, i, -, -, -, hexec⟩ | ⟨j, ok, g, g', -, -, -, rfl⟩ |
    ⟨j, dg, g, -, hg, rfl⟩⟩ := step_next h
  · exact .inl (same rfl)
  · exact .inl (same rfl)
  · obtain ⟨-, rfl⟩ | ⟨-, ⟨-, rfl⟩ | ⟨f, f', -, -, -, rfl⟩⟩ | ⟨ht, ⟨-, rfl⟩ | ⟨g, g', hg, hact, rfl⟩⟩ :=
      exec_next hexec
    · exact .inl (same rfl)
    · exact .inl (same rfl)
    · exact .inl (same rfl)
    · exact .inl (same rfl)
    · obtain ⟨rfl, rfl⟩ | heq := setDeframer_get_cases hd hd'
      · cases hd.symm.trans hg
        exact .inr (.inl ⟨i, deframerAct_move ht hact⟩)
      · exact .inl heq
  · exact .inl (same rfl)
  · obtain ⟨rfl, rfl⟩ | heq := setDeframer_get_cases hd hd'
    · cases hd.symm.trans hg
      exact .inr (.inr ⟨dg, rfl⟩)
    · exact .inl heq

end Sys2Proof.Machine
end

