-- ==== Sys2Proof/Proofs/Invariant.lean ====
section
/-! The invariant of the block (R38): it holds after reset, every move of one framer and of one deframer keeps its own
part of it, and so every step keeps the whole. -/

namespace Sys2Proof.Machine

open Sys2Proof.Safety

/-! ## Framers -/

/-- A result that leaves on a framer's port is no part of its invariant. -/
theorem framerInv_report {f : Framer} (h : framerInv f) (r : Result) : framerInv (f.report r) := h

/-- A framer that meets its invariant, open and with no command waiting: the state in which a write runs. -/
structure ReadyFramer (f : Framer) : Prop where
  inv : framerInv f
  isOpen : f.isOpen = true
  idle : f.wait = .idle

/-- A new buffer and counter leave a framer ready when the buffer keeps its bounds. -/
theorem readyFramer_setBuf {f : Framer} {g : GrowBuf} {fc : FrameCounter} {w : FrWait} (h : framerInv f)
    (hopen : f.isOpen = true) (hidle : w = .idle) (hmax : g.bytes.length ≤ Config.maxPayload)
    (hcap : g.bytes.length ≤ g.cap) (hfixed : g.fixed = false) :
    ReadyFramer { f with wait := w, fc := fc, buf := g } := by
  obtain ⟨-, -, -, -, hcfg, -, htx⟩ := h
  subst hidle
  exact ⟨⟨hmax, hcap, hfixed, fun hclosed => by simp [hopen] at hclosed, hcfg, trivial, htx⟩, hopen, rfl⟩

/-- A flush of an open framer keeps the invariant: the buffer fits, so the datagram is the whole packet (R213, R224). -/
theorem startFlush_framerInv {f : Framer} (h : framerInv f) (hopen : f.isOpen = true) (c : FrCont) :
    framerInv (startFlush c f) := by
  obtain ⟨hmax, hcap, hfixed, -, hcfg, -, htx⟩ := h
  have hmax : f.buf.bytes.length ≤ 1408 := hmax
  rw [startFlush_fits hmax]
  refine ⟨hmax, hcap, hfixed, fun hclosed => by simp [hopen] at hclosed, hcfg, ⟨rfl, rfl⟩, fun p hp => ?_⟩
  rcases List.mem_append.mp hp with hp | hp
  · exact htx p hp
  · rw [List.mem_singleton.mp hp, List.length_append, headerOf_length]
    exact ⟨Nat.le_add_right _ _, Nat.add_le_add_left hmax 28⟩

/-- An append to a buffer with room for it leaves the framer ready (R131, R222). -/
theorem readyFramer_append {f : Framer} {b : Byte} {g : GrowBuf} (h : ReadyFramer f)
    (hroom : f.buf.bytes.length < 1408) (hg : bufAppend f.buf b = .ok g) : ReadyFramer { f with buf := g } := by
  obtain ⟨⟨hmax, hcap, hfixed, hrest⟩, hopen, hidle⟩ := h
  obtain ⟨cap, -, hle, happend⟩ := bufAppend_growable hfixed b
  cases hg.symm.trans happend
  refine readyFramer_setBuf ⟨hmax, hcap, hfixed, hrest⟩ hopen hidle ?_ ?_ rfl
  · simpa using (show f.buf.bytes.length < Config.maxPayload from hroom)
  · simpa using hle hcap

/-- A write on a ready framer keeps the invariant, whether it returns or waits at a flush (R215). -/
theorem writeLoop_framerInv {f : Framer} (h : ReadyFramer f) (kind : WriteKind) (data : List Byte) (n : Nat) :
    framerInv (writeLoop kind data n f) :=
  writeLoop_induct (P := ReadyFramer) (Q := framerInv) kind
    (append := fun _ _ _ hready => readyFramer_append hready)
    (flush := fun _ c hready _ => startFlush_framerInv hready.inv hready.isOpen c)
    (fail := fun _ _ hready _ => framerInv_report hready.inv _)
    (done := fun _ _ hready => framerInv_report hready.inv _) data n f h

/-- The configuration of an FR_OPEN that passes its checks is legal (R25, R211). -/
theorem cfgLegal_openCfg {r : StreamRecord}
    (h : encodable r.protocol r.rate r.samples r.channel r.format r.codec) : cfgLegal (openCfg r) := by
  obtain ⟨-, -, hprotocol, ⟨rd, hrd, hrate⟩, ⟨fd, hfd, hformat⟩, hcodec⟩ := h
  refine ⟨hprotocol, ⟨rd, hrd, ?_⟩, ⟨fd, hfd, ?_⟩, hcodec⟩
  · rwa [openCfg, setWidth_five (rate_code_lt hrd hrate)]
  · rwa [openCfg, setWidth_four (format_code_lt hfd hformat)]

/-- Every move of a framer command on an idle framer keeps the invariant. -/
theorem framerMove_framerInv {p : Params} {R : Registries} {i : Instr} {f f' : Framer} (hR : registriesLegal R)
    (h : framerInv f) (hidle : f.wait = .idle) (hm : FramerMove p R f i f') : framerInv f' := by
  cases hm with
  | rejects r => exact framerInv_report h r
  | @opens _ r _ hchecks =>
    obtain ⟨-, -, -, -, -, hpending, htx⟩ := h
    exact ⟨Nat.zero_le _, Nat.zero_le _, rfl, fun hclosed => by simp at hclosed,
      fun _ => cfgLegal_openCfg ((checkEncode_none hR).mp hchecks), by simp [pendingOk, hidle], htx⟩
  | writes hopen => exact writeLoop_framerInv ⟨h, hopen, hidle⟩ _ _ _
  | flushes hopen => exact startFlush_framerInv h hopen _
  | sends data hopen => exact writeLoop_framerInv ⟨h, hopen, hidle⟩ _ _ _
  | closes _ =>
    obtain ⟨-, -, hfixed, -, -, -, htx⟩ := h
    exact ⟨Nat.zero_le _, Nat.zero_le _, hfixed, fun _ => ⟨rfl, hidle⟩, fun hopen => by simp at hopen,
      by simp [pendingOk, hidle], htx⟩

/-- A framer that waits for the transport's answer is open: a closed one is idle (R222). -/
theorem isOpen_of_txPending {f : Framer} {dg : Datagram} {u : FrameCounter} {c : FrCont} (h : framerInv f)
    (hw : f.wait = .txPending dg u c) : f.isOpen = true := by
  obtain ⟨-, -, -, hclosed, -⟩ := h
  by_contra ho
  have hidle := (hclosed (by simpa using ho)).2
  rw [hw] at hidle
  cases hidle

/-- The transport's answer keeps the invariant (R213). -/
theorem answerFramer_framerInv {p : Params} {ok : Bool} {f f' : Framer} (h : framerInv f)
    (ha : answerFramer p ok f = .ok f') : framerInv f' := by
  obtain ⟨dg, u, c, hw, rfl | rfl⟩ := answerFramer_ok ha
  · have hready : ReadyFramer { f with wait := .idle, buf := ⟨[], f.buf.cap, f.buf.fixed⟩ } := by
      obtain ⟨-, -, hfixed, -⟩ := id h
      exact readyFramer_setBuf h (isOpen_of_txPending h hw) rfl (Nat.zero_le _) (Nat.zero_le _) hfixed
    cases c with
    | flush => exact framerInv_report hready.inv _
    | write kind rest n => exact writeLoop_framerInv hready kind rest n
    | trailing n => exact framerInv_report hready.inv _
  · obtain ⟨hmax, hcap, hfixed, -⟩ := id h
    exact framerInv_report (readyFramer_setBuf h (isOpen_of_txPending h hw) rfl hmax hcap hfixed).inv _

/-! ## Deframers -/

/-- A result that leaves on a deframer's port is no part of its invariant. -/
theorem deframerInv_report {p : Params} {d : Deframer} (h : deframerInv p d) (r : Result) :
    deframerInv p (d.report r) := h

/-- What a running read relies on (R31, R38): the cursor within the view, the view within a payload, and a legal
expected protocol. -/
structure ReadableView (d : Deframer) : Prop where
  cursor : d.cursor ≤ d.rx.length
  view : d.rx.length ≤ Config.maxPayload
  expected : streamProtocol d.expected

/-- What the end of a read leaves meets the invariant. -/
theorem endRead_deframerInv {p : Params} {d : Deframer} {r : Result} (h : ReadableView d) :
    deframerInv p (endRead r d) := by
  obtain ⟨hcursor, hview, hexpected⟩ := h
  cases ho : d.isOpen with
  | true =>
    rw [endRead_open ho]
    exact ⟨hcursor, hview, fun hclosed => by simp [ho] at hclosed, fun _ => hexpected, trivial⟩
  | false =>
    rw [endRead_closed ho]
    exact ⟨le_rfl, Nat.zero_le _, fun _ _ => ⟨rfl, rfl⟩, fun _ => hexpected, trivial⟩

/-- A deframer that waits in a read meets the invariant when its wait does. -/
theorem deframerInv_waiting {p : Params} {d : Deframer} {c : DfCont} (h : ReadableView d) (hw : d.wait = .rxPending c)
    (hwaiting : waitingOk p d) : deframerInv p d :=
  ⟨h.cursor, h.view, fun _ hidle => by simp [hw] at hidle, fun _ => h.expected, hwaiting⟩

/-- A read that has reached its `receive` keeps the invariant, if a DF_READ among them still wants bytes. -/
theorem runReceive_deframerInv {p : Params} {R : Registries} (hR : registriesLegal R) {c : DfCont} {d : Deframer}
    (hview : ReadableView d) (hshort : ∀ n out, c = .read n out → readDone p.readSpan n.toNat out = false) :
    deframerInv p (runReceive p R c d) := by
  cases c with
  | readPacket =>
    simp only [runReceive]
    split
    · next hq => exact deframerInv_waiting ⟨hview.cursor, hview.view, hview.expected⟩ rfl hq
    · exact endRead_deframerInv ⟨hview.cursor, hview.view, hview.expected⟩
  | readData =>
    simp only [runReceive]
    split
    · next hq => exact deframerInv_waiting ⟨hview.cursor, hview.view, hview.expected⟩ rfl hq
    · exact endRead_deframerInv ⟨hview.cursor, hview.view, hview.expected⟩
  | read n out =>
    obtain ⟨pulled, payloads, hpayloads, hmore, ⟨-, h⟩ | ⟨bad, e, q, -, -, h⟩ | ⟨last, payload, q, m, -, hlast, hm, -, h⟩⟩ :=
      pullRead_cases R p.readSpan n out d.queue d
    all_goals simp only [runReceive, h]
    · refine deframerInv_waiting ⟨le_rfl, Nat.zero_le _, hview.expected⟩ rfl ⟨rfl, rfl, rfl, readDone_false_iff.mp ?_⟩
      by_cases hnil : pulled = []
      · subst hnil
        cases hpayloads
        simpa using hshort n out rfl
      · exact hmore hnil
    · exact endRead_deframerInv ⟨le_rfl, Nat.zero_le _, hview.expected⟩
    · exact endRead_deframerInv ⟨hm ▸ Nat.min_le_right _ _, decodesTo_length hR hlast, hview.expected⟩

/-- The end of a pending read that a DF_CLOSE aborts, and its waiting on, both keep the invariant (R257). -/
theorem closeDeframer_deframerInv {p : Params} {d : Deframer} (hview : ReadableView d) (hwaiting : waitingOk p d)
    (abort : Bool) : deframerInv p (closeDeframer abort d) := by
  unfold closeDeframer
  split
  · next hidle =>
    exact ⟨le_rfl, Nat.zero_le _, fun _ _ => ⟨rfl, rfl⟩, fun _ => hview.expected, by simp [waitingOk, hidle]⟩
  · next c hw =>
    cases abort with
    | true => exact endRead_deframerInv ⟨hview.cursor, hview.view, hview.expected⟩
    | false => exact deframerInv_waiting ⟨hview.cursor, hview.view, hview.expected⟩ hw hwaiting

/-- DF_READ keeps the invariant, whether it returns from the view or reaches its `receive` (R254, R255). -/
theorem startRead_deframerInv {p : Params} {R : Registries} (hR : registriesLegal R) {d : Deframer}
    (hview : ReadableView d) (n : BitVec 32) : deframerInv p (startRead p R n d) := by
  have hcursor := hview.cursor
  obtain ⟨heq, -⟩ | ⟨heq, hshort⟩ := startRead_cases p R n d <;> rw [heq]
  · refine endRead_deframerInv ⟨?_, hview.view, hview.expected⟩
    show d.cursor + min n.toNat (d.rx.length - d.cursor) ≤ d.rx.length
    omega
  · refine runReceive_deframerInv hR hview fun m out hc => ?_
    cases hc
    exact hshort

/-- Every move of a deframer command keeps the invariant. -/
theorem deframerMove_deframerInv {p : Params} {R : Registries} {i : Instr} {d d' : Deframer} (hR : registriesLegal R)
    (h : deframerInv p d) (hm : DeframerMove p R d i d') : deframerInv p d' := by
  obtain ⟨hcursor, hview, -, hexpected, hwaiting⟩ := id h
  have readable (hopen : d.isOpen = true) : ReadableView d := ⟨hcursor, hview, hexpected (.inl hopen)⟩
  cases hm with
  | rejects r => exact deframerInv_report h r
  | opens _ hidle hcheck =>
    exact ⟨le_rfl, Nat.zero_le _, fun hclosed => by simp at hclosed,
      fun _ => (checkProtocol_none hR).mp hcheck, by simp [waitingOk, hidle]⟩
  | readsPacket hopen => exact runReceive_deframerInv hR (readable hopen) (by simp)
  | readsData hopen => exact runReceive_deframerInv hR (readable hopen) (by simp)
  | reads hopen => exact startRead_deframerInv hR (readable hopen) _
  | closes abort hopen => exact closeDeframer_deframerInv (readable hopen) hwaiting abort

/-- A datagram that arrives keeps the invariant: it is queued, or the read that waits goes on with it (R318). -/
theorem arriveDeframer_deframerInv {p : Params} {R : Registries} {d : Deframer} (hR : registriesLegal R)
    (h : deframerInv p d) (dg : Datagram) : deframerInv p (arriveDeframer p R dg d) := by
  obtain ⟨hcursor, hview, hclosed, hexpected, hwaiting⟩ := h
  unfold arriveDeframer
  split
  · next hidle => exact ⟨hcursor, hview, hclosed, hexpected, by simp [waitingOk, hidle]⟩
  · next c hw =>
    refine runReceive_deframerInv hR ⟨hcursor, hview, hexpected (.inr (by simp [hw]))⟩ fun n out hc => ?_
    subst hc
    simp only [waitingOk, hw] at hwaiting
    obtain ⟨-, -, -, hshort⟩ := hwaiting
    exact readDone_false_iff.mpr hshort

/-! ## The block -/

/-- A step keeps the invariant of every framer. -/
theorem step_framerInv {s t : State} (hs : stateInv s) (h : step s = .next t) : ∀ f' ∈ t.frs, framerInv f' := by
  obtain ⟨hR, -, -, hframers, -⟩ := hs
  intro f' hf'
  obtain ⟨k, hk⟩ := List.mem_iff_getElem?.mp hf'
  have hlt : k < s.frs.length := (step_sameFixedState h).framers ▸ (List.getElem?_eq_some_iff.mp hk).1
  have hf := List.getElem?_eq_getElem hlt
  have hinv := hframers _ (List.mem_of_getElem? hf)
  obtain heq | ⟨hidle, i, hmove⟩ | ⟨ok, hanswer⟩ := step_framer h hf hk
  · exact heq ▸ hinv
  · exact framerMove_framerInv hR hinv hidle hmove
  · exact answerFramer_framerInv hinv hanswer

/-- A step keeps the invariant of every deframer. -/
theorem step_deframerInv {s t : State} (hs : stateInv s) (h : step s = .next t) :
    ∀ d' ∈ t.dfs, deframerInv t.params d' := by
  obtain ⟨hR, -, -, -, hdeframers⟩ := hs
  intro d' hd'
  obtain ⟨k, hk⟩ := List.mem_iff_getElem?.mp hd'
  have hlt : k < s.dfs.length := (step_sameFixedState h).deframers ▸ (List.getElem?_eq_some_iff.mp hk).1
  have hd := List.getElem?_eq_getElem hlt
  have hinv := hdeframers _ (List.mem_of_getElem? hd)
  rw [(step_sameFixedState h).params]
  obtain heq | ⟨i, hmove⟩ | ⟨dg, rfl⟩ := step_deframer h hd hk
  · exact heq ▸ hinv
  · exact deframerMove_deframerInv hR hinv hmove
  · exact arriveDeframer_deframerInv hR hinv dg

/-- Settles O51: the fixed state stays, and each instance keeps its own part of the invariant. -/
theorem everyStepKeepsTheInvariant : Obligations.EveryStepKeepsTheInvariant := by
  intro s t hs h
  obtain ⟨hR, hframers, hdeframers, -, -⟩ := id hs
  have hfixed := step_sameFixedState h
  refine ⟨?_, ?_, ?_, step_framerInv hs h, step_deframerInv hs h⟩
  · rwa [hfixed.registries]
  · rwa [hfixed.framers]
  · rwa [hfixed.deframers]

/-- A framer after reset meets its invariant, whatever its parameters. -/
theorem framerInv_reset (p : Params) : framerInv (Framer.reset p) :=
  ⟨Nat.zero_le _, Nat.zero_le _, rfl, fun _ => ⟨rfl, rfl⟩, by simp [Framer.reset], trivial,
    by simp [Framer.reset]⟩

/-- A deframer after reset meets its invariant. -/
theorem deframerInv_reset (p : Params) : deframerInv p Deframer.reset :=
  ⟨le_rfl, Nat.zero_le _, fun _ _ => ⟨rfl, rfl⟩, fun h => by simp [Deframer.reset] at h, trivial⟩

/-- Settles O52: the registries have the codes of R23, there are 1 to 256 instances of each kind, all as reset leaves
them. -/
theorem resetMeetsTheInvariant : Obligations.ResetMeetsTheInvariant := by
  refine ⟨registryContents_legal, ?_, ?_, fun f hf => ?_, fun d hd => ?_⟩
  · simp only [State.reset, List.length_replicate]
    omega
  · simp only [State.reset, List.length_replicate]
    omega
  · rw [List.eq_of_mem_replicate hf]
    exact framerInv_reset _
  · rw [List.eq_of_mem_replicate hd]
    exact deframerInv_reset _

end Sys2Proof.Machine
end

