-- ==== Sys2Proof/Proofs/Noninterference.lean ====
section
/-! What a command writes (R39): in its own instance only the fields that the table lists for it, and nothing of any
other instance. So commands to different instances commute (R24, R70). -/

namespace Sys2Proof.Machine

open Sys2Proof.Safety

/-! ## The fields of the addressed instance -/

/-- The rows of R39's table for the framer commands: what the command of opcode `o` leaves of its framer. -/
structure FramerWritesOnly (o : Opcode) (f f' : Framer) : Prop where
  results : ∃ rs, f'.results = f.results ++ rs
  cfg : o ≠ .frOpen → f'.cfg = f.cfg
  isOpen : o ≠ .frOpen → o ≠ .frClose → f'.isOpen = f.isOpen
  port : o = .frOpen ∨ o = .frClose → f'.wait = f.wait ∧ f'.tx = f.tx
  fc : o = .frClose → f'.fc = f.fc

/-- The rows of R39's table for the deframer commands. -/
structure DeframerWritesOnly (o : Opcode) (d d' : Deframer) : Prop where
  results : ∃ rs, d'.results = d.results ++ rs
  expected : o ≠ .dfOpen → d'.expected = d.expected
  isOpen : o ≠ .dfOpen → o ≠ .dfClose → d'.isOpen = d.isOpen
  view : o = .dfReadPacket ∨ o = .dfReadData → d'.rx = d.rx ∧ d'.cursor = d.cursor
  wait : o = .dfOpen → d'.wait = d.wait
  queue : o = .dfOpen ∨ o = .dfClose → d'.queue = d.queue
  closings : o ≠ .dfClose → d'.closings = d.closings
  suffix : d'.queue <:+ d.queue

/-- A command that neither opens nor closes keeps to the table when it keeps the configuration and the open flag and
only adds results. -/
theorem FramerWritesOnly.of_frame {o : Opcode} {f f' : Framer} (hopen : o ≠ .frOpen) (hclose : o ≠ .frClose)
    (h : f'.cfg = f.cfg ∧ f'.isOpen = f.isOpen ∧ ∃ rs, f'.results = f.results ++ rs) : FramerWritesOnly o f f' := by
  obtain ⟨hcfg, hflag, hresults⟩ := h
  exact ⟨hresults, fun _ => hcfg, fun _ _ => hflag, fun ho => (ho.elim hopen hclose).elim, fun ho => (hclose ho).elim⟩

/-- Every move of a framer command keeps to the table of R39. -/
theorem framerMove_writesOnly {p : Params} {R : Registries} {i : Instr} {f f' : Framer}
    (h : FramerMove p R f i f') : FramerWritesOnly i.opcode f f' := by
  cases h with
  | rejects r => exact ⟨⟨_, rfl⟩, fun _ => rfl, fun _ _ => rfl, fun _ => ⟨rfl, rfl⟩, fun _ => rfl⟩
  | opens => exact ⟨⟨_, rfl⟩, fun h => (h rfl).elim, fun h => (h rfl).elim, fun _ => ⟨rfl, rfl⟩, by simp [Instr.opcode]⟩
  | writes => exact .of_frame (by simp [Instr.opcode]) (by simp [Instr.opcode]) (writeLoop_frame _ _ _ _)
  | flushes => exact .of_frame (by simp [Instr.opcode]) (by simp [Instr.opcode]) (startFlush_frame _ _)
  | sends => exact .of_frame (by simp [Instr.opcode]) (by simp [Instr.opcode]) (writeLoop_frame _ _ _ _)
  | closes => exact ⟨⟨_, rfl⟩, fun _ => rfl, fun _ h => (h rfl).elim, fun _ => ⟨rfl, rfl⟩, fun _ => rfl⟩

/-- A read from the port keeps to the table when it is DF_READ, or leaves the view as it is. -/
theorem runReceive_writesOnly {p : Params} {R : Registries} {c : DfCont} {d : Deframer} {o : Opcode}
    (hopen : o ≠ .dfOpen) (hclose : o ≠ .dfClose)
    (hview : o = .dfReadPacket ∨ o = .dfReadData →
      (runReceive p R c d).rx = d.rx ∧ (runReceive p R c d).cursor = d.cursor) :
    DeframerWritesOnly o d (runReceive p R c d) := by
  obtain ⟨hflag, hexpected, hclosings, hsuffix, hresults⟩ := runReceive_frame p R c d
  refine ⟨?_, fun _ => hexpected, fun _ _ => hflag, hview, fun h => (hopen h).elim,
    fun h => (h.elim hopen hclose).elim, fun _ => hclosings, hsuffix⟩
  obtain ⟨heq, -⟩ | ⟨-, r, heq⟩ := hresults
  · exact ⟨[], by rw [heq, List.append_nil]⟩
  · exact ⟨[r], heq⟩

/-- A read of one datagram on an open instance leaves the view as it is (R251, R252). -/
theorem runReceive_view {p : Params} {R : Registries} {c : DfCont} {d : Deframer} (hopen : d.isOpen = true)
    (hc : c = .readPacket ∨ c = .readData) :
    (runReceive p R c d).rx = d.rx ∧ (runReceive p R c d).cursor = d.cursor := by
  rcases hc with rfl | rfl <;> simp only [runReceive] <;> split <;> simp [endRead, hopen]

/-- DF_READ keeps to the table of R39. -/
theorem startRead_writesOnly (p : Params) (R : Registries) (n : BitVec 32) (d : Deframer) :
    DeframerWritesOnly .dfRead d (startRead p R n d) := by
  obtain ⟨heq, -⟩ | ⟨heq, -⟩ := startRead_cases p R n d <;> rw [heq]
  · exact ⟨⟨_, rfl⟩, fun _ => rfl, fun _ _ => rfl, by simp, by simp, by simp, fun _ => rfl, List.suffix_rfl⟩
  · exact runReceive_writesOnly (by simp) (by simp) (by simp)

/-- DF_CLOSE keeps to the table of R39: it may add two results, its own and that of the read it aborts (R257). -/
theorem closeDeframer_writesOnly (abort : Bool) (d : Deframer) :
    DeframerWritesOnly .dfClose d (closeDeframer abort d) := by
  have hframe : (∃ rs, (closeDeframer abort d).results = d.results ++ rs) ∧
      (closeDeframer abort d).expected = d.expected ∧ (closeDeframer abort d).queue = d.queue := by
    unfold closeDeframer
    split
    · exact ⟨⟨_, rfl⟩, rfl, rfl⟩
    · cases abort with
      | true => exact ⟨⟨_, List.append_assoc _ _ _⟩, rfl, rfl⟩
      | false => exact ⟨⟨_, rfl⟩, rfl, rfl⟩
  obtain ⟨hresults, hexpected, hqueue⟩ := hframe
  exact ⟨hresults, fun _ => hexpected, fun _ h => (h rfl).elim, by simp, by simp, fun _ => hqueue,
    fun h => (h rfl).elim, hqueue ▸ List.suffix_rfl⟩

/-- Every move of a deframer command keeps to the table of R39. -/
theorem deframerMove_writesOnly {p : Params} {R : Registries} {i : Instr} {d d' : Deframer}
    (h : DeframerMove p R d i d') : DeframerWritesOnly i.opcode d d' := by
  cases h with
  | rejects r =>
    exact ⟨⟨_, rfl⟩, fun _ => rfl, fun _ _ => rfl, fun _ => ⟨rfl, rfl⟩, fun _ => rfl, fun _ => rfl, fun _ => rfl,
      List.suffix_rfl⟩
  | opens =>
    exact ⟨⟨_, rfl⟩, fun h => (h rfl).elim, fun h => (h rfl).elim, by simp [Instr.opcode], fun _ => rfl, fun _ => rfl,
      fun _ => rfl, List.suffix_rfl⟩
  | readsPacket hopen =>
    exact runReceive_writesOnly (by simp [Instr.opcode]) (by simp [Instr.opcode])
      fun _ => runReceive_view hopen (.inl rfl)
  | readsData hopen =>
    exact runReceive_writesOnly (by simp [Instr.opcode]) (by simp [Instr.opcode])
      fun _ => runReceive_view hopen (.inr rfl)
  | reads => exact startRead_writesOnly _ _ _ _
  | closes abort => exact closeDeframer_writesOnly abort _

/-- Settles O54: a stateless command only reports, and a command to an instance writes that instance by one of its
moves. -/
theorem commandsWriteOnlyTheirOwnState : Obligations.CommandsWriteOnlyTheirOwnState := by
  intro i s t h
  obtain ⟨ht, rfl⟩ | ⟨ht, ⟨hnone, rfl⟩ | ⟨f, f', hf, -, hact, rfl⟩⟩ | ⟨ht, ⟨hnone, rfl⟩ | ⟨d, d', hd, hact, rfl⟩⟩ :=
    exec_next h
  · exact ⟨rfl, rfl, rfl, fun _ => ⟨rfl, rfl⟩, by simp [ht], by simp [ht]⟩
  · refine ⟨rfl, rfl, rfl, by simp [ht], fun k hk => ⟨rfl, fun _ _ => rfl, fun f hf => ?_⟩, by simp [ht]⟩
    cases ht.symm.trans hk
    cases hnone.symm.trans hf
  · refine ⟨rfl, rfl, rfl, by simp [ht], fun k hk => ?_, by simp [ht]⟩
    cases ht.symm.trans hk
    refine ⟨rfl, fun j hj => s.setFramer_get_ne hj, fun g hg => ?_⟩
    cases hf.symm.trans hg
    obtain ⟨⟨rs, hresults⟩, hcfg, hopen, hport, hfc⟩ := framerMove_writesOnly (framerAct_move ht hact)
    exact ⟨rfl, f', rs, s.setFramer_get hf, hresults, hcfg, hopen, hport, hfc⟩
  · refine ⟨rfl, rfl, rfl, by simp [ht], by simp [ht], fun k hk => ⟨rfl, fun _ _ => rfl, fun d hd => ?_⟩⟩
    cases ht.symm.trans hk
    cases hnone.symm.trans hd
  · refine ⟨rfl, rfl, rfl, by simp [ht], by simp [ht], fun k hk => ?_⟩
    cases ht.symm.trans hk
    refine ⟨rfl, fun j hj => s.setDeframer_get_ne hj, fun g hg => ?_⟩
    cases hd.symm.trans hg
    obtain ⟨⟨rs, hresults⟩, hexpected, hopen, hview, hwait, hqueue, hclosings, hsuffix⟩ :=
      deframerMove_writesOnly (deframerAct_move ht hact)
    exact ⟨rfl, d', rs, s.setDeframer_get hd, hresults, hexpected, hopen, hview, hwait, hqueue, hclosings, hsuffix⟩

/-! ## Commuting commands -/

/-- What a command writes: a result on the port of no instance, one framer, or one deframer. -/
inductive Update where
  | result (r : Result)
  | framer (k : Nat) (f : Framer)
  | deframer (k : Nat) (d : Deframer)

/-- The instance that an update writes, as `targetOf` names it. -/
def Update.place : Update → Option (Bool × Nat)
  | .result _     => none
  | .framer k _   => some (true, k)
  | .deframer k _ => some (false, k)

/-- The state after an update. -/
def Update.apply (s : State) : Update → State
  | .result r     => s.report r
  | .framer k f   => s.setFramer k f
  | .deframer k d => s.setDeframer k d

/-- What a command that addresses `place` reads is the same in `s` and `s'`. -/
structure SameInputs (place : Option (Bool × Nat)) (s s' : State) : Prop where
  params : s'.params = s.params
  registries : s'.registries = s.registries
  framer : ∀ k, place = some (true, k) → s'.frs[k]? = s.frs[k]?
  deframer : ∀ k, place = some (false, k) → s'.dfs[k]? = s.dfs[k]?

/-- An update is no input of a command that addresses another place. -/
theorem Update.sameInputs {u : Update} {place : Option (Bool × Nat)} (h : u.place ≠ place) (s : State) :
    SameInputs place s (u.apply s) := by
  cases u with
  | result r => exact ⟨rfl, rfl, fun _ _ => rfl, fun _ _ => rfl⟩
  | framer j f =>
    refine ⟨rfl, rfl, fun k hk => s.setFramer_get_ne ?_, fun _ _ => rfl⟩
    rintro rfl
    exact h hk.symm
  | deframer j d =>
    refine ⟨rfl, rfl, fun _ _ => rfl, fun k hk => s.setDeframer_get_ne ?_⟩
    rintro rfl
    exact h hk.symm

/-- Updates of different places commute. -/
theorem Update.apply_comm {u v : Update} (h : u.place ≠ v.place) (s : State) :
    u.apply (v.apply s) = v.apply (u.apply s) := by
  cases u with
  | result r =>
    cases v with
    | result => exact (h rfl).elim
    | framer => rfl
    | deframer => rfl
  | framer j f =>
    cases v with
    | framer k g =>
      have hjk : k ≠ j := by rintro rfl; exact h rfl
      simp only [Update.apply, State.setFramer, List.set_comm _ _ hjk]
    | result => rfl
    | deframer => rfl
  | deframer j d =>
    cases v with
    | deframer k g =>
      have hjk : k ≠ j := by rintro rfl; exact h rfl
      simp only [Update.apply, State.setDeframer, List.set_comm _ _ hjk]
    | result => rfl
    | framer => rfl

/-- The framer that a command addresses is there. -/
theorem targetExists_framer {i : Instr} {k : Nat} {s : State} (he : targetExists i s)
    (ht : targetOf i = some (true, k)) : i.inst.toNat < s.frs.length := by
  unfold targetOf at ht
  split_ifs at ht with hop
  · exact he.1 hop
  · simp at ht

/-- The deframer that a command addresses is there. -/
theorem targetExists_deframer {i : Instr} {k : Nat} {s : State} (he : targetExists i s)
    (ht : targetOf i = some (false, k)) : i.inst.toNat < s.dfs.length := by
  unfold targetOf at ht
  split_ifs at ht with _ hop
  · simp at ht
  · exact he.2 hop

/-- A command to an instance that is there makes one update of its own place, and the same one in every state with the
same inputs. -/
theorem exec_update {i : Instr} {s t : State} (he : targetExists i s) (h : exec i s = .next t) :
    ∃ u : Update, u.place = targetOf i ∧ t = u.apply s ∧
      ∀ s', SameInputs (targetOf i) s s' → exec i s' = .next (u.apply s') := by
  obtain ⟨ht, rfl⟩ | ⟨ht, ⟨hnone, -⟩ | ⟨f, f', hf, hidle, hact, rfl⟩⟩ | ⟨ht, ⟨hnone, -⟩ | ⟨d, d', hd, hact, rfl⟩⟩ :=
    exec_next h
  · refine ⟨.result _, ht.symm, rfl, fun s' hs => ?_⟩
    rw [exec_stateless ht, hs.registries]
    rfl
  · exact absurd (targetExists_framer he ht) (Nat.not_lt.mpr (List.getElem?_eq_none_iff.mp hnone))
  · refine ⟨.framer _ f', ht.symm, rfl, fun s' hs => ?_⟩
    rw [(exec_framer ht s').2, onFramer_some ((hs.framer _ ht).trans hf) hidle, hs.params, hs.registries, hact]
    rfl
  · exact absurd (targetExists_deframer he ht) (Nat.not_lt.mpr (List.getElem?_eq_none_iff.mp hnone))
  · refine ⟨.deframer _ d', ht.symm, rfl, fun s' hs => ?_⟩
    rw [(exec_deframer ht s').2, onAnyDeframer_some ((hs.deframer _ ht).trans hd), hs.params, hs.registries, hact]
    rfl

/-- Settles O55: each command makes the same update after the other, and the two updates commute. -/
theorem commandsToDifferentInstancesCommute : Obligations.CommandsToDifferentInstancesCommute := by
  intro i₁ i₂ s s₁ s₂ hne he₁ he₂ h₁ h₂
  obtain ⟨u, hu, rfl, hexec₁⟩ := exec_update he₁ h₁
  obtain ⟨v, hv, rfl, hexec₂⟩ := exec_update he₂ h₂
  rw [← hu, ← hv] at hne
  refine ⟨v.apply (u.apply s), hexec₂ _ ?_, ?_⟩
  · exact hv ▸ u.sameInputs hne s
  · rw [← Update.apply_comm hne]
    exact hexec₁ _ (hu ▸ v.sameInputs hne.symm s)

end Sys2Proof.Machine
end

