-- ==== Sys2Proof/Proofs/SendNumbering.lean ====
section
/-! How the frame counter numbers what a framer sends (R28, R210, R213): a flush sends one datagram under the counter of
before or fails and leaves the counter, and every move of a framer runs at most one flush. -/

namespace Sys2Proof.Machine

open Sys2Proof.Safety

/-- One datagram has left for the destination of `f`, with the counter of `f`, and the framer waits on it. -/
def sendsOne (f f' : Framer) : Prop :=
  ∃ dg c, f'.tx = f.tx ++ [(f.cfg.dest, dg)] ∧ le32 dg 24 = f.fc ∧ f'.fc = f.fc + 1 ∧ f'.wait = .txPending dg f.fc c

/-- What numbers a framer's next datagram is the same in `f` and `g`: its configuration, its counter and what it has
sent. -/
structure SameNumbering (f g : Framer) : Prop where
  cfg : g.cfg = f.cfg
  fc : g.fc = f.fc
  tx : g.tx = f.tx

/-- One datagram is sent and numbered, or nothing is sent and the counter stays. -/
def sendsOneOrNone (f f' : Framer) : Prop := sendsOne f f' ∨ (f'.tx = f.tx ∧ f'.fc = f.fc)

/-- A result that leaves sends nothing. -/
theorem SameNumbering.sends_report {f g : Framer} (h : SameNumbering f g) (r : Result) : sendsOneOrNone f (g.report r) :=
  .inr ⟨h.tx, h.fc⟩

/-- A flush sends one datagram, or fails by size (R213). -/
theorem SameNumbering.sends_startFlush {f g : Framer} (h : SameNumbering f g) (c : FrCont) :
    sendsOneOrNone f (startFlush c g) := by
  obtain ⟨-, e, -, heq⟩ | ⟨-, heq⟩ := startFlush_cases c g <;> rw [heq]
  · exact h.sends_report _
  · refine .inl ⟨headerOf g.cfg g.fc ++ g.buf.bytes, c, ?_, ?_, ?_, ?_⟩
    · simp only [h.tx, h.cfg]
    · rw [le32_headerOf, h.fc]
    · simp only [h.fc]
    · simp only [h.fc]

/-- A write runs to its first flush, and an append before it touches the buffer alone (R215). -/
theorem SameNumbering.sends_writeLoop {f g : Framer} (h : SameNumbering f g) (kind : WriteKind) (data : List Byte) (n : Nat) :
    sendsOneOrNone f (writeLoop kind data n g) :=
  writeLoop_induct (P := SameNumbering f) (Q := sendsOneOrNone f) kind
    (append := fun _ _ _ hg _ _ => ⟨hg.cfg, hg.fc, hg.tx⟩)
    (flush := fun _ c hg _ => hg.sends_startFlush c)
    (fail := fun _ _ hg _ => hg.sends_report _)
    (done := fun _ _ hg => hg.sends_report _) data n g h

/-- What a command resumed by the answer `ok` sends (R213 to R218). -/
theorem SameNumbering.sends_resumeFramer {f g : Framer} (h : SameNumbering f g) (c : FrCont) (u : FrameCounter) :
    sendsOneOrNone f (resumeFramer c u g) := by
  cases c with
  | flush => exact h.sends_report _
  | write kind rest n => exact h.sends_writeLoop kind rest n
  | trailing n => exact h.sends_report _

/-- A move of a framer command sends at most one datagram, or is an FR_OPEN, which sets the counter to 0 (R211). -/
theorem framerMove_sends {p : Params} {R : Registries} {i : Instr} {f f' : Framer} (h : FramerMove p R f i f') :
    sendsOneOrNone f f' ∨ (f'.tx = f.tx ∧ f.isOpen = false ∧ f'.isOpen = true ∧ f'.fc = 0) := by
  have same : SameNumbering f f := ⟨rfl, rfl, rfl⟩
  cases h with
  | rejects r => exact .inl (same.sends_report r)
  | opens hclosed => exact .inr ⟨rfl, hclosed, rfl, rfl⟩
  | writes => exact .inl (same.sends_writeLoop _ _ _)
  | flushes => exact .inl (same.sends_startFlush _)
  | sends => exact .inl (same.sends_writeLoop _ _ _)
  | closes => exact .inl (.inr ⟨rfl, rfl⟩)

/-- An answer of the transport resumes a command, which sends at most one datagram, or ends the wait with nothing sent
and the counter kept or given back (R213). -/
theorem answerFramer_sends {p : Params} {ok : Bool} {f f' : Framer} (h : answerFramer p ok f = .ok f') :
    sendsOneOrNone f f' ∨
      (f'.tx = f.tx ∧ ∃ dg u c, f.wait = .txPending dg u c ∧ f'.wait = .idle ∧ f'.fc = u) := by
  obtain ⟨dg, u, c, hw, rfl | rfl⟩ := answerFramer_ok h
  · exact .inl (SameNumbering.sends_resumeFramer ⟨rfl, rfl, rfl⟩ c u)
  · cases htx : p.txFail with
    | restored => exact .inr ⟨rfl, dg, u, c, hw, rfl, by simp [failCont]⟩
    | advanced => exact .inl (.inr ⟨rfl, by simp [failCont]⟩)

/-- Settles O57: what a step does to a framer is nothing, a move of a command, or an answer of the transport. -/
theorem eachSendNumbersItsPacket : Obligations.EachSendNumbersItsPacket := by
  intro s t k f f' h hf hf'
  obtain rfl | ⟨-, i, hmove⟩ | ⟨ok, hanswer⟩ := step_framer h hf hf'
  · exact .inr ⟨rfl, .inl rfl⟩
  · obtain (hone | ⟨htx, hfc⟩) | ⟨htx, hopened⟩ := framerMove_sends hmove
    · exact .inl hone
    · exact .inr ⟨htx, .inl hfc⟩
    · exact .inr ⟨htx, .inr (.inl hopened)⟩
  · obtain (hone | ⟨htx, hfc⟩) | ⟨htx, hended⟩ := answerFramer_sends hanswer
    · exact .inl hone
    · exact .inr ⟨htx, .inl hfc⟩
    · exact .inr ⟨htx, .inr (.inr hended)⟩

end Sys2Proof.Machine
end

