-- ==== Sys2Proof/Proofs/CommandWords.lean ====
section
/-! The command word (R84): decode and encode are inverse to each other, and what the command-word check (R308) answers
for a reserved opcode, for the word of a command and for a stateless opcode. -/

namespace Sys2Proof

open Sys2Proof.Safety

/-- A command's own word and record decode to it. -/
theorem decode_encode (i : Instr) : decode (encode i).1 i.record = .ok i := by
  obtain ⟨hop, hinst, -⟩ := Laws.CommandWord.fields i.inst (opcodeByte i.opcode)
  rw [decode, encode, hop, hinst, opcodeOf_opcodeByte]
  simp only [buildCommand_self]

/-- A command is decoded from its own encoding alone. -/
theorem encode_of_decode {w : BitVec 16} {r : OperandRecord} {i : Instr} (h : decode w r = .ok i) :
    encode i = (w, r) := by
  obtain ⟨hop, hinst, rfl⟩ := decode_ok h
  rw [encode, ← hop, ← hinst, commandWord_fields]

/-- Settles O7: a command's encoding decodes to it, and nothing else does. -/
theorem decodeAndEncodeAgree : Obligations.DecodeAndEncodeAgree := by
  refine fun w r i => ⟨encode_of_decode, fun h => ?_⟩
  obtain ⟨rfl, rfl⟩ := Prod.mk.inj h
  exact decode_encode i

/-! ## Reserved and stateless opcodes -/

/-- The reserved opcodes are exactly the bytes that select no command (R92 item 1). -/
theorem opcodeOf_eq_none_iff {op : Byte} : opcodeOf op = none ↔ reservedOp op := by
  have unused : opcodeOf op = none ↔ ∀ o ∈ opcodeTable, (opcodeByte o).toNat ≠ op.toNat := by
    simp [opcodeOf, BitVec.toNat_inj]
  simp only [unused, opcodeTable, List.forall_mem_cons, List.not_mem_nil, false_implies, implies_true, and_true,
    opcodeByte, BitVec.reduceToNat, reservedOp]
  omega

/-- A word of reserved opcode decodes to nothing, whatever its record. -/
theorem decode_reserved {w : BitVec 16} (h : reservedOp (opField w)) (r : OperandRecord) :
    decode w r = .error (.reservedOp (opField w)) := by
  simp only [decode, opcodeOf_eq_none_iff.mpr h]

/-- The stateless opcodes select the six commands that address no instance (R92 item 3). -/
theorem opcodeOf_stateless {op : Byte} (h : statelessOp op) :
    ∃ o ∈ [Opcode.regLookup, .regDims, .hdrEncode, .hdrDecode, .pktCreate, .pktDecode], opcodeOf op = some o := by
  obtain rfl | rfl | rfl | rfl | rfl | rfl := h
  · exact ⟨.regLookup, by simp, opcodeOf_opcodeByte .regLookup⟩
  · exact ⟨.regDims, by simp, opcodeOf_opcodeByte .regDims⟩
  · exact ⟨.hdrEncode, by simp, opcodeOf_opcodeByte .hdrEncode⟩
  · exact ⟨.hdrDecode, by simp, opcodeOf_opcodeByte .hdrDecode⟩
  · exact ⟨.pktCreate, by simp, opcodeOf_opcodeByte .pktCreate⟩
  · exact ⟨.pktDecode, by simp, opcodeOf_opcodeByte .pktDecode⟩

/-- Settles O6: seven words are the encodings of their commands, and two have a reserved opcode. -/
theorem specWordsDecodeToTheirCommands : Obligations.SpecWordsDecodeToTheirCommands := by
  have decodes {w : BitVec 16} {r : OperandRecord} {i : Instr} : encode i = (w, r) → decode w r = .ok i :=
    (decodeAndEncodeAgree w r i).mpr
  have rejects (w : BitVec 16) : reservedOp (opField w) → decode w .none = .error (.reservedOp (opField w)) :=
    fun h => decode_reserved h _
  refine ⟨decodes rfl, decodes rfl, decodes rfl, decodes rfl, decodes rfl, decodes rfl, decodes rfl,
    rejects 0x0003 (.inr (.inl ?_)), rejects 0x0045 ?_⟩
  · decide
  · unfold reservedOp
    decide

end Sys2Proof

namespace Sys2Proof.Machine

open Sys2Proof.Safety

/-! ## The command-word check -/

/-- The FR_ opcodes as numbers (R308). -/
theorem isFramerOp_iff {op : Byte} : isFramerOp op = true ↔ 0x30 ≤ op.toNat ∧ op.toNat ≤ 0x34 := by
  simp [isFramerOp, BitVec.le_def]

/-- The DF_ opcodes as numbers (R308). -/
theorem isDeframerOp_iff {op : Byte} : isDeframerOp op = true ↔ 0x40 ≤ op.toNat ∧ op.toNat ≤ 0x44 := by
  simp [isDeframerOp, BitVec.le_def]

/-- No opcode is both an FR_ and a DF_ opcode. -/
theorem isFramerOp_eq_false {op : Byte} (h : isDeframerOp op = true) : isFramerOp op = false := by
  rw [Bool.eq_false_iff, Ne, isFramerOp_iff]
  have := isDeframerOp_iff.mp h
  omega

/-- Every FR_ and every DF_ opcode selects a command. -/
theorem opcodeOf_instanceOp {op : Byte} (h : isFramerOp op = true ∨ isDeframerOp op = true) : opcodeOf op ≠ none := by
  rw [isFramerOp_iff, isDeframerOp_iff] at h
  rw [Ne, opcodeOf_eq_none_iff, reservedOp]
  omega

/-- A reserved opcode is cause 1. -/
theorem wordCheck_reserved {w : BitVec 16} (h : reservedOp (opField w)) (s : State) : wordCheck s w = some 1 := by
  simp [wordCheck, opcodeOf_eq_none_iff.mpr h]

/-- An FR_ word to a framer that is not there is cause 2. -/
theorem wordCheck_framer {w : BitVec 16} {s : State} (h : isFramerOp (opField w) = true)
    (hk : s.frs.length ≤ (instField w).toNat) : wordCheck s w = some 2 := by
  simp [wordCheck, opcodeOf_instanceOp (.inl h), h, hk]

/-- A DF_ word to a deframer that is not there is cause 2. -/
theorem wordCheck_deframer {w : BitVec 16} {s : State} (h : isDeframerOp (opField w) = true)
    (hk : s.dfs.length ≤ (instField w).toNat) : wordCheck s w = some 2 := by
  simp [wordCheck, opcodeOf_instanceOp (.inr h), isFramerOp_eq_false h, h, hk]

/-- A stateless opcode passes under every `inst` and in every state. -/
theorem wordCheck_stateless {w : BitVec 16} (h : statelessOp (opField w)) (s : State) : wordCheck s w = none := by
  obtain ⟨o, -, ho⟩ := opcodeOf_stateless h
  have noInstance : isFramerOp (opField w) = false ∧ isDeframerOp (opField w) = false := by
    obtain h | h | h | h | h | h := h <;> rw [h] <;> decide
  simp [wordCheck, ho, noInstance]

/-- A word that fails the check is answered with its IllegalCommand, before its record is read (R308). -/
theorem runCommand_illegal {w : BitVec 16} {s : State} {c : BitVec 8} (h : wordCheck s w = some c) (r : OperandRecord) :
    runCommand w r s = .next (s.report (raiseResult (illegalCommand c) (failFields (opField w)))) := by
  simp only [runCommand, h]

/-! ## A command that arrives -/

/-- An FR_ command to a framer that is not there is answered by its meaning too (R92 item 2). -/
theorem exec_framer_missing {i : Instr} {s : State} (h : isFramerOp (opcodeByte i.opcode) = true)
    (hk : s.frs.length ≤ i.inst.toNat) : exec i s = illegalInstance (opcodeByte i.opcode) s := by
  have ht : targetOf i = some (true, i.inst.toNat) := by rw [targetOf, if_pos h]
  rw [(exec_framer ht s).2, onFramer_none (List.getElem?_eq_none hk)]

/-- A DF_ command to a deframer that is not there is answered by its meaning too (R92 item 2). -/
theorem exec_deframer_missing {i : Instr} {s : State} (h : isDeframerOp (opcodeByte i.opcode) = true)
    (hk : s.dfs.length ≤ i.inst.toNat) : exec i s = illegalInstance (opcodeByte i.opcode) s := by
  have ht : targetOf i = some (false, i.inst.toNat) := by simp [targetOf, isFramerOp_eq_false h, h]
  rw [(exec_deframer ht s).2, onAnyDeframer, List.getElem?_eq_none hk]

/-- A decoded, well-formed command runs: where the command-word check answers instead, it answers what the meaning of the
command does. -/
theorem runCommand_decoded {w : BitVec 16} {r : OperandRecord} {i : Instr} (hd : decode w r = .ok i)
    (hw : i.wellFormed = true) (s : State) : runCommand w r s = exec i s := by
  obtain ⟨hop, hinst, -⟩ := decode_ok hd
  have illegal (h : wordCheck s w = some 2) : runCommand w r s = illegalInstance (opcodeByte i.opcode) s := by
    rw [runCommand_illegal h, hop, illegalInstance]
  have hcheck := wordCheck_encode i s
  rw [← hop, ← hinst, commandWord_fields] at hcheck
  split_ifs at hcheck with hframer hdeframer
  · rw [illegal hcheck, exec_framer_missing (hop ▸ hframer.1) (hinst ▸ hframer.2)]
  · rw [illegal hcheck, exec_deframer_missing (hop ▸ hdeframer.1) (hinst ▸ hdeframer.2)]
  · simp only [runCommand, hcheck, hd, hw, if_true]

/-- Settles O5: a step takes the event, and an arriving command that decodes runs. -/
theorem stepRunsTheDecodedCommand : Obligations.StepRunsTheDecodedCommand := by
  intro s w r rest i he hd hw
  rw [step_cons he]
  exact runCommand_decoded hd hw _

/-- A word that passes the command-word check runs the command built from its fields and its record. -/
theorem runCommand_passed {w : BitVec 16} {s : State} {o : Opcode} (hcheck : wordCheck s w = none)
    (ho : opcodeOf (opField w) = some o) (r : OperandRecord) :
    runCommand w r s = (buildCommand o (instField w) r).elim (.refused .illFormedRecord)
      fun i => if i.wellFormed then exec i s else .refused .illFormedRecord := by
  cases hb : buildCommand o (instField w) r <;> simp only [runCommand, hcheck, decode, ho, hb, Option.elim]

/-- A stateless command runs alike under every `inst` (R92 item 3). -/
theorem runCommand_stateless {w w' : BitVec 16} (h : statelessOp (opField w)) (hw' : opField w' = opField w)
    (r : OperandRecord) (s : State) : runCommand w' r s = runCommand w r s := by
  obtain ⟨o, hmem, ho⟩ := opcodeOf_stateless h
  rw [runCommand_passed (wordCheck_stateless h s) ho,
    runCommand_passed (wordCheck_stateless (hw' ▸ h) s) (hw' ▸ ho)]
  simp only [List.mem_cons, List.not_mem_nil, or_false] at hmem
  obtain rfl | rfl | rfl | rfl | rfl | rfl := hmem <;> cases r <;> rfl

/-- Settles O8: the command-word check answers a reserved word and a word to no instance, and a stateless command
ignores `inst`. -/
theorem reservedWordsAreIllegalCommands : Obligations.ReservedWordsAreIllegalCommands := by
  intro s w r rest he
  have illegal {c : BitVec 8} (h : wordCheck { s with events := rest } w = some c) :
      ∃ fields, step s = .next (State.report { s with events := rest } ⟨.illegalCommand, c, fields⟩) :=
    ⟨failFields (opField w), (step_cons he).trans (runCommand_illegal h r)⟩
  refine ⟨fun h => illegal (wordCheck_reserved h _), fun ⟨hlow, hhigh, hk⟩ => illegal ?_,
    fun ⟨hlow, hhigh, hk⟩ => illegal ?_, fun h w' hw' => ?_⟩
  · exact wordCheck_framer (isFramerOp_iff.mpr ⟨hlow, hhigh⟩) hk
  · exact wordCheck_deframer (isDeframerOp_iff.mpr ⟨hlow, hhigh⟩) hk
  · rw [step_cons he, step_cons rfl]
    exact runCommand_stateless h hw' r _

end Sys2Proof.Machine
end

