-- ==== Sys2Proof/Proofs/HeaderEncoding.lean ====
section
/-! The bytes of a header that HDR_ENCODE answers (R80, R150). -/

namespace Sys2Proof.Machine

open Sys2Proof.Safety

/-- The wire form of an operand's byte counts from 0: one less, mod 256 (R153). -/
theorem wire_byteOf_toNat (v : BitVec 32) : (wire (byteOf v)).toNat = (v.toNat + 255) % 256 := by
  rw [wire, byteOf]
  bv_omega

/-- The byte of a name character: itself when it is ASCII, else `?` (R150). -/
theorem nameByte_eq (c : CodePoint) : nameByte c = if c.toNat < 0x80 then c.setWidth 8 else 0x3F := by
  simp [nameByte, BitVec.lt_def, Config.asciiReplacement]

/-- The bytes of an encoded name: one for each of its first 16 characters, then zeros (R150). -/
theorem byteAt_encodeName (name : List CodePoint) {i : Nat} (hi : i < 16) :
    byteAt (encodeName name) i = (name[i]?.map nameByte).getD 0 := by
  have hcut : (name.take Config.nameLen)[i]? = name[i]? := List.getElem?_take_of_lt hi
  rw [byteAt, encodeName, List.getD_eq_getElem?_getD]
  cases hc : name[i]? with
  | some c =>
    have hmapped : ((name.take Config.nameLen).map nameByte)[i]? = some (nameByte c) := by
      rw [List.getElem?_map, hcut, hc, Option.map_some]
    rw [List.getElem?_append_left (List.getElem?_eq_some_iff.mp hmapped).1, hmapped]
    rfl
  | none =>
    have hpadding : ((name.take Config.nameLen).map nameByte).length ≤ i := by
      rw [List.length_map]
      exact List.getElem?_eq_none_iff.mp (hcut.trans hc)
    rw [List.getElem?_append_right hpadding, zeroBytes, List.getElem?_replicate]
    split <;> rfl

/-- A byte of a part of a sequence is the byte of the sequence that far behind the part's start. -/
theorem byteAt_take_drop (b : List Byte) (o : Nat) {n i : Nat} (hi : i < n) :
    byteAt ((b.drop o).take n) i = byteAt b (o + i) := by
  simp [byteAt, List.getD_eq_getElem?_getD, hi]

/-- A byte of a little-endian word is its digit to the base 256 (R61). -/
theorem byteAt_toLe32_toNat (v : BitVec 32) {j : Nat} (hj : j < 4) :
    (byteAt (toLe32 v) j).toNat = v.toNat / 256 ^ j % 256 := by
  obtain ⟨h₀, h₁, h₂, h₃⟩ := toLe32_toNat v
  interval_cases j
  · simpa using h₀
  · simpa using h₁
  · simpa using h₂
  · simpa using h₃

/-- The header that HDR_ENCODE packs from its record (R151). -/
def headerBytes (r : HeaderRecord) : List Byte :=
  packHeader r.protocol r.rate (byteOf r.samples) (byteOf r.channel) r.codec r.format (encodeName r.name) r.fc

/-- The bytes of that header, offset by offset (R80). -/
theorem byteAt_headerBytes (r : HeaderRecord) :
    byteAt (headerBytes r) 4 = r.protocol ||| r.rate ∧ byteAt (headerBytes r) 5 = wire (byteOf r.samples) ∧
    byteAt (headerBytes r) 6 = wire (byteOf r.channel) ∧ byteAt (headerBytes r) 7 = r.codec ||| r.format ∧
    (headerBytes r).take 4 = Config.magic ∧ ((headerBytes r).drop 8).take 16 = encodeName r.name ∧
    ∀ j < 4, byteAt (headerBytes r) (24 + j) = byteAt (toLe32 r.fc) j :=
  byteAt_packHeader _ _ _ _ _ _ _ _ (encodeName_length_eq r.name)

/-- The name bytes of that header (R150). -/
theorem byteAt_headerBytes_name (r : HeaderRecord) {i : Nat} (hi : i < 16) :
    byteAt (headerBytes r) (8 + i) = (r.name[i]?.map nameByte).getD 0 := by
  obtain ⟨-, -, -, -, -, hname, -⟩ := byteAt_headerBytes r
  rw [← byteAt_take_drop _ 8 hi, hname, byteAt_encodeName r.name hi]

/-- On encodable operands HDR_ENCODE answers the packed header (R151, R152). -/
theorem exec_hdrEncode_encodable {k : Byte} {r : HeaderRecord} {s : State} (hR : registriesLegal s.registries)
    (h : encodable r.protocol r.rate r.samples r.channel r.format r.codec) :
    exec (.hdrEncode k r) s = .next (s.report ⟨.ok, 0, .hb (headerBytes r)⟩) := by
  have hcheck := (checkEncode_none hR).mpr h
  rw [exec_stateless rfl]
  simp only [statelessResult, encodeHeader, hcheck, resultOf, okResult, headerBytes]

/-- Settles O12: the answer is the packed header, whose bytes the codec's lemmas give offset by offset. -/
theorem hdrEncodeAnswersTheHeader : Obligations.HdrEncodeAnswersTheHeader := by
  intro k r s hR h
  have hexec := exec_hdrEncode_encodable (k := k) hR h
  obtain ⟨-, -, hprotocol, ⟨rd, hrd, hrate⟩, ⟨fd, hfd, hformat⟩, hcodec⟩ := h
  obtain ⟨hbyte4, hbyte5, hbyte6, hbyte7, hmagic, -, hfc⟩ := byteAt_headerBytes r
  obtain ⟨hsum4, hhigh4, hlow4, -⟩ := join_protocol_rate hprotocol (rate_code_lt hrd hrate)
  obtain ⟨hsum7, hhigh7, hlow7, -⟩ := join_codec_format hcodec (format_code_lt hfd hformat)
  rw [← hbyte4] at hsum4 hhigh4 hlow4
  rw [← hbyte7] at hsum7 hhigh7 hlow7
  refine ⟨headerBytes r, hexec, packHeader_length _ _ _ _ _ _ _ _ (encodeName_length_eq r.name), hmagic,
    hsum4, hhigh4, hlow4, ?_, ?_, hsum7, hhigh7, hlow7, fun i hi => ?_, fun j hj => ?_⟩
  · rw [hbyte5, wire_byteOf_toNat]
  · rw [hbyte6, wire_byteOf_toNat]
  · rw [byteAt_headerBytes_name r hi]
    cases r.name[i]? with
    | none => rfl
    | some c => exact nameByte_eq c
  · rw [hfc j hj, byteAt_toLe32_toNat r.fc hj]

end Sys2Proof.Machine
end

