-- ==== Sys2Proof/Proofs/RegistryCommands.lean ====
section
/-! What the two registry commands answer (R111, R112): the value of a code in its dimension, and the dimensions that a
protocol selects. -/

namespace Sys2Proof.Machine

open Sys2Proof.Safety

/-- A dimension is the one of its number (R97). -/
theorem dimOfNumber_dimNumber (d : Dimension) : dimOfNumber (dimNumber d) = some d := by
  cases d <;> rfl

/-- A code of the dimension has a named value in its registry. -/
theorem exists_regValue_of_mem_codes {R : Registries} (hR : registriesLegal R) {d : Dimension} {c : Byte}
    (h : c ∈ Config.codes d) : ∃ v, regValue R d c = some v :=
  Option.isSome_iff_exists.mp ((inDim_iff hR d c).mpr h)

/-- A code outside the dimension has none. -/
theorem regValue_eq_none {R : Registries} (hR : registriesLegal R) {d : Dimension} {c : Byte}
    (h : c ∉ Config.codes d) : regValue R d c = none :=
  Option.not_isSome_iff_eq_none.mp (mt (inDim_iff hR d c).mp h)

/-- A lookup in a dimension answers what its registry holds (R111). -/
theorem lookupAnswer_dimNumber (R : Registries) (d : Dimension) (c : Byte) :
    lookupAnswer R (dimNumber d) c = (regValue R d c).elim (.error (unknownCode d)) .ok := by
  rw [lookupAnswer, dimOfNumber_dimNumber]
  cases hv : regValue R d c <;> simp only [hv, Option.elim]

/-- Settles O9: dimension 7 names no registry, and in any other the registry decides whether the code has a value. -/
theorem regLookupAnswers : Obligations.RegLookupAnswers := by
  intro k dim code s hR
  have hexec : exec (.regLookup k dim code) s =
      .next (s.report (resultOf .value (lookupAnswer s.registries dim code))) := exec_stateless rfl s
  rw [hexec]
  refine ⟨?_, ?_, ?_⟩
  · rintro rfl
    rfl
  · rintro d rfl hcode
    obtain ⟨v, hv⟩ := exists_regValue_of_mem_codes hR hcode
    refine ⟨v, mem_of_lookup hv, ?_⟩
    rw [lookupAnswer_dimNumber, hv]
    rfl
  · rintro d rfl hcode
    rw [lookupAnswer_dimNumber, regValue_eq_none hR hcode]
    rfl

/-- A protocol that selects a rate and a format dimension is answered with the two (R112). -/
theorem dimsAnswer_selected {R : Registries} (hR : registriesLegal R) {p : Byte} {rd fd : Dimension}
    (hrd : rateDim p = some rd) (hfd : fmtDim p = some fd) : dimsAnswer R p = .ok (rd, fd) := by
  have hcheck : checkProtocol R p = none := (checkProtocol_none hR).mpr (rateDim_isSome.mp ⟨rd, hrd⟩)
  simp only [dimsAnswer, hcheck, hrd, hfd]

/-- A code that fails the protocol check is answered with its failure (R112). -/
theorem dimsAnswer_refused {R : Registries} {p : Byte} {e : Failure} (h : checkProtocol R p = some e) :
    dimsAnswer R p = .error e := by
  simp only [dimsAnswer, h]

/-- Settles O10: Audio, Serial and Text select their dimensions, and the protocol check refuses every other code. -/
theorem regDimsAnswers : Obligations.RegDimsAnswers := by
  intro k p s hR
  rw [exec_stateless rfl, statelessResult]
  split_ifs with haudio hserial htext hservice
  · rw [haudio, dimsAnswer_selected hR rfl rfl]
    rfl
  · rw [hserial, dimsAnswer_selected hR rfl rfl]
    rfl
  · rw [htext, dimsAnswer_selected hR rfl rfl]
    rfl
  · rw [hservice, dimsAnswer_refused (checkProtocol_service hR)]
    rfl
  · have hunknown : p ∉ Config.codes .protocol := by
      simp only [mem_protocol_codes, streamProtocol, haudio, hserial, htext, hservice, or_self, not_false_eq_true]
    rw [dimsAnswer_refused (checkProtocol_unknown hR hunknown)]
    rfl

end Sys2Proof.Machine
end

