-- ==== Sys2Proof/Proofs/Buffer.lean ====
section
/-! The growable buffer: what one append does, by room and mode (R131), and what a run of appends gives (R136). -/

namespace Sys2Proof.Machine

/-- An append to a buffer with room adds its byte and grows nothing. -/
theorem bufAppend_room {g : GrowBuf} (hroom : g.bytes.length ≠ g.cap) (b : Byte) :
    bufAppend g b = .ok ⟨g.bytes ++ [b], g.cap, g.fixed⟩ := by
  rw [bufAppend, if_neg hroom]

/-- An append to a full growable buffer doubles the capacity, at least to 1. -/
theorem bufAppend_full_growable {g : GrowBuf} (hfull : g.bytes.length = g.cap) (hfixed : g.fixed = false) (b : Byte) :
    bufAppend g b = .ok ⟨g.bytes ++ [b], max 1 (2 * g.cap), false⟩ := by
  simp only [bufAppend, if_pos hfull, hfixed, Bool.false_eq_true, if_false]

/-- An append to a full fixed buffer fails. -/
theorem bufAppend_full_fixed {g : GrowBuf} (hfull : g.bytes.length = g.cap) (hfixed : g.fixed = true) (b : Byte) :
    bufAppend g b = .error (bufferTooLarge 1) := by
  rw [bufAppend, if_pos hfull, if_pos hfixed]

/-- The doubled capacity, at least 1, by cases on the old one. -/
theorem max_one_two_mul (n : Nat) : max 1 (2 * n) = if n = 0 then 1 else 2 * n := by
  split_ifs <;> omega

/-- Settles O22: one equation of the append per case of room and mode. -/
theorem bufAppendGrowsOrFails : Obligations.BufAppendGrowsOrFails := by
  intro g b
  refine ⟨fun hroom => bufAppend_room hroom b, fun hfull hfixed => ?_, fun hfull hfixed => ?_⟩
  · rw [bufAppend_full_growable hfull hfixed, max_one_two_mul]
  · exact bufAppend_full_fixed hfull hfixed b

/-- Appends to a growable buffer whose bytes fit in its capacity all succeed: they add their bytes in order behind the
old ones, which then fit in a capacity no less than the old one. -/
theorem foldlM_bufAppend_growable (bs : List Byte) :
    ∀ g : GrowBuf, g.fixed = false → g.bytes.length ≤ g.cap →
      ∃ cap, g.cap ≤ cap ∧ g.bytes.length + bs.length ≤ cap ∧
        bs.foldlM bufAppend g = .ok ⟨g.bytes ++ bs, cap, false⟩ := by
  induction bs with
  | nil =>
    intro g hfixed hfits
    exact ⟨g.cap, le_rfl, hfits, by rw [List.append_nil, ← hfixed]; rfl⟩
  | cons b bs ih =>
    intro g hfixed hfits
    obtain ⟨cap, hcap, hroom, happend⟩ := bufAppend_growable hfixed b
    obtain ⟨cap', hcap', hfits', hrest⟩ :=
      ih ⟨g.bytes ++ [b], cap, false⟩ rfl (by simpa using hroom hfits)
    refine ⟨cap', hcap.trans hcap', ?_, ?_⟩
    · simp only [List.length_append, List.length_cons, List.length_nil] at hfits' ⊢
      omega
    · rw [List.foldlM_cons, happend]
      rw [List.append_assoc, List.singleton_append] at hrest
      exact hrest

/-- Settles O23: the run of appends that starts from no bytes. -/
theorem appendsKeepContentsAndCapacity : Obligations.AppendsKeepContentsAndCapacity := by
  intro g bs hempty hfixed
  obtain ⟨cap, hcap, hlen, hrun⟩ := foldlM_bufAppend_growable bs g hfixed (by simp [hempty])
  rw [hempty, List.nil_append] at hrun
  rw [hempty, List.length_nil, Nat.zero_add] at hlen
  exact ⟨_, hrun, rfl, hlen, hcap, rfl⟩

end Sys2Proof.Machine
end

