-- ==== Sys2Proof/Proofs/HeaderEncodeChecks.lean ====
section
/-! The checks of HDR_ENCODE and of FR_OPEN (R152): operands that fail none are encodable, and the first that fails
decides what both commands answer. -/

namespace Sys2Proof.Machine

open Sys2Proof.Safety

/-- Operands that fail no check are encodable (R152). -/
theorem encodable_or_fails (protocol rate : Byte) (samples channel : BitVec 32) (format codec : Byte) :
    encodable protocol rate samples channel format codec ∨
      ∃ st cause, encodeFails protocol rate samples channel format codec st cause := by
  unfold encodable encodeFails
  by_cases hsamples : 0 ≤ samples.toInt ∧ samples.toInt ≤ 255
  swap
  · exact .inr ⟨_, _, .inl ⟨hsamples, rfl, rfl⟩⟩
  by_cases hchannel : 0 ≤ channel.toInt ∧ channel.toInt ≤ 255
  swap
  · exact .inr ⟨_, _, .inr ⟨hsamples, .inl ⟨hchannel, rfl, rfl⟩⟩⟩
  by_cases hknown : protocol ∈ Config.codes .protocol
  swap
  · exact .inr ⟨_, _, .inr ⟨hsamples, .inr ⟨hchannel, .inl ⟨hknown, rfl, rfl⟩⟩⟩⟩
  obtain hprotocol | hservice := mem_protocol_codes.mp hknown
  swap
  · exact .inr ⟨_, _, .inr ⟨hsamples, .inr ⟨hchannel, .inr (.inl ⟨hservice, rfl, rfl⟩)⟩⟩⟩
  obtain ⟨rd, hrd⟩ := rateDim_isSome.mpr hprotocol
  obtain ⟨fd, hfd⟩ := fmtDim_isSome.mpr hprotocol
  by_cases hrate : rate ∈ Config.codes rd
  swap
  · exact .inr ⟨_, _, .inr ⟨hsamples, .inr ⟨hchannel, .inr (.inr ⟨rd, fd, hrd, hfd, .inl ⟨hrate, rfl, rfl⟩⟩)⟩⟩⟩
  by_cases hformat : format ∈ Config.codes fd
  swap
  · exact .inr ⟨_, _, .inr ⟨hsamples, .inr ⟨hchannel, .inr (.inr ⟨rd, fd, hrd, hfd,
      .inr ⟨hrate, .inl ⟨hformat, rfl, rfl⟩⟩⟩)⟩⟩⟩
  by_cases hcodec : codec ∈ Config.codes .codec
  swap
  · exact .inr ⟨_, _, .inr ⟨hsamples, .inr ⟨hchannel, .inr (.inr ⟨rd, fd, hrd, hfd,
      .inr ⟨hrate, .inr ⟨hformat, hcodec, rfl, rfl⟩⟩⟩)⟩⟩⟩
  exact .inl ⟨hsamples, hchannel, hprotocol, ⟨rd, hrd, hrate⟩, ⟨fd, hfd, hformat⟩, hcodec⟩

/-- A failing check is what HDR_ENCODE answers (R151, R152). -/
theorem exec_hdrEncode_fails {k : Byte} {r : HeaderRecord} {s : State} {e : Failure}
    (h : checkEncode s.registries r.protocol r.rate r.samples r.channel r.format r.codec = some e) :
    exec (.hdrEncode k r) s = .next (s.report ⟨e.status, e.cause, .none⟩) := by
  rw [exec_stateless rfl]
  simp only [statelessResult, encodeHeader, h, resultOf, raiseResult]

/-- A failing check is what FR_OPEN answers on a closed framer, and all that it does there (R211). -/
theorem openFramer_fails {p : Params} {R : Registries} {r : StreamRecord} {f : Framer} {e : Failure}
    (hclosed : f.isOpen = false)
    (h : checkEncode R r.protocol r.rate r.samples r.channel r.format r.codec = some e) :
    openFramer p R r f = .ok (f.report ⟨e.status, e.cause, .none⟩) := by
  simp only [openFramer, hclosed, h, Bool.false_eq_true, if_false, raiseResult]

/-- FR_OPEN to an idle framer makes of it what `openFramer` says (R211). -/
theorem exec_frOpen_idle {k : Byte} {r : StreamRecord} {s : State} {f : Framer} (hf : s.frs[k.toNat]? = some f)
    (hidle : f.wait = .idle) :
    exec (.frOpen k r) s = framerOutcome s k.toNat (openFramer s.params s.registries r f) :=
  (exec_framer (i := .frOpen k r) rfl s).2.trans (onFramer_some hf hidle)

/-- Settles O11: both commands run `checkEncode`, which answers the first check that fails. -/
theorem encodeChecksDecideInOrder : Obligations.EncodeChecksDecideInOrder := by
  refine ⟨encodable_or_fails, fun k r s st cause hR h => ?_, fun k r s f st cause hR hf hidle hclosed h => ?_⟩
  · exact exec_hdrEncode_fails (checkEncode_some hR h)
  · rw [exec_frOpen_idle hf hidle, openFramer_fails hclosed (checkEncode_some hR h)]
    rfl

end Sys2Proof.Machine
end

