-- ==== Sys2Proof/Proofs/HeaderDecoding.lean ====
section
/-! What HDR_DECODE answers: the first failing step of decode validation (R158), or the header value that the bytes
hold (R157, R159). -/

namespace Sys2Proof.Machine

open Sys2Proof.Safety

/-! ## Decode validation decides -/

/-- Where decode validation fails, its failure is the answer (R158). -/
theorem decodeHeader_fails {R : Registries} {strict : Bool} {data : List Byte} {e : Failure}
    (h : checkDecode R strict data = some e) : decodeHeader R strict data = .error e := by
  simp only [decodeHeader, h]

/-- A decodable input decodes to its fields (R157). -/
theorem decodeHeader_decodable {R : Registries} (hR : registriesLegal R) {strict : Bool} {data : List Byte}
    (h : decodable strict data) : decodeHeader R strict data = .ok (unpackHeader data) := by
  simp only [decodeHeader, (checkDecode_none hR).mpr h]

/-- A header value that leaves the decoder is the fields of an input that has passed decode validation. -/
theorem decodeHeader_ok {R : Registries} {strict : Bool} {data : List Byte} {h : Header}
    (hdecode : decodeHeader R strict data = .ok h) : checkDecode R strict data = none ∧ h = unpackHeader data := by
  cases hcheck : checkDecode R strict data with
  | some e =>
    rw [decodeHeader_fails hcheck] at hdecode
    cases hdecode
  | none =>
    simp only [decodeHeader, hcheck, Except.ok.injEq] at hdecode
    exact ⟨rfl, hdecode.symm⟩

/-- A failure of decode validation, with STRICT_DECODE as it is here, is what HDR_DECODE answers (R163). -/
theorem exec_hdrDecode_fails {k : Byte} {data : List Byte} {s : State} {e : Failure}
    (h : checkDecode s.registries true data = some e) :
    exec (.hdrDecode k data) s = .next (s.report ⟨e.status, e.cause, .none⟩) := by
  rw [exec_stateless rfl, statelessResult, Config.strictDecode, decodeHeader_fails h]
  rfl

/-- On a decodable input HDR_DECODE answers its fields (R157). -/
theorem exec_hdrDecode_decodable {k : Byte} {data : List Byte} {s : State} (hR : registriesLegal s.registries)
    (h : decodable true data) :
    exec (.hdrDecode k data) s = .next (s.report ⟨.ok, 0, .hdr (unpackHeader data)⟩) := by
  rw [exec_stateless rfl, statelessResult, Config.strictDecode, decodeHeader_decodable hR h]
  rfl

/-- Settles O13: `checkDecode` answers the first failing step, and HDR_DECODE answers what it does. -/
theorem decodeChecksDecideInOrder : Obligations.DecodeChecksDecideInOrder := by
  refine ⟨decodable_or_fails, fun R strict data hR => ⟨fun st cause h => ?_, fun h => ?_⟩,
    fun k data s st cause hR h => ?_⟩
  · exact decodeHeader_fails (checkDecode_some hR h)
  · exact ⟨_, decodeHeader_decodable hR h⟩
  · exact exec_hdrDecode_fails (checkDecode_some hR h)

/-- The magic is looked at before any registry, so no registry matters where it is wrong (R158, step 2). -/
theorem checkDecode_wrongMagic (R : Registries) (strict : Bool) {data : List Byte} (hlen : data.length = 28)
    (hmagic : data.take 4 ≠ [0x56, 0x42, 0x41, 0x4E]) : checkDecode R strict data = some (malformedHeader 2) := by
  have hpasses : ¬data.length ≠ Config.hdrLen := not_not.mpr hlen
  have hfails : sliceOf data 0 4 ≠ Config.magic := hmagic
  simp only [checkDecode, if_neg hpasses, if_pos hfails]

/-- Settles O16: 28 bytes pass the first step and these fail the second. -/
theorem wrongMagicIsMalformed : Obligations.WrongMagicIsMalformed := by
  intro k data s hlen hmagic
  exact exec_hdrDecode_fails (checkDecode_wrongMagic _ true hlen hmagic)

/-! ## Service -/

/-- An input that passes decode validation, whatever the registries hold, is not of protocol Service (R160). -/
theorem protocol_ne_service_of_checkDecode {R : Registries} {strict : Bool} {data : List Byte}
    (h : checkDecode R strict data = none) : byteAt data 4 &&& 0xE0 ≠ 0x60 := by
  intro hservice
  simp only [checkDecode, hservice, if_true] at h
  split_ifs at h

/-- The protocol code in place is bits 7:5 of its byte, the other bits zero (R159). -/
theorem and_E0_toNat (b : Byte) : (b &&& 0xE0).toNat = b.toNat / 32 * 32 := by
  revert b; decide

/-- The codec code in place is bits 7:4 of its byte, the other bits zero (R159). -/
theorem and_F0_toNat (b : Byte) : (b &&& 0xF0).toNat = b.toNat / 16 * 16 := by
  revert b; decide

/-- The protocol code of a header whose protocol field is 011 is Service's. -/
theorem protocol_eq_service {b : Byte} (h : b.toNat / 32 = 3) : b &&& 0xE0 = 0x60 := by
  apply BitVec.eq_of_toNat_eq
  rw [and_E0_toNat, h]
  rfl

/-- Settles O17: decode validation has a step of its own for Service, behind the membership of its protocol code. -/
theorem serviceNeverDecodes : Obligations.ServiceNeverDecodes := by
  refine ⟨fun k data s hR hlen hmagic hfield => ?_, fun R strict data h hdecode => ?_⟩
  · have hfails : decodeFails true data .unsupportedProtocol 0 :=
      .inr ⟨hlen, .inr ⟨hmagic, .inr (.inl ⟨protocol_eq_service hfield, rfl, rfl⟩)⟩⟩
    exact exec_hdrDecode_fails (checkDecode_some hR hfails)
  · obtain ⟨hcheck, rfl⟩ := decodeHeader_ok hdecode
    exact protocol_ne_service_of_checkDecode hcheck

/-! ## The fields -/

/-- The count of a wire byte is one more, mod 256 (R153). -/
theorem count_toNat (w : Byte) : (count w).toNat = (w.toNat + 1) % 256 := by
  rw [count, BitVec.toNat_add]
  rfl

/-- The decoded name is what stands before the first zero byte of its field (R156). -/
theorem decodeName_before_zero (nb : List Byte) : ∃ rest, (decodeName nb).1 ++ rest = nb ∧
    (0 : Byte) ∉ (decodeName nb).1 ∧ (rest = [] ∨ ∃ more, rest = 0 :: more) := by
  refine ⟨nb.dropWhile (· != 0), List.takeWhile_append_dropWhile, fun hmem => ?_, ?_⟩
  · have := List.mem_takeWhile_imp hmem
    simp at this
  · cases hrest : nb.dropWhile (· != 0) with
    | nil => exact .inl rfl
    | cons b more =>
      have hstop := List.head?_dropWhile_not (· != 0) nb
      rw [hrest] at hstop
      have hzero : b = 0 := by simpa using hstop
      exact .inr ⟨more, by rw [hzero]⟩

/-- Settles O14: the answer is `unpackHeader`, whose fields are the bytes' fields. -/
theorem hdrDecodeAnswersTheFields : Obligations.HdrDecodeAnswersTheFields := by
  intro k data s hR h
  refine ⟨unpackHeader data, exec_hdrDecode_decodable hR h, and_E0_toNat _, ?_, count_toNat _, count_toNat _,
    and_F0_toNat _, ?_, decodeName_before_zero _, rfl, le32_toNat data 24⟩
  · exact BitVec.toNat_setWidth 5 (byteAt data 4)
  · exact BitVec.toNat_setWidth 4 (byteAt data 7)

end Sys2Proof.Machine
end

