-- ==== Sys2Proof/Proofs/HeaderRoundTrip.lean ====
section
/-! A header that HDR_ENCODE builds passes decode validation, and decoding gives back the record's fields (R161). -/

namespace Sys2Proof.Machine

open Sys2Proof.Safety

/-- A count comes back from its wire form (R153). -/
@[simp] theorem count_wire (v : Byte) : count (wire v) = v := BitVec.sub_add_cancel v 1

/-- A wire byte comes back from its count (R153). -/
@[simp] theorem wire_count (w : Byte) : wire (count w) = w := BitVec.add_sub_cancel w 1

/-- The wire form of a count is one less, mod 256 (R153). -/
theorem wire_toNat (v : Byte) : (wire v).toNat = (v.toNat + 255) % 256 := by
  rw [wire]
  bv_omega

/-- Settles O18: adding and subtracting one, mod 256. -/
theorem wireAndCountAreInverse : Obligations.WireAndCountAreInverse :=
  fun v => ⟨wire_toNat v, count_toNat v, count_wire v, wire_count v⟩

/-- The header value of a record: each field at its width, the name as its wire form decodes (R161). -/
def headerValue (r : HeaderRecord) : Header where
  protocol  := r.protocol
  rate      := r.rate.setWidth 5
  samples   := byteOf r.samples
  channel   := byteOf r.channel
  format    := r.format.setWidth 4
  codec     := r.codec
  name      := (decodeName (encodeName r.name)).1
  nameChars := (decodeName (encodeName r.name)).2
  fc        := r.fc

/-- The header that HDR_ENCODE packs from encodable operands passes decode validation, strict or not (R161). -/
theorem decodable_headerBytes {r : HeaderRecord}
    (h : encodable r.protocol r.rate r.samples r.channel r.format r.codec) (strict : Bool) :
    decodable strict (headerBytes r) := by
  obtain ⟨-, -, hprotocol, ⟨rd, hrd, hrate⟩, ⟨fd, hfd, hformat⟩, hcodec⟩ := h
  obtain ⟨hbyte4, -, -, hbyte7, hmagic, -, -⟩ := byteAt_headerBytes r
  obtain ⟨-, -, -, hprotocol4, -, hrate4⟩ := join_protocol_rate hprotocol (rate_code_lt hrd hrate)
  obtain ⟨-, -, -, hcodec7, -, hformat7⟩ := join_codec_format hcodec (format_code_lt hfd hformat)
  have hlen : (headerBytes r).length = 28 := packHeader_length _ _ _ _ _ _ _ _ (encodeName_length_eq r.name)
  simp only [decodable, hbyte4, hbyte7, hprotocol4, hrate4, hcodec7, hformat7]
  exact ⟨hlen, hmagic, hprotocol, hcodec, fun _ => ⟨rd, fd, hrd, hfd, hrate, hformat⟩⟩

/-- The fields of that header are the record's (R159, R161). -/
theorem unpackHeader_headerBytes {r : HeaderRecord}
    (h : encodable r.protocol r.rate r.samples r.channel r.format r.codec) :
    unpackHeader (headerBytes r) = headerValue r := by
  obtain ⟨-, -, hprotocol, ⟨rd, hrd, hrate⟩, ⟨fd, hfd, hformat⟩, hcodec⟩ := h
  obtain ⟨hbyte4, hbyte5, hbyte6, hbyte7, -, hname, hfc⟩ := byteAt_headerBytes r
  obtain ⟨-, -, -, hprotocol4, hrate4, -⟩ := join_protocol_rate hprotocol (rate_code_lt hrd hrate)
  obtain ⟨-, -, -, hcodec7, hformat7, -⟩ := join_codec_format hcodec (format_code_lt hfd hformat)
  have hslice : sliceOf (headerBytes r) Config.nameOffset Config.fcOffset = encodeName r.name := hname
  have hcounter : le32 (headerBytes r) Config.fcOffset = r.fc := le32_toLe32 _ _ _ hfc
  simp only [unpackHeader, headerValue, hbyte4, hbyte5, hbyte6, hbyte7, hslice, hcounter, hprotocol4, hrate4, hcodec7,
    hformat7, count_wire]

/-- The fields of a record that is encodable come back from their widths (R161). -/
theorem headerValue_fields {r : HeaderRecord}
    (h : encodable r.protocol r.rate r.samples r.channel r.format r.codec) :
    (headerValue r).rate.setWidth 8 = r.rate ∧ (headerValue r).samples.setWidth 32 = r.samples ∧
    (headerValue r).channel.setWidth 32 = r.channel ∧ (headerValue r).format.setWidth 8 = r.format := by
  obtain ⟨hsamples, hchannel, -, ⟨rd, hrd, hrate⟩, ⟨fd, hfd, hformat⟩, -⟩ := h
  exact ⟨setWidth_five (rate_code_lt hrd hrate), byteOf_setWidth hsamples, byteOf_setWidth hchannel,
    setWidth_four (format_code_lt hfd hformat)⟩

/-- A plain name of at most 16 characters comes back whole (R161). -/
theorem headerValue_plainName {r : HeaderRecord} (hlen : r.name.length ≤ 16)
    (hplain : ∀ c ∈ r.name, 1 ≤ c.toNat ∧ c.toNat ≤ 0x7F) :
    (headerValue r).name = r.name.map (·.setWidth 8) ∧ (headerValue r).nameChars = r.name := by
  obtain ⟨hbytes, hchars⟩ := encodeName_plain hlen hplain
  refine ⟨hbytes, ?_⟩
  calc (headerValue r).nameChars
      = ((encodeName r.name).takeWhile (· != 0)).map asciiDecode := rfl
    _ = (r.name.map (·.setWidth 8)).map asciiDecode := by rw [hbytes]
    _ = r.name := hchars

/-- Settles O15: the packed header is decodable, and unpacking it gives the record's header value. -/
theorem headerRoundTrip : Obligations.HeaderRoundTrip := by
  intro j k r s hR h
  have hunpack := unpackHeader_headerBytes h
  obtain ⟨hrate, hsamples, hchannel, hformat⟩ := headerValue_fields h
  refine ⟨headerBytes r, headerValue r, exec_hdrEncode_encodable hR h, ?_, fun strict => ?_, rfl, hrate, hsamples,
    hchannel, hformat, rfl, rfl, rfl, rfl, headerValue_plainName⟩
  · rw [exec_hdrDecode_decodable hR (decodable_headerBytes h true), hunpack]
  · rw [decodeHeader_decodable hR (decodable_headerBytes h strict), hunpack]

end Sys2Proof.Machine
end

