-- ==== Sys2Proof/Proofs/PacketCodec.lean ====
section
/-! What PKT_CREATE and PKT_DECODE answer (R190 to R192): each outcome of the join and of the split once, and the packet
codec's laws (R193) from them. -/

namespace Sys2Proof.Machine

open Sys2Proof.Safety

/-! ## Joining -/

/-- Operands that fit the bound are joined (R190). -/
theorem exec_pktCreate_fits {header payload : List Byte} (hfits : header.length + payload.length ≤ 1436) (k : Byte)
    (s : State) :
    exec (.pktCreate k header payload) s = .next (s.report ⟨.ok, 0, .dg (header ++ payload)⟩) := by
  have hbound : ¬header.length + payload.length > Config.maxDatagram := Nat.not_lt.mpr hfits
  rw [exec_stateless rfl, statelessResult, createPacket, if_neg hbound]
  rfl

/-- Operands that are too long together are refused (R190). -/
theorem exec_pktCreate_tooLong {header payload : List Byte} (hlong : 1436 < header.length + payload.length) (k : Byte)
    (s : State) :
    exec (.pktCreate k header payload) s = .next (s.report ⟨.payloadTooLarge, 1, .none⟩) := by
  have hbound : header.length + payload.length > Config.maxDatagram := hlong
  rw [exec_stateless rfl, statelessResult, createPacket, if_pos hbound]
  rfl

/-- Settles O19: the bound on the joined length decides between the two answers. -/
theorem pktCreateJoinsOrRefuses : Obligations.PktCreateJoinsOrRefuses :=
  fun k _ _ s => ⟨fun hfits => exec_pktCreate_fits hfits k s, fun hlong => exec_pktCreate_tooLong hlong k s⟩

/-! ## Splitting -/

/-- A failure of decode validation on the header bytes is PKT_DECODE's, before any length is looked at (R192). -/
theorem exec_pktDecode_fails {d : Datagram} {s : State} {e : Failure}
    (h : checkDecode s.registries true (d.take 28) = some e) (k : Byte) :
    exec (.pktDecode k d) s = .next (s.report ⟨e.status, e.cause, .none⟩) := by
  rw [exec_stateless rfl, statelessResult, decodePacket, Config.strictDecode, Config.hdrLen, decodeHeader_fails h]
  rfl

/-- Behind a decodable header, a datagram over the bound is refused (R192). -/
theorem exec_pktDecode_tooLong {d : Datagram} {s : State} (hR : registriesLegal s.registries)
    (h : decodable true (d.take 28)) (hlong : 1436 < d.length) (k : Byte) :
    exec (.pktDecode k d) s = .next (s.report ⟨.payloadTooLarge, 2, .none⟩) := by
  have hbound : d.length > Config.maxDatagram := hlong
  rw [exec_stateless rfl, statelessResult, decodePacket, Config.strictDecode, Config.hdrLen,
    decodeHeader_decodable hR h]
  simp only [if_pos hbound]
  rfl

/-- A slice to the end of a sequence is what stands from its start on. -/
theorem sliceOf_to_end (b : List Byte) (i : Nat) : sliceOf b i b.length = b.drop i :=
  List.take_of_length_le (Nat.le_of_eq List.length_drop)

/-- Behind a decodable header, a datagram within the bound is split at the header's end (R191). -/
theorem exec_pktDecode_fits {d : Datagram} {s : State} (hR : registriesLegal s.registries)
    (h : decodable true (d.take 28)) (hfits : d.length ≤ 1436) (k : Byte) :
    exec (.pktDecode k d) s = .next (s.report ⟨.ok, 0, .packet (unpackHeader (d.take 28)) (d.drop 28)⟩) := by
  have hbound : ¬d.length > Config.maxDatagram := Nat.not_lt.mpr hfits
  rw [exec_stateless rfl, statelessResult, decodePacket, Config.strictDecode, Config.hdrLen,
    decodeHeader_decodable hR h]
  simp only [if_neg hbound, sliceOf_to_end]
  rfl

/-- Settles O20: decode validation of the header bytes decides first, then the bound. -/
theorem pktDecodeSplitsAndValidates : Obligations.PktDecodeSplitsAndValidates := by
  intro k d s hR
  refine ⟨fun st cause h => ?_, fun h hlong => ?_, fun h hfits => ?_⟩
  · exact exec_pktDecode_fails (checkDecode_some hR h) k
  · exact exec_pktDecode_tooLong hR h hlong k
  · exact ⟨unpackHeader (d.take 28), exec_hdrDecode_decodable hR h, exec_pktDecode_fits hR h hfits k⟩

/-! ## The laws -/

/-- The result that leaves can be read off the outcome. -/
theorem result_eq_of_next_report {s : State} {r r' : Result}
    (h : (.next (s.report r) : StepOutcome) = .next (s.report r')) : r = r' := by
  injection h with hstate
  have hresults : s.results ++ [r] = s.results ++ [r'] := congrArg State.results hstate
  simpa using hresults

/-- A datagram that PKT_CREATE answers is its operands joined, and they fit the bound (R190). -/
theorem exec_pktCreate_answers_dg {k : Byte} {header payload dg : List Byte} {s : State}
    (h : exec (.pktCreate k header payload) s = .next (s.report ⟨.ok, 0, .dg dg⟩)) :
    header.length + payload.length ≤ 1436 ∧ dg = header ++ payload := by
  obtain hlong | hfits := Nat.lt_or_ge 1436 (header.length + payload.length)
  · cases result_eq_of_next_report ((exec_pktCreate_tooLong hlong k s).symm.trans h)
  · cases result_eq_of_next_report ((exec_pktCreate_fits hfits k s).symm.trans h)
    exact ⟨hfits, rfl⟩

/-- A header that HDR_ENCODE packs is 28 bytes (R80). -/
theorem headerBytes_length (r : HeaderRecord) : (headerBytes r).length = 28 :=
  packHeader_length _ _ _ _ _ _ _ _ (encodeName_length_eq r.name)

/-- A packed header with a payload that fits goes through PKT_CREATE and PKT_DECODE and comes back as HDR_DECODE's header
and the payload (R193). -/
theorem packet_roundTrip {r : HeaderRecord} {p : List Byte} {s : State} (hR : registriesLegal s.registries)
    (h : encodable r.protocol r.rate r.samples r.channel r.format r.codec) (hp : p.length ≤ 1408) (k : Byte) :
    exec (.pktCreate k (headerBytes r) p) s = .next (s.report ⟨.ok, 0, .dg (headerBytes r ++ p)⟩) ∧
    exec (.pktDecode k (headerBytes r ++ p)) s =
      .next (s.report ⟨.ok, 0, .packet (unpackHeader (headerBytes r)) p⟩) := by
  have hlen := headerBytes_length r
  have htake : (headerBytes r ++ p).take 28 = headerBytes r := List.take_left' hlen
  have hdrop : (headerBytes r ++ p).drop 28 = p := List.drop_left' hlen
  have hfits : (headerBytes r).length + p.length ≤ 1436 := by omega
  have hdecode := exec_pktDecode_fits (d := headerBytes r ++ p) hR (htake.symm ▸ decodable_headerBytes h true)
    (List.length_append ▸ hfits) k
  rw [htake, hdrop] at hdecode
  exact ⟨exec_pktCreate_fits hfits k s, hdecode⟩

/-- Settles O21: the bound holds of what PKT_CREATE answers, a packed header is 28 decodable bytes, so the split finds the
joint again, and PKT_DECODE is a stateless command. -/
theorem packetLaws : Obligations.PacketLaws := by
  refine ⟨fun k header payload dg s h => ?_, fun k r p s hR h hp => ?_, fun k d s => ?_⟩
  · obtain ⟨hfits, rfl⟩ := exec_pktCreate_answers_dg h
    rwa [List.length_append]
  · obtain ⟨hcreate, hdecode⟩ := packet_roundTrip hR h hp k
    exact ⟨headerBytes r, headerBytes r ++ p, unpackHeader (headerBytes r), exec_hdrEncode_encodable hR h, hcreate,
      exec_hdrDecode_decodable hR (decodable_headerBytes h true), hdecode⟩
  · exact ⟨_, exec_stateless rfl s⟩

end Sys2Proof.Machine
end

