-- ==== Sys2Proof/Proofs/FramerOpenClose.lean ====
section
/-! Opening and closing a framer (R211, R212, R219, R220): FR_OPEN sets the configuration whose headers HDR_ENCODE would
give (R210), and on a closed framer every other framer command fails with StreamClosed. -/

namespace Sys2Proof.Machine

open Sys2Proof.Safety

/-! ## FR_OPEN -/

/-- On an open framer FR_OPEN is refused (R309). -/
theorem openFramer_open {p : Params} {R : Registries} {r : StreamRecord} {f : Framer} (hopen : f.isOpen = true) :
    openFramer p R r f = .error .alreadyOpen := by
  rw [openFramer, if_pos hopen]

/-- On a closed framer FR_OPEN of encodable operands starts a fresh stream (R211). -/
theorem openFramer_encodable {p : Params} {R : Registries} {r : StreamRecord} {f : Framer} (hR : registriesLegal R)
    (hclosed : f.isOpen = false) (h : encodable r.protocol r.rate r.samples r.channel r.format r.codec) :
    openFramer p R r f = .ok (Framer.report
      { f with cfg := openCfg r, fc := 0, buf := ⟨[], p.bufInitCap, false⟩, isOpen := true } ⟨.ok, 0, .none⟩) := by
  have hcheck := (checkEncode_none hR).mpr h
  simp only [openFramer, hclosed, hcheck, Bool.false_eq_true, if_false]
  rfl

/-- The name field of an opened stream is the wire form of its name or of the default name (R212). -/
theorem openCfg_name (r : StreamRecord) :
    (openCfg r).name.toList = encodeName (if r.nameSet then r.name else defaultName r.protocol) := rfl

/-- The configuration holds encodable operands without loss: each comes back from its width (R25, R211). -/
theorem openCfg_fields {r : StreamRecord}
    (h : encodable r.protocol r.rate r.samples r.channel r.format r.codec) :
    (openCfg r).rate.setWidth 8 = r.rate ∧ (openCfg r).format.setWidth 8 = r.format ∧
    (openCfg r).samples.setWidth 32 = r.samples ∧ (openCfg r).channel.setWidth 32 = r.channel := by
  obtain ⟨hsamples, hchannel, -, ⟨rd, hrd, hrate⟩, ⟨fd, hfd, hformat⟩, -⟩ := h
  exact ⟨setWidth_five (rate_code_lt hrd hrate), setWidth_four (format_code_lt hfd hformat),
    byteOf_setWidth hsamples, byteOf_setWidth hchannel⟩

/-- Settles O24: `openFramer` decides by the open flag and then by the checks of R152, and the configuration it sets
holds the operands. -/
theorem frOpenStartsAFreshStream : Obligations.FrOpenStartsAFreshStream := by
  intro k r s f hR hf hidle
  rw [exec_frOpen_idle hf hidle]
  refine ⟨fun hopen => ?_, fun st cause hclosed hfails => ?_, fun hclosed hencodable => ?_⟩
  · rw [openFramer_open hopen]
    rfl
  · rw [openFramer_fails hclosed (checkEncode_some hR hfails)]
    rfl
  · obtain ⟨hrate, hformat, hsamples, hchannel⟩ := openCfg_fields hencodable
    refine ⟨openCfg r, ?_, rfl, hrate, hformat, rfl, hsamples, hchannel, rfl, ?_⟩
    · rw [openFramer_encodable hR hclosed hencodable]
      rfl
    · rw [openCfg_name]
      refine ⟨fun hset => ?_, fun hunset haudio => ?_, fun hunset hserial => ?_, fun hunset htext => ?_⟩
      · rw [if_pos hset]
      · rw [hunset, haudio]
        rfl
      · rw [hunset, hserial]
        rfl
      · rw [hunset, htext]
        rfl

/-- An FR_OPEN of encodable operands that goes on leaves them as the configuration. -/
theorem exec_frOpen_encodable {k : Byte} {r : StreamRecord} {s t : State} {f : Framer}
    (hR : registriesLegal s.registries) (hf : s.frs[k.toNat]? = some f)
    (h : encodable r.protocol r.rate r.samples r.channel r.format r.codec)
    (hexec : exec (.frOpen k r) s = .next t) : ∃ f', t.frs[k.toNat]? = some f' ∧ f'.cfg = openCfg r := by
  obtain ⟨hnone, -⟩ | ⟨g, f', -, -, hact, rfl⟩ := onFramer_next hexec
  · cases hnone.symm.trans hf
  · refine ⟨f', s.setFramer_get hf, ?_⟩
    obtain ⟨-, ⟨e, hfails, -⟩ | ⟨-, rfl⟩⟩ := openFramer_ok hact
    · cases hfails.symm.trans ((checkEncode_none hR).mpr h)
    · rfl

/-- The factory of an opened stream packs the same header bytes as HDR_ENCODE (R210). -/
theorem headerOf_openCfg {r : StreamRecord} (h : encodable r.protocol r.rate r.samples r.channel r.format r.codec)
    (fc : FrameCounter) : headerOf (openCfg r) fc = headerBytes ⟨r.protocol, r.rate, r.samples, r.channel, r.format,
      r.codec, if r.nameSet then r.name else defaultName r.protocol, fc⟩ := by
  obtain ⟨hrate, hformat, -, -⟩ := openCfg_fields h
  rw [headerOf, hrate, hformat, openCfg_name]
  rfl

/-- Settles O25: the opened stream has the operands as its configuration, and both sides pack them alike. -/
theorem factoryHeaderIsHdrEncode : Obligations.FactoryHeaderIsHdrEncode := by
  rintro j k r s t f fc name hR hf - h rfl hexec
  obtain ⟨f', hf', hcfg⟩ := exec_frOpen_encodable hR hf h hexec
  refine ⟨f', hf', ?_⟩
  rw [hcfg, headerOf_openCfg h]
  exact exec_hdrEncode_encodable hR h

/-! ## The commands of an open stream -/

/-- A framer command to an idle framer that makes `f'` of it. -/
theorem exec_framer_idle {i : Instr} {s : State} {f f' : Framer} (ht : targetOf i = some (true, i.inst.toNat))
    (hf : s.frs[i.inst.toNat]? = some f) (hidle : f.wait = .idle)
    (hact : framerAct s.params s.registries i f = .ok f') : exec i s = .next (s.setFramer i.inst.toNat f') := by
  rw [(exec_framer ht s).2, onFramer_some hf hidle, hact]
  rfl

/-- An open framer passes the closed check (R220). -/
theorem whenFramerOpen_open {op : Byte} {act : Framer → Except Refusal Framer} {f : Framer} (hopen : f.isOpen = true) :
    whenFramerOpen op act f = act f := by
  rw [whenFramerOpen, if_pos hopen]

/-- On a closed framer every framer command but FR_OPEN reports StreamClosed cause 0, and that is all it does (R220). -/
theorem framerAct_closed {p : Params} {R : Registries} {i : Instr} {k : Nat} {f : Framer}
    (ht : targetOf i = some (true, k)) (hi : i.opcode ≠ .frOpen) (hclosed : f.isOpen = false) :
    framerAct p R i f = .ok (f.report ⟨.streamClosed, 0, failFields (opcodeByte i.opcode)⟩) := by
  have closed (op : Byte) (act : Framer → Except Refusal Framer) :
      whenFramerOpen op act f = .ok (f.report ⟨.streamClosed, 0, failFields op⟩) := by
    rw [whenFramerOpen, hclosed]
    rfl
  cases i with
  | frOpen => exact absurd rfl hi
  | frWrite | frFlush | frSendData | frClose =>
    rw [framerAct]
    exact closed _ _
  | _ => cases ht

section
variable {k : Byte} {s : State} {f : Framer} (hf : s.frs[k.toNat]? = some f) (hidle : f.wait = .idle)
include hf hidle

/-- FR_CLOSE on an open framer drops the buffer and closes (R219). -/
theorem exec_frClose_open (hopen : f.isOpen = true) : exec (.frClose k) s = .next (s.setFramer k.toNat
    (Framer.report { f with buf := ⟨[], f.buf.cap, f.buf.fixed⟩, isOpen := false } ⟨.ok, 0, .none⟩)) :=
  exec_framer_idle (i := .frClose k) rfl hf hidle (by rw [framerAct, whenFramerOpen_open hopen]; rfl)

/-- FR_WRITE on an open framer runs the write (R216). -/
theorem exec_frWrite_open (hopen : f.isOpen = true) (data : List Byte) :
    exec (.frWrite k data) s = .next (s.setFramer k.toNat (writeLoop .write data 0 f)) :=
  exec_framer_idle (i := .frWrite k data) rfl hf hidle (by rw [framerAct, whenFramerOpen_open hopen])

/-- FR_FLUSH on an open framer runs the flush up to its `send` (R214). -/
theorem exec_frFlush_open (hopen : f.isOpen = true) :
    exec (.frFlush k) s = .next (s.setFramer k.toNat (startFlush .flush f)) :=
  exec_framer_idle (i := .frFlush k) rfl hf hidle (by rw [framerAct, whenFramerOpen_open hopen])

/-- FR_SEND_DATA of a value of the stream's kind, on an open framer, runs the write of its bytes (R218). -/
theorem exec_frSendData_open (hopen : f.isOpen = true) {v : SendValue} {data : List Byte}
    (hdata : sendBytes f.cfg.protocol v = some data) :
    exec (.frSendData k v) s = .next (s.setFramer k.toNat (writeLoop .sendData data 0 f)) := by
  refine exec_framer_idle (i := .frSendData k v) rfl hf hidle ?_
  simp only [framerAct, whenFramerOpen_open hopen, hdata]

end

/-- So a closed idle framer gets the result alone (R220). -/
theorem exec_framer_closed {i : Instr} {s : State} {f : Framer} (ht : targetOf i = some (true, i.inst.toNat))
    (hi : i.opcode ≠ .frOpen) (hf : s.frs[i.inst.toNat]? = some f) (hidle : f.wait = .idle)
    (hclosed : f.isOpen = false) : exec i s =
      .next (s.setFramer i.inst.toNat (f.report ⟨.streamClosed, 0, failFields (opcodeByte i.opcode)⟩)) :=
  exec_framer_idle ht hf hidle (framerAct_closed ht hi hclosed)

/-- Settles O34: FR_CLOSE drops the buffer of an open framer, and fails the closed check on a closed one. -/
theorem frCloseDropsTheBuffer : Obligations.FrCloseDropsTheBuffer := by
  intro k s f hf hidle
  refine ⟨exec_frClose_open hf hidle, fun hclosed => ?_⟩
  exact exec_framer_closed (i := .frClose k) rfl (by simp [Instr.opcode]) hf hidle hclosed

/-- Settles O35: the closed check stands before each of the four commands. -/
theorem closedFramerAnswersStreamClosed : Obligations.ClosedFramerAnswersStreamClosed := by
  intro k data v i s f hi hf hidle hclosed
  refine ⟨failFields (opcodeByte i.opcode), ?_⟩
  have hcommand : targetOf i = some (true, i.inst.toNat) ∧ i.opcode ≠ .frOpen ∧ i.inst = k := by
    simp only [List.mem_cons, List.not_mem_nil, or_false] at hi
    obtain rfl | rfl | rfl | rfl := hi <;> exact ⟨rfl, by simp [Instr.opcode], rfl⟩
  obtain ⟨ht, hopcode, rfl⟩ := hcommand
  exact exec_framer_closed ht hopcode hf hidle hclosed

end Sys2Proof.Machine
end

