-- ==== Sys2Proof/Proofs/FramerFlush.lean ====
section
/-! A flush (R213): what FR_FLUSH hands over or fails with, and how the transport's answer ends FR_FLUSH (R214) and a
writing command whose flush has failed (R215, R218). -/

namespace Sys2Proof.Machine

open Sys2Proof.Safety

/-- A buffer over the payload bound, but within the datagram bound, fails the second size check (R213). -/
theorem startFlush_payloadTooLarge {f : Framer} (hlong : 1408 < f.buf.bytes.length)
    (hfits : f.buf.bytes.length ≤ 1436) (c : FrCont) : startFlush c f = failCont c (payloadTooLarge 1) f := by
  have hfirst : ¬bufLen f.buf > Config.maxDatagram := Nat.not_lt.mpr hfits
  have hsecond : Config.hdrLen + bufLen f.buf > Config.maxDatagram := Nat.add_lt_add_left hlong 28
  rw [startFlush, if_neg hfirst, if_pos hsecond]

/-- A buffer over the datagram bound fails the first size check (R213). -/
theorem startFlush_bufferTooLarge {f : Framer} (hlong : 1436 < f.buf.bytes.length) (c : FrCont) :
    startFlush c f = failCont c (bufferTooLarge 0) f := by
  have hfirst : bufLen f.buf > Config.maxDatagram := hlong
  rw [startFlush, if_pos hfirst]

/-- A step that takes an answer of the transport makes of the framer what `answerFramer` says (R318). -/
theorem step_tx {s : State} {k : Nat} {ok : Bool} {f f' : Framer} {rest : List Event} (hf : s.frs[k]? = some f)
    (he : s.events = .tx k ok :: rest) (hanswer : answerFramer s.params ok f = .ok f') :
    step s = .next (State.setFramer { s with events := rest } k f') := by
  rw [step_cons he]
  simp only [eventStep, txEvent, hf, hanswer, framerOutcome]

/-- Settles O26: the size checks decide what FR_FLUSH does, and the answer then resumes or ends it. -/
theorem frFlushSendsOnePacket : Obligations.FrFlushSendsOnePacket := by
  intro k s f hf hopen
  refine ⟨fun hidle hfits => ?_, fun hidle hlong hfits => ?_, fun hidle hlong => ?_, fun dg u rest hwait he => ?_,
    fun dg u rest hwait he => ?_⟩
  · rw [exec_frFlush_open hf hidle hopen, startFlush_fits hfits]
  · rw [exec_frFlush_open hf hidle hopen, startFlush_payloadTooLarge hlong hfits]
    rfl
  · rw [exec_frFlush_open hf hidle hopen, startFlush_bufferTooLarge hlong]
    rfl
  · obtain ⟨hok, -⟩ := answerFramer_pending (p := s.params) hwait
    exact step_tx hf he hok
  · obtain ⟨-, hfail⟩ := answerFramer_pending (p := s.params) hwait
    exact step_tx hf he hfail

/-- Settles O27: the answer `fail` ends the command, whatever it still had to do, and both ways of waiting in a write
report the bytes done. -/
theorem failedFlushEndsTheWrite : Obligations.FailedFlushEndsTheWrite := by
  intro k s f dg u cont kind left consumed rest hf hwait hcont he
  obtain ⟨-, hfail⟩ := answerFramer_pending (p := s.params) hwait
  have hfields : contFailFields cont = .consumed (BitVec.ofNat 32 consumed) := by
    obtain rfl | rfl := hcont <;> rfl
  rw [step_tx hf he hfail, failCont, hfields]
  rfl

end Sys2Proof.Machine
end

