-- ==== Sys2Proof/Proofs/FramerWrite.lean ====
section
/-! One step of a write (R215): bytes that fit are buffered, a newline and a full buffer each hand one datagram over,
and so does FR_SEND_DATA behind its last byte (R218). -/

namespace Sys2Proof.Machine

open Sys2Proof.Safety

/-- A framer that has handed its buffer over as one packet, and waits with `c` still to do (R213). -/
def sending (f : Framer) (c : FrCont) : Framer :=
  { f with
    fc := f.fc + 1
    tx := f.tx ++ [(f.cfg.dest, headerOf f.cfg f.fc ++ f.buf.bytes)]
    wait := .txPending (headerOf f.cfg f.fc ++ f.buf.bytes) f.fc c }

/-- A flush of a buffer that fits sends it (R213). -/
theorem startFlush_sending {f : Framer} (hfits : f.buf.bytes.length ≤ 1408) (c : FrCont) :
    startFlush c f = sending f c :=
  startFlush_fits hfits c

section
variable {f : Framer} (hgrows : f.buf.fixed = false) {before : List Byte} (hplain : (0x0A : Byte) ∉ before)
include hgrows hplain

/-- A write of bytes with no newline that fit, with nothing behind them (R215, R216). -/
theorem writeLoop_buffers (kind : WriteKind) (hfits : f.buf.bytes.length + before.length ≤ 1408) :
    ∃ cap, f.buf.cap ≤ cap ∧ writeLoop kind before 0 f =
      endWrite kind before.length { f with buf := ⟨f.buf.bytes ++ before, cap, false⟩ } := by
  obtain ⟨cap, hcap, hloop⟩ := writeLoop_plain (kind := kind) [] before 0 f hgrows hplain hfits
  rw [List.append_nil, Nat.zero_add] at hloop
  exact ⟨cap, hcap, hloop⟩

/-- A write up to a newline that fits sends the line (R215, R223). -/
theorem writeLoop_sendsLine (kind : WriteKind) (rest : List Byte)
    (hfits : f.buf.bytes.length + before.length + 1 ≤ 1408) :
    ∃ cap, writeLoop kind (before ++ 0x0A :: rest) 0 f =
      sending { f with buf := ⟨f.buf.bytes ++ before ++ [0x0A], cap, false⟩ }
        (.write kind rest (before.length + 1)) := by
  have hroom : (f.buf.bytes ++ before).length < 1408 := by rw [List.length_append]; omega
  obtain ⟨cap, -, hbefore⟩ := writeLoop_plain (kind := kind) (0x0A :: rest) before 0 f hgrows hplain (by omega)
  obtain ⟨cap', -, hnewline⟩ := writeLoop_newline (kind := kind)
    (f := { f with buf := ⟨f.buf.bytes ++ before, cap, false⟩ }) rest (0 + before.length) rfl hroom
  refine ⟨cap', ?_⟩
  have hline : (f.buf.bytes ++ before ++ [0x0A]).length ≤ 1408 := List.length_append ▸ hroom
  rw [hbefore, hnewline, Nat.zero_add, startFlush_sending hline]

/-- A write into a buffer that fills up to 1408 bytes sends it before the next byte (R215). -/
theorem writeLoop_sendsFull (kind : WriteKind) (b : Byte) (rest : List Byte)
    (hfull : f.buf.bytes.length + before.length = 1408) :
    ∃ cap, writeLoop kind (before ++ b :: rest) 0 f =
      sending { f with buf := ⟨f.buf.bytes ++ before, cap, false⟩ } (.write kind (b :: rest) before.length) := by
  have hlen : (f.buf.bytes ++ before).length = 1408 := List.length_append.trans hfull
  obtain ⟨cap, -, hbefore⟩ := writeLoop_plain (kind := kind) (b :: rest) before 0 f hgrows hplain hfull.le
  refine ⟨cap, ?_⟩
  rw [hbefore, writeLoop_full b rest _ hlen, Nat.zero_add, startFlush_sending hlen.le]

end

/-- Settles O28: what follows the write of FR_WRITE is its result. -/
theorem frWriteBuffersWhatFits : Obligations.FrWriteBuffersWhatFits := by
  intro k data s f hf hopen hidle hgrows hplain hfits
  obtain ⟨cap, hcap, hloop⟩ := writeLoop_buffers hgrows hplain .write hfits
  refine ⟨cap, hcap, ?_⟩
  rw [exec_frWrite_open hf hidle hopen, hloop]
  rfl

/-- Settles O29: the line is sent, and the answer `ok` resumes a write with nothing left. -/
theorem frWriteFlushesAtNewline : Obligations.FrWriteFlushesAtNewline := by
  intro k before rest s f hf hopen hidle hgrows hplain hfits
  obtain ⟨cap, hloop⟩ := writeLoop_sendsLine hgrows hplain .write rest hfits
  have hpacket : headerOf f.cfg f.fc ++ f.buf.bytes ++ before ++ [0x0A] =
      headerOf f.cfg f.fc ++ (f.buf.bytes ++ before ++ [0x0A]) := by
    simp only [List.append_assoc]
  rw [exec_frWrite_open hf hidle hopen, hloop, hpacket]
  refine ⟨_, rfl, rfl, rfl, rfl, rfl, hopen, rfl, rfl, ?_⟩
  rintro rfl
  obtain ⟨hlt, -⟩ := List.getElem?_eq_some_iff.mp hf
  exact step_tx_ok (s := s) (rest := []) (f := sending _ _) hlt rfl

/-- Settles O30: the full buffer is sent, and its packet is 28 and 1408 bytes. -/
theorem frWriteFlushesBeforeOverflow : Obligations.FrWriteFlushesBeforeOverflow := by
  intro k before b rest s f hf hopen hidle hgrows hplain hfull
  obtain ⟨cap, hloop⟩ := writeLoop_sendsFull hgrows hplain .write b rest hfull
  refine ⟨cap, ?_, ?_⟩
  · rw [exec_frWrite_open hf hidle hopen, hloop]
    rfl
  · rw [List.length_append, headerOf_length, List.length_append, hfull]

/-- A value of the kind that the stream needs is sent as these bytes: UTF-8 for Text, raw for any other protocol
(R217, R218). -/
theorem sendBytes_of_kind {p : Byte} {v : SendValue} {data : List Byte}
    (h : p = 0x40 ∧ (∃ cs, v = .chars cs ∧ data = utf8Encode cs) ∨ p ≠ 0x40 ∧ v = .bytes data) :
    sendBytes p v = some data := by
  obtain ⟨htext, cs, rfl, rfl⟩ | ⟨hraw, rfl⟩ := h
  · exact if_pos htext
  · exact if_neg hraw

/-- What follows the write of FR_SEND_DATA is a flush, where bytes are left that fit (R218). -/
theorem endWrite_sendData_sending {f : Framer} (hne : f.buf.bytes ≠ []) (hfits : f.buf.bytes.length ≤ 1408) (n : Nat) :
    endWrite .sendData n f = sending f (.trailing n) := by
  have hsome : bufLen f.buf > 0 := List.length_pos_iff.mpr hne
  rw [endWrite, if_pos hsome, startFlush_sending hfits]

/-- FR_SEND_DATA of a value that fits, with at most its last byte a newline, sends it in one packet: at that newline, or
behind the last byte (R218). -/
theorem writeLoop_sendData_sending {f : Framer} {data : List Byte} (hgrows : f.buf.fixed = false) (hne : data ≠ [])
    (hplain : (0x0A : Byte) ∉ data.dropLast) (hfits : f.buf.bytes.length + data.length ≤ 1408) :
    ∃ cap c, (c = .trailing data.length ∨ c = .write .sendData [] data.length) ∧
      writeLoop .sendData data 0 f = sending { f with buf := ⟨f.buf.bytes ++ data, cap, false⟩ } c := by
  obtain ⟨before, b, rfl⟩ := (List.eq_nil_or_concat' data).resolve_left hne
  rw [List.dropLast_concat] at hplain
  rw [List.length_append, List.length_singleton, ← Nat.add_assoc] at hfits
  by_cases hb : b = 0x0A
  · subst hb
    obtain ⟨cap, hloop⟩ := writeLoop_sendsLine hgrows hplain .sendData [] hfits
    refine ⟨cap, _, .inr rfl, ?_⟩
    rw [hloop, List.length_append, List.append_assoc, List.length_singleton]
  · have hplain' : (0x0A : Byte) ∉ before ++ [b] := fun hmem =>
      (List.mem_append.mp hmem).elim hplain fun hlast => hb (List.mem_singleton.mp hlast).symm
    have hfits' : f.buf.bytes.length + (before ++ [b]).length ≤ 1408 := by simpa [← Nat.add_assoc] using hfits
    obtain ⟨cap, -, hloop⟩ := writeLoop_buffers hgrows hplain' .sendData hfits'
    refine ⟨cap, _, .inl rfl, ?_⟩
    rw [hloop, endWrite_sendData_sending]
    · simp
    · exact List.length_append ▸ hfits'

/-- Settles O33: FR_SEND_DATA runs the write of the value's bytes, which sends one packet. -/
theorem frSendDataHandsOverOnePacket : Obligations.FrSendDataHandsOverOnePacket := by
  intro k v data s f hf hopen hidle hgrows hkind hne hplain hfits
  obtain ⟨cap, c, hc, hloop⟩ := writeLoop_sendData_sending hgrows hne hplain hfits
  refine ⟨cap, c, hc, ?_⟩
  rw [exec_frSendData_open hf hidle hopen (sendBytes_of_kind hkind), hloop]
  rfl

end Sys2Proof.Machine
end

