-- ==== Sys2Proof/Proofs/FramerRuns.lean ====
section
/-! FR_WRITE and FR_SEND_DATA run to their end with every send answered `ok` (R215, R216, R218, R221): the command's
step, the run of its write, and the trailing flush. -/

namespace Sys2Proof.Machine

open Sys2Proof.Safety

/-- A run that begins with a command goes on from what the command does. -/
theorem runSteps_command {i : Instr} {s t : State} {es : List Event} (hwf : i.wellFormed = true)
    (hexec : exec i { s with events := es } = .next t) (n : Nat) :
    runSteps (n + 1) { s with events := .command (encode i).1 i.record :: es } = runSteps n t := by
  rw [runSteps_succ, stepRunsTheDecodedCommand _ _ _ es i rfl (decode_encode i) hwf]
  simp only [hexec]

/-- The framer when the write of `data` has run to its end, its buffer with capacity `cap` (R215). -/
def written (f : Framer) (data : List Byte) (cap : Nat) : Framer :=
  { f with
    buf := ⟨(writeSpec f.cfg data f.buf.bytes f.fc).2.1, cap, false⟩
    fc := (writeSpec f.cfg data f.buf.bytes f.fc).2.2
    tx := f.tx ++ (writeSpec f.cfg data f.buf.bytes f.fc).1.map (f.cfg.dest, ·) }

/-- A command that writes `data`, and then its write with an `ok` for each send, run to what follows the write. -/
theorem runSteps_writingCommand {i : Instr} {k : Nat} {s : State} {f : Framer} {kind : WriteKind} {data : List Byte}
    (hwf : i.wellFormed = true) (hf : s.frs[k]? = some f) (hidle : f.wait = .idle) (hgrows : f.buf.fixed = false)
    (hfits : f.buf.bytes.length ≤ 1408)
    (hexec : ∀ es, exec i { s with events := es } =
      .next (State.setFramer { s with events := es } k (writeLoop kind data 0 f))) (m : Nat) (rest : List Event) :
    ∃ cap, runSteps ((writeSpec f.cfg data f.buf.bytes f.fc).1.length + m + 1)
        { s with events := .command (encode i).1 i.record ::
          (List.replicate (writeSpec f.cfg data f.buf.bytes f.fc).1.length (.tx k true) ++ rest) } =
      runSteps m (State.setFramer { s with events := rest } k (endWrite kind data.length (written f data cap))) := by
  obtain ⟨hlt, -⟩ := List.getElem?_eq_some_iff.mp hf
  obtain ⟨cap, hrun⟩ := runSteps_write hlt kind data 0 f m rest hidle hgrows hfits
  rw [Nat.zero_add] at hrun
  exact ⟨cap, (runSteps_command hwf (hexec _) _).trans hrun⟩

/-- Settles O31: what follows the write of FR_WRITE is its result. -/
theorem frWriteRunsAsTheRuleReads : Obligations.FrWriteRunsAsTheRuleReads := by
  intro k data s f rest hf hopen hidle hgrows hfits
  obtain ⟨cap, hrun⟩ := runSteps_writingCommand (i := .frWrite k data) rfl hf hidle hgrows hfits
    (fun es => exec_frWrite_open (s := { s with events := es }) hf hidle hopen data) 0 rest
  exact ⟨cap, hrun⟩

/-- The trailing flush of FR_SEND_DATA, answered `ok`, empties the buffer and returns the bytes done (R218). -/
theorem runSteps_trailing {k : Nat} {s : State} (hlt : k < s.frs.length) (f : Framer) (n : Nat) (rest : List Event) :
    runSteps 1 (State.setFramer { s with events := .tx k true :: rest } k (sending f (.trailing n))) =
      .next (State.setFramer { s with events := rest } k { f with
        buf := ⟨[], f.buf.cap, f.buf.fixed⟩
        fc := f.fc + 1
        tx := f.tx ++ [(f.cfg.dest, headerOf f.cfg f.fc ++ f.buf.bytes)]
        wait := .idle
        results := f.results ++ [⟨.ok, 0, .consumed (BitVec.ofNat 32 n)⟩] }) := by
  rw [runSteps_succ, step_tx_ok (f := sending f (.trailing n)) hlt rfl]
  rfl

/-- Settles O32: where the write leaves bytes, one more send and its `ok` follow. -/
theorem frSendDataWritesThenFlushes : Obligations.FrSendDataWritesThenFlushes := by
  intro k v data s f rest dgs fcEnd hf hopen hidle hgrows hfits hwf hkind hspec
  have run := runSteps_writingCommand (i := .frSendData k v) hwf hf hidle hgrows hfits
    (fun es => exec_frSendData_open (s := { s with events := es }) hf hidle hopen (sendBytes_of_kind hkind))
  by_cases hempty : (writeSpec f.cfg data f.buf.bytes f.fc).2.1 = []
  · simp only [hempty, if_true, Prod.mk.injEq] at hspec
    obtain ⟨rfl, rfl⟩ := hspec
    obtain ⟨cap, hrun⟩ := run 0 rest
    refine ⟨cap, hrun.trans ?_⟩
    simp only [endWrite, written, hempty]
    rfl
  · simp only [hempty, if_false, Prod.mk.injEq] at hspec
    obtain ⟨rfl, rfl⟩ := hspec
    obtain ⟨hlt, -⟩ := List.getElem?_eq_some_iff.mp hf
    obtain ⟨cap, hrun⟩ := run 1 (.tx k.toNat true :: rest)
    have hbound := writeSpec_length (c := f.cfg) data f.buf.bytes f.fc hfits
    have hsend := endWrite_sendData_sending (f := written f data cap) hempty hbound data.length
    rw [hsend, runSteps_trailing hlt] at hrun
    refine ⟨cap, ?_⟩
    rw [List.length_append, List.length_singleton, List.replicate_succ', List.append_assoc, List.singleton_append]
    refine hrun.trans ?_
    simp [written, hidle]

end Sys2Proof.Machine
end

