-- ==== Sys2Proof/Proofs/Utf8.lean ====
section
/-! The UTF-8 bytes of a character (R217): each byte is a marker and a field of the character's bits, and the field is a
digit of its number. -/

namespace Sys2Proof.Machine

/-- A continuation byte as a number. -/
theorem utf8Tail_toNat (v : BitVec 6) : (utf8Tail v).toNat = 0x80 + v.toNat := by
  revert v; decide

/-- The first of two bytes as a number. -/
theorem utf8Lead2_toNat (v : BitVec 5) : (0xC0 ||| v.setWidth 8 : Byte).toNat = 0xC0 + v.toNat := by
  revert v; decide

/-- The first of three bytes as a number. -/
theorem utf8Lead3_toNat (v : BitVec 4) : (0xE0 ||| v.setWidth 8 : Byte).toNat = 0xE0 + v.toNat := by
  revert v; decide

/-- The first of four bytes as a number. -/
theorem utf8Lead4_toNat (v : BitVec 3) : (0xF0 ||| v.setWidth 8 : Byte).toNat = 0xF0 + v.toNat := by
  revert v; decide

/-- The `n` bits of a character from bit `i` on, as a number. -/
theorem bitField_toNat (u : CodePoint) (i n : Nat) : (u.extractLsb' i n).toNat = u.toNat / 2 ^ i % 2 ^ n := by
  rw [BitVec.extractLsb'_toNat, Nat.shiftRight_eq_div_pow]

/-- A scalar value is at most 0x10FFFF (R85). -/
theorem isScalar_le {u : CodePoint} (h : isScalar u = true) : u.toNat ≤ 0x10FFFF := by
  simp only [isScalar, Bool.or_eq_true, Bool.and_eq_true, decide_eq_true_eq] at h
  omega

/-- Settles O36: in each row of the table the lead byte holds the number's highest digit, whole because the row bounds
the number; a sequence's bytes are joined by definition. -/
theorem utf8EncodeFollowsTheTable : Obligations.Utf8EncodeFollowsTheTable := by
  refine ⟨fun u hu => ?_, rfl, fun _ _ => rfl⟩
  have hmax := isScalar_le hu
  simp only [utf8EncodeChar, BitVec.le_def, BitVec.reduceToNat]
  split_ifs with hone htwo hthree
  · have hlead : (u.setWidth 8).toNat = u.toNat := by rw [BitVec.toNat_setWidth]; omega
    rw [List.map_singleton, hlead]
  · have hlead : u.toNat / 64 % 32 = u.toNat / 64 := by omega
    simp only [List.map_cons, List.map_nil, utf8Lead2_toNat, utf8Tail_toNat, bitField_toNat, Nat.reducePow,
      Nat.div_one, hlead]
  · have hlead : u.toNat / 4096 % 16 = u.toNat / 4096 := by omega
    simp only [List.map_cons, List.map_nil, utf8Lead3_toNat, utf8Tail_toNat, bitField_toNat, Nat.reducePow,
      Nat.div_one, hlead]
  · have hlead : u.toNat / 262144 % 8 = u.toNat / 262144 := by omega
    simp only [List.map_cons, List.map_nil, utf8Lead4_toNat, utf8Tail_toNat, bitField_toNat, Nat.reducePow,
      Nat.div_one, hlead]

end Sys2Proof.Machine
end

