-- ==== Sys2Proof/Proofs/DeframerOpenClose.lean ====
section
/-! Opening and closing a deframer (R250, R256 to R258): the closed check that stands before every command but DF_OPEN,
and what DF_OPEN and DF_CLOSE leave. -/

namespace Sys2Proof.Machine

open Sys2Proof.Safety

/-! ## The closed check -/

/-- An open deframer passes the closed check (R258). -/
theorem whenDeframerOpen_open {act : Deframer → Deframer} {d : Deframer} (hopen : d.isOpen = true) :
    whenDeframerOpen act d = .ok (act d) := by
  rw [whenDeframerOpen, if_pos hopen]

/-- On a closed deframer the closed check reports StreamClosed cause 0, and that is all (R258). -/
theorem whenDeframerOpen_closed {act : Deframer → Deframer} {d : Deframer} (hclosed : d.isOpen = false) :
    whenDeframerOpen act d = .ok (d.report ⟨.streamClosed, 0, .none⟩) := by
  rw [whenDeframerOpen, hclosed]
  rfl

section
variable {k : Byte} {s : State} {d : Deframer} (hd : s.dfs[k.toNat]? = some d)
include hd

/-- A command behind the closed check, on an open idle deframer, makes of it what the command says. -/
theorem onDeframer_open (hidle : d.wait = .idle) (hopen : d.isOpen = true) (op : Byte) (act : Deframer → Deframer) :
    onDeframer op k (whenDeframerOpen act) s = .next (s.setDeframer k.toNat (act d)) := by
  rw [onDeframer_some hd hidle, whenDeframerOpen_open hopen, deframerOutcome]

/-- A command behind the closed check, on a closed idle deframer, gets StreamClosed alone (R258). -/
theorem onDeframer_closed (hidle : d.wait = .idle) (hclosed : d.isOpen = false) (op : Byte)
    (act : Deframer → Deframer) : onDeframer op k (whenDeframerOpen act) s =
      .next (s.setDeframer k.toNat (d.report ⟨.streamClosed, 0, .none⟩)) := by
  rw [onDeframer_some hd hidle, whenDeframerOpen_closed hclosed, deframerOutcome]

/-- DF_CLOSE on a closed deframer gets StreamClosed alone, whether or not a read waits (R258). -/
theorem exec_dfClose_closed (hclosed : d.isOpen = false) :
    exec (.dfClose k) s = .next (s.setDeframer k.toNat (d.report ⟨.streamClosed, 0, .none⟩)) := by
  rw [exec, execDfClose, onAnyDeframer_some hd, whenDeframerOpen_closed hclosed, deframerOutcome]

/-- DF_CLOSE on an open deframer closes it, with the free value of that close (R256, R257). -/
theorem exec_dfClose_open (hopen : d.isOpen = true) : exec (.dfClose k) s =
    .next (s.setDeframer k.toNat (closeDeframer (Config.closeAborts k.toNat d.closings) d)) := by
  rw [exec, execDfClose, onAnyDeframer_some hd, whenDeframerOpen_open hopen, deframerOutcome]

end

/-- Settles O50: the closed check stands before each of the four commands. -/
theorem closedDeframerAnswersStreamClosed : Obligations.ClosedDeframerAnswersStreamClosed := by
  intro k n i s d hi hd hwait hclosed
  simp only [List.mem_cons, List.not_mem_nil, or_false] at hi
  obtain rfl | rfl | rfl | rfl := hi
  · exact onDeframer_closed hd (hwait.resolve_right (by simp)) hclosed _ _
  · exact onDeframer_closed hd (hwait.resolve_right (by simp)) hclosed _ _
  · exact onDeframer_closed hd (hwait.resolve_right (by simp)) hclosed _ _
  · exact exec_dfClose_closed hd hclosed

/-! ## DF_OPEN -/

/-- On a closed deframer DF_OPEN of a stream protocol opens it with an empty view (R250). -/
theorem openDeframer_stream {R : Registries} {protocol : Byte} {d : Deframer} (hR : registriesLegal R)
    (hclosed : d.isOpen = false) (hprotocol : streamProtocol protocol) :
    openDeframer R protocol d = .ok (Deframer.report
      { d with expected := protocol, rx := [], cursor := 0, isOpen := true } ⟨.ok, 0, .none⟩) := by
  have hcheck := (checkProtocol_none hR).mpr hprotocol
  simp only [openDeframer, hclosed, hcheck, Bool.false_eq_true, if_false]
  rfl

/-- On a closed deframer DF_OPEN of a protocol that fails its check reports the failure, and that is all (R250). -/
theorem openDeframer_fails {R : Registries} {protocol : Byte} {d : Deframer} {e : Failure}
    (hclosed : d.isOpen = false) (h : checkProtocol R protocol = some e) :
    openDeframer R protocol d = .ok (d.report ⟨e.status, e.cause, .none⟩) := by
  simp only [openDeframer, hclosed, h, Bool.false_eq_true, if_false]
  rfl

/-- DF_OPEN on an idle deframer makes of it what `openDeframer` says. -/
theorem exec_dfOpen_idle {k protocol : Byte} {s : State} {d d' : Deframer} (hd : s.dfs[k.toNat]? = some d)
    (hidle : d.wait = .idle) (h : openDeframer s.registries protocol d = .ok d') :
    exec (.dfOpen k protocol) s = .next (s.setDeframer k.toNat d') := by
  rw [exec, execDfOpen, onDeframer_some hd hidle, h, deframerOutcome]

/-- Settles O37: the protocol's check decides between opening and its failure. -/
theorem dfOpenFixesTheExpectedProtocol : Obligations.DfOpenFixesTheExpectedProtocol := by
  intro k p s d hR hd hidle hclosed
  refine ⟨fun hstream => ?_, ?_, fun hunknown => ?_⟩
  · exact exec_dfOpen_idle hd hidle (openDeframer_stream hR hclosed hstream)
  · rintro rfl
    exact exec_dfOpen_idle hd hidle (openDeframer_fails hclosed (checkProtocol_service hR))
  · exact exec_dfOpen_idle hd hidle (openDeframer_fails hclosed (checkProtocol_unknown hR hunknown))

/-! ## DF_CLOSE -/

/-- Closing a deframer where no read waits drops the view (R256). -/
theorem closeDeframer_idle {d : Deframer} (hidle : d.wait = .idle) (abort : Bool) : closeDeframer abort d =
    Deframer.report { d with isOpen := false, rx := [], cursor := 0 } ⟨.ok, 0, .none⟩ := by
  rw [closeDeframer, hidle]
  rfl

/-- Closing a deframer where a read waits ends the read with an empty view, or leaves it in `receive` (R257). -/
theorem closeDeframer_waiting {d : Deframer} {c : DfCont} (hwait : d.wait = .rxPending c) (abort : Bool) :
    closeDeframer abort d = if abort then { d with
      isOpen := false, wait := .idle, rx := [], cursor := 0, closings := d.closings + 1
      results := d.results ++ [⟨.ok, 0, .none⟩, ⟨.streamClosed, 1, .none⟩] }
    else { d with isOpen := false, closings := d.closings + 1, results := d.results ++ [⟨.ok, 0, .none⟩] } := by
  rw [closeDeframer, hwait]
  cases abort with
  | true =>
    simp only [if_true]
    rw [endRead_closed rfl, Deframer.report_results, List.append_assoc]
    rfl
  | false => rfl

/-- Settles O47: with no read waiting DF_CLOSE drops the view, and on a closed deframer it fails the closed check. -/
theorem dfCloseDropsTheView : Obligations.DfCloseDropsTheView := by
  intro k s d hd
  refine ⟨fun hidle hopen => ?_, exec_dfClose_closed hd⟩
  rw [exec_dfClose_open hd hopen, closeDeframer_idle hidle]
  rfl

/-- Settles O48: the free value of the close picks one of the two outcomes. -/
theorem dfCloseDuringAReceiveAbortsOrLingers : Obligations.DfCloseDuringAReceiveAbortsOrLingers := by
  intro k s d c hd hwait hopen
  rw [exec_dfClose_open hd hopen, closeDeframer_waiting hwait]

end Sys2Proof.Machine
end

