-- ==== Sys2Proof/Proofs/DeframerPacketReads.lean ====
section
/-! The two packet reads (R251 to R253): what they answer to the datagram at the head of the port, held against what
PKT_DECODE answers to it. -/

namespace Sys2Proof.Machine

open Sys2Proof.Safety

/-! ## Against PKT_DECODE -/

/-- DF_READ_PACKET answers a datagram as PKT_DECODE does (R191, R251). -/
theorem exec_pktDecode_packetAnswer (k : Byte) (dg : Datagram) (s : State) :
    exec (.pktDecode k dg) s = .next (s.report (packetAnswer s.registries dg)) :=
  exec_stateless rfl s

/-- The answer to a datagram that decodes. -/
theorem packetAnswer_decoded {R : Registries} {dg : Datagram} {h : Header} {payload : List Byte}
    (hdecode : decodePacket R Config.strictDecode dg = .ok (h, payload)) :
    packetAnswer R dg = ⟨.ok, 0, .packet h payload⟩ := by
  rw [packetAnswer, hdecode]
  rfl

/-- The answer to a datagram that does not decode. -/
theorem packetAnswer_failed {R : Registries} {dg : Datagram} {e : Failure}
    (hdecode : decodePacket R Config.strictDecode dg = .error e) :
    packetAnswer R dg = raiseResult e .none := by
  rw [packetAnswer, hdecode]
  rfl

/-- A failure of packet decoding is never OK (R301). -/
theorem status_ne_ok_of_decodePacket {R : Registries} {strict : Bool} {dg : Datagram} {e : Failure}
    (h : decodePacket R strict dg = .error e) : e.status ≠ .ok := by
  obtain ⟨hstatus | hstatus | hstatus | hstatus, -⟩ := decodePacket_status h <;> simp [hstatus]

/-- DF_READ_DATA answers with the typed view of what PKT_DECODE answers (R252, R253). -/
theorem dataAnswer_typed (R : Registries) (expected : Byte) (dg : Datagram) :
    typedReadResult expected (packetAnswer R dg) (dataAnswer R expected dg) := by
  cases hdecode : decodePacket R Config.strictDecode dg with
  | error e =>
    rw [packetAnswer_failed hdecode, dataAnswer, hdecode]
    exact ⟨fun _ => rfl, fun hok => absurd hok (status_ne_ok_of_decodePacket hdecode)⟩
  | ok p =>
    obtain ⟨h, payload⟩ := p
    rw [packetAnswer_decoded hdecode, dataAnswer, hdecode]
    refine ⟨fun hfailed => absurd rfl hfailed, fun _ => ⟨h, payload, rfl, fun hother => ?_, fun hsame => ?_⟩⟩
    · exact if_pos hother
    · exact if_neg (not_not.mpr hsame)

/-! ## The commands -/

/-- A command behind the closed check that ends its read at once adds the result, and leaves the deframer as the read
had it. -/
theorem onDeframer_ends {k : Byte} {s : State} {d d₁ : Deframer} {act : Deframer → Deframer} {r : Result}
    (hd : s.dfs[k.toNat]? = some d) (hidle : d.wait = .idle) (hopen : d.isOpen = true) (hact : act d = endRead r d₁)
    (hidle₁ : d₁.wait = .idle) (hopen₁ : d₁.isOpen = true) (op : Byte) :
    onDeframer op k (whenDeframerOpen act) s = .next (s.setDeframer k.toNat (d₁.report r)) := by
  rw [onDeframer_open hd hidle hopen, hact, endRead_open hopen₁, ← hidle₁]
  rfl

section
variable {p : Params} {R : Registries} {d : Deframer}

/-- DF_READ_PACKET takes the head of the queue (R251, R259). -/
theorem runReceive_readPacket_cons {dg : Datagram} {q : List Datagram} (hq : d.queue = dg :: q) :
    runReceive p R .readPacket d = endRead (packetAnswer R dg) { d with queue := q } := by
  simp only [runReceive, hq]

/-- DF_READ_PACKET waits at an empty queue (R251, R336). -/
theorem runReceive_readPacket_nil (hq : d.queue = []) :
    runReceive p R .readPacket d = { d with wait := .rxPending .readPacket } := by
  simp only [runReceive, hq]

/-- DF_READ_DATA takes the head of the queue (R252, R259). -/
theorem runReceive_readData_cons {dg : Datagram} {q : List Datagram} (hq : d.queue = dg :: q) :
    runReceive p R .readData d = endRead (dataAnswer R d.expected dg) { d with queue := q } := by
  simp only [runReceive, hq]

/-- DF_READ_DATA waits at an empty queue (R252, R336). -/
theorem runReceive_readData_nil (hq : d.queue = []) :
    runReceive p R .readData d = { d with wait := .rxPending .readData } := by
  simp only [runReceive, hq]

end

/-- Settles O38: DF_READ_PACKET takes the head of the queue, if there is one. -/
theorem dfReadPacketAnswersTheHeadDatagram : Obligations.DfReadPacketAnswersTheHeadDatagram := by
  intro k s d hd hidle hopen
  refine ⟨fun dg q hq => ⟨_, exec_pktDecode_packetAnswer 0 dg s, ?_⟩, fun hq => ?_⟩
  · exact onDeframer_ends hd hidle hopen (runReceive_readPacket_cons hq) hidle hopen _
  · exact (onDeframer_open hd hidle hopen _ _).trans (by rw [runReceive_readPacket_nil hq])

/-- Settles O39: DF_READ_DATA takes the head of the queue, if there is one, and answers with its typed view. -/
theorem dfReadDataAnswersTheTypedValue : Obligations.DfReadDataAnswersTheTypedValue := by
  intro k s d _ hd hidle hopen
  refine ⟨fun dg q hq => ⟨_, _, exec_pktDecode_packetAnswer 0 dg s, ?_, dataAnswer_typed _ d.expected dg⟩, fun hq => ?_⟩
  · exact onDeframer_ends hd hidle hopen (runReceive_readData_cons hq) hidle hopen _
  · exact (onDeframer_open hd hidle hopen _ _).trans (by rw [runReceive_readData_nil hq])

end Sys2Proof.Machine
end

