-- ==== Sys2Proof/Proofs/DeframerByteReads.lean ====
section
/-! DF_READ as a command (R254, R255): it returns from the view, or goes past the datagrams that do not suffice to one
that does, to one that does not decode, or to the end of the queue. -/

namespace Sys2Proof.Machine

open Sys2Proof.Safety

/-! ## When a read goes on -/

/-- Under `fill` a read goes on while it has fewer bytes than it wants (R254). -/
@[simp] theorem stillReads_fill {n : Nat} {bytes : List Byte} : stillReads .fill n bytes ↔ bytes.length < n := Iff.rfl

/-- Under `part` a read goes on while it wants some bytes and has none (R255). -/
@[simp] theorem stillReads_part {n : Nat} {bytes : List Byte} : stillReads .part n bytes ↔ 0 < n ∧ bytes = [] := Iff.rfl

/-- A read that goes on has fewer bytes than it wants. -/
theorem stillReads_length_lt {span : ReadSpan} {n : Nat} {bytes : List Byte} (h : stillReads span n bytes) :
    bytes.length < n := by
  cases span with
  | fill => exact h
  | part =>
    obtain ⟨hn, rfl⟩ := h
    exact hn

/-- A read that goes on with some bytes would go on with the first of them. -/
theorem stillReads_left {span : ReadSpan} {n : Nat} {a b : List Byte} (h : stillReads span n (a ++ b)) :
    stillReads span n a :=
  readDone_false_iff.mp (readDone_false_left (readDone_false_iff.mpr h))

/-! ## From the view -/

/-- DF_READ for which the view suffices returns from it (R254, R255). -/
theorem startRead_view {p : Params} {n : BitVec 32} {d : Deframer} (R : Registries)
    (hdone : ¬stillReads p.readSpan n.toNat (unread d)) :
    startRead p R n d = endRead (okResult (.data ((unread d).take n.toNat)))
      { d with cursor := d.cursor + min n.toNat (d.rx.length - d.cursor) } := by
  obtain ⟨heq, -⟩ | ⟨-, hshort⟩ := startRead_cases p R n d
  · exact heq
  · exact absurd (readDone_false_iff.mp hshort) hdone

/-- DF_READ for which the view does not suffice pulls datagrams, with all that is unread gathered (R254, R255). -/
theorem startRead_pulls {p : Params} {n : BitVec 32} {d : Deframer} (R : Registries)
    (hshort : stillReads p.readSpan n.toNat (unread d)) :
    startRead p R n d = pullRead R p.readSpan n (unread d) d.queue d := by
  obtain ⟨-, hdone⟩ | ⟨heq, -⟩ := startRead_cases p R n d
  · rw [← List.take_append_drop n.toNat (unread d)] at hshort
    exact absurd (stillReads_left hshort) (readDone_true_iff.mp hdone)
  · exact heq

section
variable {k : Byte} {s : State} {d : Deframer} (hd : s.dfs[k.toNat]? = some d) (hidle : d.wait = .idle)
  (hopen : d.isOpen = true)
include hd hidle hopen

/-- DF_READ on an open idle deframer makes of it what `startRead` says. -/
theorem exec_dfRead_open (n : BitVec 32) : exec (.dfRead k n) s =
    .next (s.setDeframer k.toNat (startRead s.params s.registries n d)) :=
  onDeframer_open hd hidle hopen _ _

/-- DF_READ for which the view suffices returns up to the count of its bytes and pulls nothing. -/
theorem exec_dfRead_view {n : BitVec 32} (hdone : ¬stillReads s.params.readSpan n.toNat (unread d)) :
    exec (.dfRead k n) s = .next (s.setDeframer k.toNat { d with
      cursor := d.cursor + min n.toNat (d.rx.length - d.cursor)
      results := d.results ++ [⟨.ok, 0, .data ((unread d).take n.toNat)⟩] }) :=
  onDeframer_ends hd hidle hopen (startRead_view _ hdone) hidle hopen _

end

/-- Settles O41: the bytes wanted are among the unread ones, so the view suffices under either span. -/
theorem dfReadTakesFromTheView : Obligations.DfReadTakesFromTheView := by
  intro k n s d hd hidle hopen _ hn
  have hdone : ¬stillReads s.params.readSpan n.toNat (unread d) := fun h => by
    have := stillReads_length_lt h
    rw [unread, List.length_drop] at this
    omega
  rw [exec_dfRead_view hd hidle hopen hdone, Nat.min_eq_left hn]
  rfl

/-! ## From the port -/

section
variable {p : Params} {R : Registries} {n : BitVec 32} {d : Deframer} {dgs q : List Datagram}
  {payloads : List (List Byte)} (hR : registriesLegal R) (hgood : List.Forall₂ goodDatagram dgs payloads)
include hR hgood

/-- DF_READ goes past good datagrams that do not suffice, and gathers their payloads. -/
theorem startRead_skip (hq : d.queue = dgs ++ q)
    (hshort : stillReads p.readSpan n.toNat (unread d ++ payloads.flatten)) :
    startRead p R n d = pullRead R p.readSpan n (unread d ++ payloads.flatten) q d := by
  rw [startRead_pulls R (stillReads_left hshort), hq]
  exact pullRead_skip q d _ (hgood.imp fun _ _ => (decodesTo_iff hR).mpr) (readDone_false_iff.mpr hshort)

/-- DF_READ ends at the first good datagram that suffices, which becomes the view. -/
theorem startRead_last {last : Datagram} {payload : List Byte} (hq : d.queue = dgs ++ last :: q)
    (hlast : goodDatagram last payload) (hshort : stillReads p.readSpan n.toNat (unread d ++ payloads.flatten))
    (hdone : ¬stillReads p.readSpan n.toNat (unread d ++ payloads.flatten ++ payload)) :
    startRead p R n d = endRead (okResult (.data ((unread d ++ payloads.flatten ++ payload).take n.toNat)))
      { d with
        rx := payload
        cursor := min (n.toNat - (unread d ++ payloads.flatten).length) payload.length
        queue := q } := by
  rw [startRead_skip hR hgood hq hshort]
  exact pullRead_last q d ((decodesTo_iff hR).mpr hlast) (readDone_false_iff.mpr hshort) (readDone_true_iff.mpr hdone)

end

/-- Settles O42: the last datagram is the first that suffices, and the bytes taken of it are those still missing. -/
theorem dfReadFillSpansDatagrams : Obligations.DfReadFillSpansDatagrams := by
  intro k n s d dgs payloads last p q hR hfill hd hidle hopen _ hq hgood hlast hshort hdone
  have hmissing : n.toNat - (unread d ++ payloads.flatten).length ≤ p.length := by
    rw [List.length_append] at hdone
    omega
  have hlastRead := startRead_last (p := s.params) (n := n) hR hgood hq hlast
    (by rwa [hfill, stillReads_fill]) (by rwa [hfill, stillReads_fill, Nat.not_lt])
  rw [Nat.min_eq_left hmissing] at hlastRead
  exact onDeframer_ends hd hidle hopen hlastRead hidle hopen _

/-- Empty payloads gather nothing. -/
theorem forall₂_goodDatagram_empty {dgs : List Datagram} (h : ∀ dg ∈ dgs, goodDatagram dg []) :
    List.Forall₂ goodDatagram dgs (dgs.map fun _ => []) :=
  List.forall₂_map_right_iff.mpr (List.forall₂_same.mpr h)

/-- Settles O43: any unread byte suffices, and of the payloads the first that is not empty does. -/
theorem dfReadPartialTakesOneDatagram : Obligations.DfReadPartialTakesOneDatagram := by
  intro k n s d hR hpart hd hidle hopen hcursor hn
  refine ⟨fun hmore => ?_, fun empties last p q hend hq hempty hlast hne => ?_⟩
  · have hsome : unread d ≠ [] := List.ne_nil_of_length_pos (by rw [unread, List.length_drop]; omega)
    have hmin : d.cursor + min n.toNat (d.rx.length - d.cursor) = min (d.cursor + n.toNat) d.rx.length := by omega
    rw [exec_dfRead_view hd hidle hopen (by simp [hpart, hsome]), hmin]
  · have hnone : unread d ++ (empties.map fun _ => ([] : List Byte)).flatten = [] := by simp [unread, hend]
    have hlastRead := startRead_last (p := s.params) (n := n) hR (forall₂_goodDatagram_empty hempty) hq hlast
      (by rw [hpart, hnone]; exact ⟨hn, rfl⟩) (by rw [hpart, hnone]; exact fun h => hne h.2)
    rw [hnone] at hlastRead
    exact onDeframer_ends hd hidle hopen hlastRead hidle hopen _

/-- Settles O44: no datagram at the port suffices, so the read comes to the end of the queue. -/
theorem dfReadWaitsForMore : Obligations.DfReadWaitsForMore := by
  intro k n s d payloads hR hd hidle hopen _ hgood hshort
  rw [exec_dfRead_open hd hidle hopen, startRead_skip hR hgood (List.append_nil _).symm hshort, pullRead]

/-- A result of PKT_DECODE that is not OK is a failure of packet decoding. -/
theorem decodePacket_of_exec_failed {k : Byte} {dg : Datagram} {s : State} {r : Result}
    (h : exec (.pktDecode k dg) s = .next (s.report r)) (hr : r.status ≠ .ok) :
    ∃ e, decodePacket s.registries Config.strictDecode dg = .error e ∧ r = raiseResult e .none := by
  obtain rfl := result_eq_of_next_report (h.symm.trans (exec_pktDecode_packetAnswer k dg s))
  cases hdecode : decodePacket s.registries Config.strictDecode dg with
  | error e => exact ⟨e, rfl, packetAnswer_failed hdecode⟩
  | ok p => exact absurd (congrArg Result.status (packetAnswer_decoded hdecode)) hr

/-- Settles O45: the datagrams before the bad one do not suffice, so the read comes to it. -/
theorem dfReadFailureEmptiesTheView : Obligations.DfReadFailureEmptiesTheView := by
  intro k n s d dgs payloads bad q r hR hd hidle hopen _ hq hgood hshort hdecode hr
  obtain ⟨e, herror, rfl⟩ := decodePacket_of_exec_failed hdecode hr
  have hfails := (startRead_skip hR hgood hq hshort).trans (pullRead_bad q d herror)
  exact onDeframer_ends hd hidle hopen hfails hidle hopen _

end Sys2Proof.Machine
end

