-- ==== Sys2Proof/Proofs/DeframerArrivals.lean ====
section
/-! A datagram that reaches a read that waits (R35, R257), and the stream law of DF_READ (R260), for the command and for
the arrival alike. -/

namespace Sys2Proof.Machine

open Sys2Proof.Safety

/-! ## The arrival -/

/-- A step that takes a datagram makes of the deframer what `arriveDeframer` says (R318). -/
theorem step_rx {s : State} {k : Nat} {dg : Datagram} {d : Deframer} {rest : List Event} (hd : s.dfs[k]? = some d)
    (he : s.events = .rx k dg :: rest) : step s =
      .next (State.setDeframer { s with events := rest } k (arriveDeframer s.params s.registries dg d)) := by
  rw [step_cons he]
  simp only [eventStep, rxEvent, hd]

/-- A datagram that arrives lets the read that waits go on (R318). -/
theorem arriveDeframer_waiting {d : Deframer} {c : DfCont} (hwait : d.wait = .rxPending c) (p : Params) (R : Registries)
    (dg : Datagram) : arriveDeframer p R dg d = runReceive p R c { d with queue := d.queue ++ [dg] } := by
  simp only [arriveDeframer, hwait]

/-- A DF_READ that waits at an empty queue goes on with the datagram that arrives, and what it has gathered (R35). -/
theorem arriveDeframer_read {d : Deframer} {n : BitVec 32} {out : List Byte} (hwait : d.wait = .rxPending (.read n out))
    (hq : d.queue = []) (p : Params) (R : Registries) (dg : Datagram) :
    arriveDeframer p R dg d = pullRead R p.readSpan n out [dg] { d with queue := [dg] } := by
  rw [arriveDeframer_waiting hwait, hq]
  rfl

/-- A read that has reached its `receive` waits, or ends with one result on a deframer as open as it was. -/
theorem runReceive_waits_or_ends (p : Params) (R : Registries) (c : DfCont) (d : Deframer) :
    ((∃ c', (runReceive p R c d).wait = .rxPending c') ∧ (runReceive p R c d).results = d.results) ∨
    ∃ r d₁, runReceive p R c d = endRead r d₁ ∧ d₁.isOpen = d.isOpen ∧ d₁.results = d.results := by
  cases c with
  | readPacket =>
    cases hq : d.queue with
    | nil => rw [runReceive_readPacket_nil hq]; exact .inl ⟨⟨_, rfl⟩, rfl⟩
    | cons dg q => exact .inr ⟨_, _, runReceive_readPacket_cons hq, rfl, rfl⟩
  | readData =>
    cases hq : d.queue with
    | nil => rw [runReceive_readData_nil hq]; exact .inl ⟨⟨_, rfl⟩, rfl⟩
    | cons dg q => exact .inr ⟨_, _, runReceive_readData_cons hq, rfl, rfl⟩
  | read n out =>
    obtain ⟨pulled, payloads, -, -, ⟨-, h⟩ | ⟨bad, e, q, -, -, h⟩ | ⟨last, payload, q, m, -, -, -, -, h⟩⟩ :=
      pullRead_cases R p.readSpan n out d.queue d
    · rw [runReceive, h]
      exact .inl ⟨⟨_, rfl⟩, rfl⟩
    · exact .inr ⟨_, _, h, rfl, rfl⟩
    · exact .inr ⟨_, _, h, rfl, rfl⟩

/-- Settles O49: a read that ends on a closed deframer empties the view. -/
theorem overtakenReadLeavesAnEmptyView : Obligations.OvertakenReadLeavesAnEmptyView := by
  intro k dg s t d c rest hd hclosed hwait he hstep
  cases (step_rx hd he).symm.trans hstep
  refine ⟨_, State.setDeframer_get _ hd, ?_⟩
  rw [arriveDeframer_waiting hwait]
  refine ⟨(runReceive_frame ..).1.trans hclosed, ?_⟩
  obtain ⟨hwaits, hresults⟩ | ⟨r, d₁, hends, hopen₁, hresults⟩ :=
    runReceive_waits_or_ends s.params s.registries c { d with queue := d.queue ++ [dg] }
  · obtain ⟨c', hc'⟩ := hwaits
    exact .inl ⟨c', hc', hresults⟩
  · rw [hends, endRead_closed (hopen₁.trans hclosed)]
    exact .inr ⟨rfl, rfl, rfl, r, congrArg (· ++ [r]) hresults⟩

/-- A read that ends with the view empty leaves it so, open or overtaken. -/
theorem endRead_emptyView {d : Deframer} (hrx : d.rx = []) (hcursor : d.cursor = 0) (r : Result) :
    endRead r d = { d with wait := .idle, results := d.results ++ [r] } := by
  simp only [endRead, hrx, hcursor, ite_self]

/-- Settles O58: the one datagram is bad, does not suffice, or suffices. -/
theorem arrivingDatagramResumesDfRead : Obligations.ArrivingDatagramResumesDfRead := by
  intro k dg n out s d rest hR hd hwait hq hshort he
  rw [step_rx hd he, arriveDeframer_read hwait hq]
  refine ⟨fun r hdecode hr => ?_, fun p hgood hmore => ?_, fun p hgood hdone => ?_⟩
  · obtain ⟨e, herror, rfl⟩ := decodePacket_of_exec_failed hdecode hr
    rw [pullRead_bad _ _ herror, endRead_emptyView rfl rfl, hq]
  · have hskip := pullRead_skip (n := n) [] { d with queue := [dg] } out
      (.cons ((decodesTo_iff hR).mpr hgood) .nil) (by simpa using readDone_false_iff.mpr hmore)
    simp only [List.flatten_cons, List.flatten_nil, List.append_nil] at hskip
    rw [hskip, pullRead, hq]
  · rw [pullRead_last _ _ ((decodesTo_iff hR).mpr hgood) (readDone_false_iff.mpr hshort) (readDone_true_iff.mpr hdone),
      hq]
    rfl

/-! ## The stream law -/

/-- The end of a read on an open deframer leaves the unread bytes as they are. -/
theorem unread_endRead {d : Deframer} {r : Result} (hopen : (endRead r d).isOpen = true) :
    unread (endRead r d) = unread d := by
  rw [endRead_open (d := d) hopen]
  rfl

/-- The bytes taken from the view and those then unread are the ones unread before. -/
theorem take_append_unread (d : Deframer) (n : Nat) :
    (unread d).take n ++ unread { d with cursor := d.cursor + min n (d.rx.length - d.cursor) } = unread d := by
  have hrest : unread { d with cursor := d.cursor + min n (d.rx.length - d.cursor) } =
      (unread d).drop (min n (d.rx.length - d.cursor)) := List.drop_drop.symm
  rw [hrest, List.take_eq_take_min, unread, List.length_drop, List.take_append_drop]

/-- DF_READ from the view keeps the byte stream (R260). -/
theorem endRead_view_streamStep (n : BitVec 32) (d : Deframer) :
    streamStep n [] d.queue d (endRead (okResult (.data ((unread d).take n.toNat)))
      { d with cursor := d.cursor + min n.toNat (d.rx.length - d.cursor) }) := by
  refine ⟨[], [], .nil, .inl ⟨(unread d).take n.toNat, rfl, rfl, List.length_take_le .., rfl, ?_, fun hopen => ?_⟩⟩
  · simpa using List.take_prefix ..
  · rw [unread_endRead hopen]
    simpa using take_append_unread d n.toNat

/-- DF_READ from the port keeps the byte stream, with the bytes gathered and those unread in hand (R260). -/
theorem pullRead_streamStep {R : Registries} (hR : registriesLegal R) {span : ReadSpan} {n : BitVec 32}
    {gathered : List Byte} {q : List Datagram} {d : Deframer}
    (hshort : stillReads span n.toNat (gathered ++ unread d)) :
    streamStep n gathered q d (pullRead R span n (gathered ++ unread d) q d) := by
  obtain ⟨pulled, payloads, hpayloads, hmore, hcases⟩ := pullRead_cases R span n (gathered ++ unread d) q d
  have hgood := hpayloads.imp fun _ _ => (decodesTo_iff hR).mp
  obtain ⟨rfl, h⟩ | ⟨bad, e, q', rfl, herror, h⟩ | ⟨last, p, q', m, rfl, hlast, hm, -, h⟩ := hcases
  · rw [h]
    exact ⟨_, payloads, hgood, .inr (.inl ⟨(List.append_nil _).symm, rfl, rfl, rfl⟩)⟩
  · rw [h, endRead_emptyView rfl rfl]
    refine ⟨pulled, payloads, hgood, .inr (.inr ⟨bad, e.status, e.cause, rfl, fun ⟨p, hp⟩ => ?_,
      status_ne_ok_of_decodePacket herror, rfl, rfl, rfl, rfl⟩)⟩
    obtain ⟨header, hok⟩ := (decodesTo_iff hR).mpr hp
    cases herror.symm.trans hok
  · have hlt : (gathered ++ unread d ++ payloads.flatten).length < n.toNat := by
      cases hpayloads with
      | nil => simpa using stillReads_length_lt hshort
      | cons => exact stillReads_length_lt (readDone_false_iff.mp (hmore (List.cons_ne_nil _ _)))
    have hflat : gathered ++ unread d ++ (payloads ++ [p]).flatten =
        gathered ++ unread d ++ payloads.flatten ++ p := by simp
    rw [h]
    refine ⟨pulled ++ [last], payloads ++ [p], List.rel_append hgood (.cons ((decodesTo_iff hR).mp hlast) .nil),
      .inl ⟨_, List.append_cons .., rfl, ?_, rfl, ?_, fun hopen => ?_⟩⟩
    · rw [List.length_append, List.length_take]
      omega
    · rw [hflat]
      exact (List.prefix_append_right_inj _).mpr (List.take_prefix ..)
    · rw [hflat, unread_endRead hopen, List.append_assoc]
      exact congrArg _ (List.take_append_drop m p)

/-- Settles O46: the command starts with what is unread, and the arrival with what is gathered and nothing unread. -/
theorem dfReadKeepsTheByteStream : Obligations.DfReadKeepsTheByteStream := by
  refine ⟨fun k n s d hR hd hidle hopen _ => ⟨_, exec_dfRead_open hd hidle hopen n, ?_⟩,
    fun k dg n out s d rest hR hd hinv hwait he => ⟨_, step_rx hd he, ?_⟩⟩
  · by_cases hshort : stillReads s.params.readSpan n.toNat (unread d)
    · rw [startRead_pulls _ hshort]
      exact pullRead_streamStep hR (gathered := []) hshort
    · rw [startRead_view _ hshort]
      exact endRead_view_streamStep n d
  · obtain ⟨-, -, -, -, hwaiting⟩ := hinv
    simp only [waitingOk, hwait] at hwaiting
    obtain ⟨hq, hrx, hcursor, hshort⟩ := hwaiting
    have hnone : out ++ unread { d with queue := [dg] } = out := by simp [unread, hrx]
    have hstep := pullRead_streamStep hR (q := [dg]) (hnone.symm ▸ hshort)
    rw [hnone] at hstep
    rw [arriveDeframer_read hwait hq]
    exact hstep

end Sys2Proof.Machine
end

