-- ==== Sys2Proof/Proofs/DeframerPacketArrivals.lean ====
section
/-! A datagram that arrives where nothing waits (R318), and one that ends a packet read that waits (R35, R257). -/

namespace Sys2Proof.Machine

open Sys2Proof.Safety

/-- A datagram that arrives where no read waits joins the end of the queue (R318). -/
theorem arriveDeframer_idle {d : Deframer} (hidle : d.wait = .idle) (p : Params) (R : Registries) (dg : Datagram) :
    arriveDeframer p R dg d = { d with queue := d.queue ++ [dg] } := by
  simp only [arriveDeframer, hidle]

/-- Settles O40: the datagram is queued, or is the head of the queue for the read that waits, which ends with it. -/
theorem arrivingDatagramQueuesOrEndsTheRead : Obligations.ArrivingDatagramQueuesOrEndsTheRead := by
  intro k dg s d rest hd he
  rw [step_rx hd he]
  refine ⟨fun hidle => ?_, fun hwait hq => ⟨_, exec_pktDecode_packetAnswer 0 dg s, ?_⟩,
    fun hwait hq => ⟨_, _, exec_pktDecode_packetAnswer 0 dg s, ?_, dataAnswer_typed _ d.expected dg⟩⟩
  · rw [arriveDeframer_idle hidle]
  · rw [arriveDeframer_waiting hwait, hq, runReceive_readPacket_cons rfl]
    rfl
  · rw [arriveDeframer_waiting hwait, hq, runReceive_readData_cons rfl]
    rfl

end Sys2Proof.Machine
end

