-- ==== Sys2Proof/Proofs/HostDuties.lean ====
section
/-! When a step goes on (R309, R318): each operation of the model takes a next state exactly when the duty that it
relies on is kept. -/

namespace Sys2Proof.Machine

open Sys2Proof.Safety

/-! ## One instance -/

/-- FR_OPEN goes on exactly on a closed framer (R309). -/
theorem openFramer_goesOn_iff {p : Params} {R : Registries} {r : StreamRecord} {f : Framer} :
    (∃ f', openFramer p R r f = .ok f') ↔ f.isOpen = false := by
  refine ⟨fun ⟨_, h⟩ => (openFramer_ok h).1, fun hclosed => ?_⟩
  rw [openFramer, hclosed, if_neg Bool.false_ne_true]
  split
  · exact ⟨_, rfl⟩
  · exact ⟨_, rfl⟩

/-- A command behind the framers' closed check goes on exactly when it would on an open framer. -/
theorem whenFramerOpen_goesOn_iff {op : Byte} {act : Framer → Except Refusal Framer} {f : Framer} :
    (∃ f', whenFramerOpen op act f = .ok f') ↔ (f.isOpen = true → ∃ f', act f = .ok f') := by
  cases hopen : f.isOpen with
  | true => simp [whenFramerOpen, hopen]
  | false => simp [whenFramerOpen, hopen]

/-- The host keeps its duties with a framer exactly when the framer is idle and the command goes on there. -/
theorem framerDuty_iff {i : Instr} {k : Nat} (ht : targetOf i = some (true, k)) (p : Params) (R : Registries)
    (f : Framer) : framerDuty i f ↔ f.wait = .idle ∧ ∃ f', framerAct p R i f = .ok f' := by
  refine and_congr_right fun _ => ?_
  cases i with
  | frOpen => exact openFramer_goesOn_iff.symm
  | frWrite => simp [framerAct, whenFramerOpen_goesOn_iff]
  | frFlush => simp [framerAct, whenFramerOpen_goesOn_iff]
  | frSendData _ v =>
    rw [framerAct, whenFramerOpen_goesOn_iff]
    cases hdata : sendBytes f.cfg.protocol v <;> simp [hdata]
  | frClose => simp [framerAct, whenFramerOpen_goesOn_iff]
  | _ => cases ht

/-- DF_OPEN goes on exactly on a closed deframer (R309). -/
theorem openDeframer_goesOn_iff {R : Registries} {protocol : Byte} {d : Deframer} :
    (∃ d', openDeframer R protocol d = .ok d') ↔ d.isOpen = false := by
  refine ⟨fun ⟨_, h⟩ => (openDeframer_ok h).1, fun hclosed => ?_⟩
  rw [openDeframer, hclosed, if_neg Bool.false_ne_true]
  split
  · exact ⟨_, rfl⟩
  · exact ⟨_, rfl⟩

/-- A command behind the deframers' closed check always goes on (R258). -/
theorem whenDeframerOpen_goesOn (act : Deframer → Deframer) (d : Deframer) :
    ∃ d', whenDeframerOpen act d = .ok d' := by
  cases hopen : d.isOpen with
  | true => exact ⟨_, whenDeframerOpen_open hopen⟩
  | false => exact ⟨_, whenDeframerOpen_closed hopen⟩

/-- A deframer command other than DF_CLOSE goes on exactly on an idle deframer where its own act does. -/
theorem deframerAct_goesOn_iff {p : Params} {R : Registries} {i : Instr} {d : Deframer} (hi : i.opcode ≠ .dfClose) :
    (∃ d', deframerAct p R i d = .ok d') ↔ d.wait = .idle ∧ ∃ d', idleDeframerAct p R i d = .ok d' := by
  refine ⟨fun ⟨d', h⟩ => ⟨(deframerAct_idle hi h).1, d', (deframerAct_idle hi h).2⟩, fun ⟨hidle, d', h⟩ => ⟨d', ?_⟩⟩
  unfold deframerAct
  split
  · exact absurd rfl hi
  · simp only [hidle, h]

/-- The host keeps its duties with a deframer exactly when the command goes on there. -/
theorem deframerDuty_iff {i : Instr} {k : Nat} (ht : targetOf i = some (false, k)) (p : Params) (R : Registries)
    (d : Deframer) : deframerDuty i d ↔ ∃ d', deframerAct p R i d = .ok d' := by
  have reads (hi : i.opcode ≠ .dfClose) (hact : ∃ d', idleDeframerAct p R i d = .ok d') :
      d.wait = .idle ↔ ∃ d', deframerAct p R i d = .ok d' := by
    rw [deframerAct_goesOn_iff hi, and_iff_left hact]
  cases i with
  | dfOpen =>
    rw [deframerAct_goesOn_iff (by simp [Instr.opcode])]
    exact and_congr_right fun _ => openDeframer_goesOn_iff.symm
  | dfReadPacket => exact reads (by simp [Instr.opcode]) (whenDeframerOpen_goesOn _ _)
  | dfReadData => exact reads (by simp [Instr.opcode]) (whenDeframerOpen_goesOn _ _)
  | dfRead => exact reads (by simp [Instr.opcode]) (whenDeframerOpen_goesOn _ _)
  | dfClose => exact iff_of_true trivial (whenDeframerOpen_goesOn _ _)
  | _ => cases ht

/-! ## One command -/

/-- An FR_ command goes on exactly when no framer is there, or it is idle and the act goes on. -/
theorem onFramer_goesOn_iff {op k : Byte} {act : Framer → Except Refusal Framer} {s : State} :
    (∃ t, onFramer op k act s = .next t) ↔
      ∀ f, s.frs[k.toNat]? = some f → f.wait = .idle ∧ ∃ f', act f = .ok f' := by
  refine ⟨fun ⟨t, h⟩ f hf => ?_, fun h => ?_⟩
  · obtain ⟨hnone, -⟩ | ⟨g, f', hg, hidle, hact, -⟩ := onFramer_next h
    · cases hnone.symm.trans hf
    · cases hg.symm.trans hf
      exact ⟨hidle, f', hact⟩
  · cases hf : s.frs[k.toNat]? with
    | none => exact ⟨_, onFramer_none hf⟩
    | some f =>
      obtain ⟨hidle, f', hact⟩ := h f hf
      exact ⟨_, by rw [onFramer_some hf hidle, hact, framerOutcome]⟩

/-- A DF_ command goes on exactly when no deframer is there, or the act goes on. -/
theorem onAnyDeframer_goesOn_iff {op k : Byte} {act : Deframer → Except Refusal Deframer} {s : State} :
    (∃ t, onAnyDeframer op k act s = .next t) ↔ ∀ d, s.dfs[k.toNat]? = some d → ∃ d', act d = .ok d' := by
  refine ⟨fun ⟨t, h⟩ d hd => ?_, fun h => ?_⟩
  · obtain ⟨hnone, -⟩ | ⟨g, d', hg, hact, -⟩ := onAnyDeframer_next h
    · cases hnone.symm.trans hd
    · cases hg.symm.trans hd
      exact ⟨d', hact⟩
  · cases hd : s.dfs[k.toNat]? with
    | none => exact ⟨_, by rw [onAnyDeframer, hd, illegalInstance]⟩
    | some d =>
      obtain ⟨d', hact⟩ := h d hd
      exact ⟨_, by rw [onAnyDeframer_some hd, hact, deframerOutcome]⟩

/-- The commands that address a framer are the FR_ commands (R308). -/
theorem targetOf_framer_iff {i : Instr} :
    targetOf i = some (true, i.inst.toNat) ↔ isFramerOp (opcodeByte i.opcode) = true := by
  unfold targetOf
  split_ifs with hframer <;> simp [hframer]

/-- The commands that address a deframer are the DF_ commands (R308). -/
theorem targetOf_deframer_iff {i : Instr} :
    targetOf i = some (false, i.inst.toNat) ↔ isDeframerOp (opcodeByte i.opcode) = true := by
  unfold targetOf
  split_ifs with hframer hdeframer
  · exact iff_of_false (by simp) fun h => Bool.false_ne_true ((isFramerOp_eq_false h).symm.trans hframer)
  · simp [hdeframer]
  · simp [hdeframer]

/-- A command goes on exactly when the host keeps its duties with it (R309). -/
theorem exec_goesOn_iff {i : Instr} {s : State} : (∃ t, exec i s = .next t) ↔ commandDuty i s := by
  simp only [commandDuty, ← targetOf_framer_iff, ← targetOf_deframer_iff]
  rcases targetOf_cases i with ht | ht | ht
  · exact iff_of_true ⟨_, exec_stateless ht s⟩ (by simp [ht])
  · rw [(exec_framer ht s).2, onFramer_goesOn_iff]
    simp [ht, framerDuty_iff ht s.params s.registries]
  · rw [(exec_deframer ht s).2, onAnyDeframer_goesOn_iff]
    simp [ht, deframerDuty_iff ht s.params s.registries]

/-! ## One event -/

/-- An answer of the transport goes on exactly where a send is pending (R318). -/
theorem answerFramer_goesOn_iff {p : Params} {ok : Bool} {f : Framer} :
    (∃ f', answerFramer p ok f = .ok f') ↔ f.wait ≠ .idle := by
  refine ⟨fun ⟨f', h⟩ hidle => ?_, fun hbusy => ?_⟩
  · obtain ⟨dg, u, c, hwait, -⟩ := answerFramer_ok h
    cases hidle.symm.trans hwait
  · cases hwait : f.wait with
    | idle => exact absurd hwait hbusy
    | txPending dg u c =>
      cases ok with
      | true => exact ⟨_, (answerFramer_pending hwait).1⟩
      | false => exact ⟨_, (answerFramer_pending hwait).2⟩

/-- A command that arrives goes on exactly when the command-word check answers it, or it is a well-formed command with
which the host keeps its duties (R308, R309). -/
theorem runCommand_goesOn_iff {w : BitVec 16} {r : OperandRecord} {s : State} :
    (∃ t, runCommand w r s = .next t) ↔ eventDuty (.command w r) s := by
  refine ⟨fun ⟨t, h⟩ hcheck => ?_, fun hduty => ?_⟩
  · obtain ⟨c, hc, -⟩ | ⟨i, -, hdecode, hwf, hexec⟩ := runCommand_next h
    · cases hc.symm.trans hcheck
    · exact ⟨i, hdecode, hwf, exec_goesOn_iff.mp ⟨t, hexec⟩⟩
  · cases hcheck : wordCheck s w with
    | some c => exact ⟨_, runCommand_illegal hcheck r⟩
    | none =>
      obtain ⟨i, hdecode, hwf, hi⟩ := hduty hcheck
      rw [runCommand_decoded hdecode hwf]
      exact exec_goesOn_iff.mpr hi

/-- An answer of the transport goes on exactly when a framer is at the port and waits for it (R318). -/
theorem txEvent_goesOn_iff {k : Nat} {ok : Bool} {s : State} :
    (∃ t, txEvent k ok s = .next t) ↔ eventDuty (.tx k ok) s := by
  refine ⟨fun ⟨t, h⟩ => ?_, fun ⟨f, hf, hbusy⟩ => ?_⟩
  · obtain ⟨f, f', hf, hanswer, -⟩ := txEvent_next h
    exact ⟨f, hf, answerFramer_goesOn_iff.mp ⟨f', hanswer⟩⟩
  · obtain ⟨f', hanswer⟩ := answerFramer_goesOn_iff (p := s.params) (ok := ok) |>.mpr hbusy
    exact ⟨s.setFramer k f', by simp only [txEvent, hf, hanswer, framerOutcome]⟩

/-- A datagram arrives exactly where a deframer is at the port (R318). -/
theorem rxEvent_goesOn_iff {k : Nat} {dg : Datagram} {s : State} :
    (∃ t, rxEvent k dg s = .next t) ↔ eventDuty (.rx k dg) s := by
  refine ⟨fun ⟨t, h⟩ => ?_, fun ⟨d, hd⟩ => ?_⟩
  · obtain ⟨d, hd, -⟩ := rxEvent_next h
    exact ⟨d, hd⟩
  · exact ⟨s.setDeframer k (arriveDeframer s.params s.registries dg d), by simp only [rxEvent, hd]⟩

/-- Settles O56: a step takes its event, and each kind of event goes on exactly when its duty is kept. -/
theorem onlyBrokenDutiesAreRefused : Obligations.OnlyBrokenDutiesAreRefused := by
  intro s e rest he
  rw [step_cons he]
  cases e with
  | command w r => exact runCommand_goesOn_iff
  | tx k ok => exact txEvent_goesOn_iff
  | rx k dg => exact rxEvent_goesOn_iff

end Sys2Proof.Machine
end

