-- ==== Sys2Proof/Proofs/LegalResults.lean ====
section
/-! Which results leave in a step (R301, R302): each command's own answers and failures are legal for it, a framer that
meets its invariant cannot fail by size, and a step adds results at the ports of the commands that end there alone. -/

namespace Sys2Proof.Machine

open Sys2Proof.Safety

/-! ## Legal results -/

/-- A result with status OK is legal for a command that may return OK. -/
theorem okResult_legal {op : Byte} (h : Status.ok ∈ statusesOf op) (fields : ResultFields) :
    resultLegal op (okResult fields) :=
  ⟨.inr h, List.mem_singleton_self 0⟩

/-- A failure is legal for a command that may return its status, if its cause is one of that status. -/
theorem raiseResult_legal {op : Byte} {e : Failure} (hstatus : e.status ∈ statusesOf op)
    (hcause : e.cause ∈ causesOf e.status) (fields : ResultFields) : resultLegal op (raiseResult e fields) :=
  ⟨.inr hstatus, hcause⟩

/-- IllegalCommand is legal for any command (R302, R308). -/
theorem illegalCommand_legal {c : BitVec 8} (h : c ∈ causesOf .illegalCommand) (op : Byte) (fields : ResultFields) :
    resultLegal op (raiseResult (illegalCommand c) fields) :=
  ⟨.inl rfl, h⟩

/-- UnknownCode is legal for a command that may return it, whichever dimension missed. -/
theorem unknownCode_legal {op : Byte} (h : Status.unknownCode ∈ statusesOf op) (d : Dimension)
    (fields : ResultFields) : resultLegal op (raiseResult (unknownCode d) fields) :=
  raiseResult_legal h (by cases d <;> decide) fields

/-- A failed protocol check is legal for REG_DIMS and DF_OPEN (R112, R250). -/
theorem checkProtocol_legal {R : Registries} {p op : Byte} {e : Failure} (hop : op ∈ [0x02, 0x40])
    (h : checkProtocol R p = some e) (fields : ResultFields) : resultLegal op (raiseResult e fields) := by
  obtain ⟨hstatus, hcause⟩ := checkProtocol_status h
  have allowed : ∀ op ∈ [(0x02 : Byte), 0x40], ∀ st ∈ [Status.unknownCode, .unsupportedProtocol],
      st ∈ statusesOf op ∧ 0 ∈ causesOf st := by decide
  obtain ⟨hallowed, hzero⟩ := allowed op hop e.status (by simpa using hstatus)
  exact raiseResult_legal hallowed (hcause ▸ hzero) fields

/-- A failed encode check is legal for HDR_ENCODE and FR_OPEN (R152). -/
theorem checkEncode_legal {R : Registries} {protocol rate format codec op : Byte} {samples channel : BitVec 32}
    {e : Failure} (hop : op ∈ [0x10, 0x30]) (h : checkEncode R protocol rate samples channel format codec = some e)
    (fields : ResultFields) : resultLegal op (raiseResult e fields) := by
  obtain ⟨hstatus, hcause⟩ := checkEncode_status h
  have allowed : ∀ op ∈ [(0x10 : Byte), 0x30], ∀ st ∈ [Status.outOfRange, .unknownCode, .unsupportedProtocol],
      st ∈ statusesOf op := by decide
  exact raiseResult_legal (allowed op hop _ (by simpa using hstatus)) hcause fields

/-- A failed decode check is legal for HDR_DECODE (R158). -/
theorem checkDecode_legal {R : Registries} {strict : Bool} {data : List Byte} {e : Failure}
    (h : checkDecode R strict data = some e) (fields : ResultFields) : resultLegal 0x11 (raiseResult e fields) := by
  obtain ⟨hstatus, hcause⟩ := checkDecode_status h
  have allowed : ∀ st ∈ [Status.malformedHeader, .unsupportedProtocol, .unknownCode], st ∈ statusesOf 0x11 := by
    decide
  exact raiseResult_legal (allowed _ (by simpa using hstatus)) hcause fields

/-- A failure of packet decoding is legal for PKT_DECODE and the three reads (R192). -/
theorem decodePacket_legal {R : Registries} {strict : Bool} {dg : Datagram} {op : Byte} {e : Failure}
    (hop : op ∈ [0x21, 0x41, 0x42, 0x43]) (h : decodePacket R strict dg = .error e) (fields : ResultFields) :
    resultLegal op (raiseResult e fields) := by
  obtain ⟨hstatus, hcause⟩ := decodePacket_status h
  have allowed : ∀ op ∈ [(0x21 : Byte), 0x41, 0x42, 0x43],
      ∀ st ∈ [Status.malformedHeader, .unsupportedProtocol, .unknownCode, .payloadTooLarge], st ∈ statusesOf op := by
    decide
  exact raiseResult_legal (allowed op hop _ (by simpa using hstatus)) hcause fields

/-! ## Stateless commands -/

/-- A result is legal when OK and every failure of the computation are. -/
theorem resultOf_legal {α : Type} {op : Byte} {x : Except Failure α} (hok : Status.ok ∈ statusesOf op)
    (hfail : ∀ e, x = .error e → resultLegal op (raiseResult e .none)) (fields : α → ResultFields) :
    resultLegal op (resultOf fields x) := by
  cases x with
  | ok a => exact okResult_legal hok _
  | error e => exact hfail e rfl

/-- REG_LOOKUP fails by its dimension or by its code (R111). -/
theorem lookupAnswer_error {R : Registries} {dim : BitVec 3} {code : Byte} {e : Failure}
    (h : lookupAnswer R dim code = .error e) : e = illegalCommand 3 ∨ ∃ d, e = unknownCode d := by
  unfold lookupAnswer at h
  split at h
  · exact .inl (Except.error.inj h).symm
  · next d _ =>
    split at h
    · exact .inr ⟨d, (Except.error.inj h).symm⟩
    · cases h

/-- REG_DIMS fails by the protocol check, or for want of a dimension (R112). -/
theorem dimsAnswer_error {R : Registries} {p : Byte} {e : Failure} (h : dimsAnswer R p = .error e) :
    checkProtocol R p = some e ∨ e = unsupportedProtocol := by
  unfold dimsAnswer at h
  split at h
  · next hcheck => exact .inl (Except.error.inj h ▸ hcheck)
  · split at h
    · cases h
    · exact .inr (Except.error.inj h).symm

/-- HDR_ENCODE fails by its checks (R151). -/
theorem encodeHeader_error {R : Registries} {r : HeaderRecord} {e : Failure} (h : encodeHeader R r = .error e) :
    checkEncode R r.protocol r.rate r.samples r.channel r.format r.codec = some e := by
  unfold encodeHeader at h
  split at h
  · next hcheck => exact Except.error.inj h ▸ hcheck
  · cases h

/-- HDR_DECODE fails by decode validation (R157). -/
theorem decodeHeader_error {R : Registries} {strict : Bool} {data : List Byte} {e : Failure}
    (h : decodeHeader R strict data = .error e) : checkDecode R strict data = some e := by
  unfold decodeHeader at h
  split at h
  · next hcheck => exact Except.error.inj h ▸ hcheck
  · cases h

/-- PKT_CREATE fails by the length bound (R190). -/
theorem createPacket_error {header payload : List Byte} {e : Failure} (h : createPacket header payload = .error e) :
    e = payloadTooLarge 1 := by
  unfold createPacket at h
  split at h
  · exact (Except.error.inj h).symm
  · cases h

/-- The result of a stateless command is legal for it. -/
theorem statelessResult_legal {i : Instr} (ht : targetOf i = none) (R : Registries) :
    resultLegal (opcodeByte i.opcode) (statelessResult R i) := by
  cases i with
  | regLookup =>
    refine resultOf_legal (op := 0x01) (by decide) (fun e h => ?_) _
    obtain rfl | ⟨d, rfl⟩ := lookupAnswer_error h
    · exact illegalCommand_legal (by decide) _ _
    · exact unknownCode_legal (by decide) d _
  | regDims =>
    refine resultOf_legal (op := 0x02) (by decide) (fun e h => ?_) _
    obtain hcheck | rfl := dimsAnswer_error h
    · exact checkProtocol_legal (by decide) hcheck _
    · exact raiseResult_legal (by decide) (by decide) _
  | hdrEncode =>
    exact resultOf_legal (op := 0x10) (by decide)
      (fun _ h => checkEncode_legal (by decide) (encodeHeader_error h) _) _
  | hdrDecode =>
    exact resultOf_legal (op := 0x11) (by decide) (fun _ h => checkDecode_legal (decodeHeader_error h) _) _
  | pktCreate =>
    refine resultOf_legal (op := 0x20) (by decide) (fun e h => ?_) _
    rw [createPacket_error h]
    exact raiseResult_legal (by decide) (by decide) _
  | pktDecode =>
    exact resultOf_legal (op := 0x21) (by decide) (fun _ h => decodePacket_legal (by decide) h _) _
  | _ => cases ht

/-! ## Results that a port gains -/

/-- The results `after` are those `before` and then answers of the commands `ops`. -/
def addsAnswers (ops : List Byte) (before after : List Result) : Prop :=
  ∃ new, after = before ++ new ∧ answers ops new

/-- A port that gains nothing gains answers of any commands. -/
theorem addsAnswers_none (ops : List Byte) (rs : List Result) : addsAnswers ops rs rs :=
  ⟨[], (List.append_nil rs).symm, answers_nil ops⟩

/-- A port that gains a legal result of the first command gains an answer. -/
theorem addsAnswers_one {op : Byte} {r : Result} (h : resultLegal op r) (ops : List Byte) (rs : List Result) :
    addsAnswers (op :: ops) rs (rs ++ [r]) :=
  ⟨[r], rfl, answers_cons.mpr ⟨h, answers_nil ops⟩⟩

/-! ## Framers -/

/-- A flush of a buffer that fits adds no result: the framer waits (R213, R222). -/
theorem startFlush_results {f : Framer} (hfits : f.buf.bytes.length ≤ 1408) (c : FrCont) :
    (startFlush c f).results = f.results := by
  rw [startFlush_fits hfits]

/-- A write on a ready framer adds the OK of its command, or none: the buffer fits and grows, so neither a flush nor an
append fails (R215, R222). -/
theorem writeLoop_addsAnswers {f : Framer} (h : ReadyFramer f) (kind : WriteKind) (data : List Byte) (n : Nat) :
    addsAnswers [kindOp kind] f.results (writeLoop kind data n f).results := by
  refine writeLoop_induct (P := fun g => ReadyFramer g ∧ g.results = f.results)
    (Q := fun g => addsAnswers [kindOp kind] f.results g.results) kind ?append ?flush ?fail ?done data n f ⟨h, rfl⟩
  case append => exact fun g b g' ⟨hg, hresults⟩ hroom happend => ⟨readyFramer_append hg hroom happend, hresults⟩
  case flush =>
    rintro g c ⟨⟨⟨hfits, -⟩, -, -⟩, hresults⟩ -
    rw [startFlush_results hfits, hresults]
    exact addsAnswers_none _ _
  case fail =>
    rintro g m ⟨⟨⟨-, -, hgrows, -⟩, -, -⟩, -⟩ hfixed
    cases hgrows.symm.trans hfixed
  case done =>
    rintro g m ⟨-, hresults⟩
    rw [Framer.report_results, hresults]
    exact addsAnswers_one (okResult_legal (by cases kind <;> decide) _) _ _

/-- A command that goes on after its send adds its own OK, or none (R213 to R218). -/
theorem resumeFramer_addsAnswers {f : Framer} (h : ReadyFramer f) (c : FrCont) (u : FrameCounter) :
    addsAnswers [contOp c] f.results (resumeFramer c u f).results := by
  cases c with
  | flush => exact addsAnswers_one (okResult_legal (by decide) _) _ _
  | write kind rest n => exact writeLoop_addsAnswers h kind rest n
  | trailing n => exact addsAnswers_one (okResult_legal (op := 0x33) (by decide) _) _ _

/-- TransportError is legal for every command that sends (R302). -/
theorem transportError_legal (c : FrCont) : resultLegal (contOp c) (raiseResult transportError (contFailFields c)) := by
  cases c with
  | flush => exact raiseResult_legal (by decide) (by decide) _
  | write kind _ _ => exact raiseResult_legal (op := kindOp kind) (by cases kind <;> decide) (by decide) _
  | trailing => exact raiseResult_legal (op := 0x33) (by decide) (by decide) _

/-- An answer of the transport adds a result of the command that waits for it, or none (R213). -/
theorem answerFramer_addsAnswers {p : Params} {ok : Bool} {f f' : Framer} (h : framerInv f)
    (ha : answerFramer p ok f = .ok f') :
    ∃ dg u c, f.wait = .txPending dg u c ∧ addsAnswers [contOp c] f.results f'.results := by
  obtain ⟨dg, u, c, hwait, rfl | rfl⟩ := answerFramer_ok ha
  · obtain ⟨-, -, hgrows, -⟩ := id h
    have hready : ReadyFramer { f with wait := .idle, buf := ⟨[], f.buf.cap, f.buf.fixed⟩ } :=
      readyFramer_setBuf h (isOpen_of_txPending h hwait) rfl (Nat.zero_le _) (Nat.zero_le _) hgrows
    exact ⟨dg, u, c, hwait, resumeFramer_addsAnswers hready c u⟩
  · exact ⟨dg, u, c, hwait, addsAnswers_one (transportError_legal c) _ _⟩

/-- A command behind the framers' closed check adds StreamClosed, or what it adds on an open framer (R220). -/
theorem whenFramerOpen_addsAnswers {op : Byte} {act : Framer → Except Refusal Framer} {f f' : Framer}
    (hop : Status.streamClosed ∈ statusesOf op)
    (hact : f.isOpen = true → act f = .ok f' → addsAnswers [op] f.results f'.results)
    (h : whenFramerOpen op act f = .ok f') : addsAnswers [op] f.results f'.results := by
  obtain ⟨-, rfl⟩ | ⟨hopen, hf'⟩ := whenFramerOpen_ok h
  · exact addsAnswers_one (raiseResult_legal hop (by decide) _) _ _
  · exact hact hopen hf'

/-- A framer command on an idle framer adds one legal result, or none. -/
theorem framerAct_addsAnswers {p : Params} {R : Registries} {i : Instr} {k : Nat} {f f' : Framer}
    (ht : targetOf i = some (true, k)) (hinv : framerInv f) (hidle : f.wait = .idle)
    (h : framerAct p R i f = .ok f') : addsAnswers [opcodeByte i.opcode] f.results f'.results := by
  cases i with
  | frOpen =>
    obtain ⟨-, ⟨e, hcheck, rfl⟩ | ⟨-, rfl⟩⟩ := openFramer_ok h
    · exact addsAnswers_one (checkEncode_legal (op := 0x30) (by decide) hcheck _) _ _
    · exact addsAnswers_one (okResult_legal (op := 0x30) (by decide) _) _ _
  | frWrite =>
    rw [framerAct] at h
    refine whenFramerOpen_addsAnswers (op := 0x31) (by decide) (fun hopen hact => ?_) h
    cases hact
    exact writeLoop_addsAnswers ⟨hinv, hopen, hidle⟩ .write _ _
  | frFlush =>
    rw [framerAct] at h
    refine whenFramerOpen_addsAnswers (op := 0x32) (by decide) (fun _ hact => ?_) h
    obtain ⟨hfits, -⟩ := hinv
    cases hact
    rw [startFlush_results hfits]
    exact addsAnswers_none _ _
  | frSendData =>
    rw [framerAct] at h
    refine whenFramerOpen_addsAnswers (op := 0x33) (by decide) (fun hopen hact => ?_) h
    split at hact
    · cases hact
    · cases hact
      exact writeLoop_addsAnswers ⟨hinv, hopen, hidle⟩ .sendData _ _
  | frClose =>
    rw [framerAct] at h
    refine whenFramerOpen_addsAnswers (op := 0x34) (by decide) (fun _ hact => ?_) h
    cases hact
    exact addsAnswers_one (okResult_legal (by decide) _) _ _
  | _ => cases ht

/-! ## Deframers -/

/-- What DF_READ_DATA answers to a datagram is legal for it (R252). -/
theorem dataAnswer_legal (R : Registries) (expected : Byte) (dg : Datagram) :
    resultLegal 0x42 (dataAnswer R expected dg) := by
  unfold dataAnswer
  split
  · next e herror => exact decodePacket_legal (by decide) herror _
  · split
    · exact raiseResult_legal (by decide) (by decide) _
    · exact okResult_legal (by decide) _

/-- A read that has reached its `receive` adds its result, or waits (R251 to R255). -/
theorem runReceive_addsAnswers (p : Params) (R : Registries) (c : DfCont) (d : Deframer) (ops : List Byte) :
    addsAnswers (readOp c :: ops) d.results (runReceive p R c d).results := by
  cases c with
  | readPacket =>
    cases hq : d.queue with
    | nil =>
      rw [runReceive_readPacket_nil hq]
      exact addsAnswers_none _ _
    | cons dg q =>
      rw [runReceive_readPacket_cons hq]
      exact addsAnswers_one (resultOf_legal (by decide) (fun _ h => decodePacket_legal (by decide) h _) _) _ _
  | readData =>
    cases hq : d.queue with
    | nil =>
      rw [runReceive_readData_nil hq]
      exact addsAnswers_none _ _
    | cons dg q =>
      rw [runReceive_readData_cons hq]
      exact addsAnswers_one (dataAnswer_legal _ _ _) _ _
  | read n out =>
    rw [runReceive]
    obtain ⟨pulled, payloads, -, -, ⟨-, h⟩ | ⟨bad, e, q, -, herror, h⟩ | ⟨last, payload, q, m, -, -, -, -, h⟩⟩ :=
      pullRead_cases R p.readSpan n out d.queue d
    · rw [h]
      exact addsAnswers_none _ _
    · rw [h]
      exact addsAnswers_one (decodePacket_legal (op := 0x43) (by decide) herror _) _ _
    · rw [h]
      exact addsAnswers_one (okResult_legal (op := 0x43) (by decide) _) _ _

/-- DF_READ adds its result, or waits (R254, R255). -/
theorem startRead_addsAnswers (p : Params) (R : Registries) (n : BitVec 32) (d : Deframer) (ops : List Byte) :
    addsAnswers (0x43 :: ops) d.results (startRead p R n d).results := by
  obtain ⟨heq, -⟩ | ⟨heq, -⟩ := startRead_cases p R n d <;> rw [heq]
  · exact addsAnswers_one (okResult_legal (by decide) _) _ _
  · exact runReceive_addsAnswers p R (.read n (unread d)) d ops

/-- The read that waits at a deframer, by its opcode. -/
def waitingRead (d : Deframer) : List Byte :=
  match d.wait with
  | .idle        => []
  | .rxPending c => [readOp c]

/-- A DF_ command that reaches a deframer may end there, and then the read that waits. -/
theorem deframerOps_command {w : BitVec 16} {k : Nat} (hop : isDeframerOp (opField w) = true)
    (hk : (instField w).toNat = k) (r : OperandRecord) (d : Deframer) :
    deframerOps (.command w r) k d = opField w :: waitingRead d := by
  cases hwait : d.wait <;> simp [deframerOps, waitingRead, hop, hk, hwait]

/-- Where a datagram arrives, the read that waits may end. -/
theorem deframerOps_rx (k : Nat) (dg : Datagram) (d : Deframer) : deframerOps (.rx k dg) k d = waitingRead d := by
  cases hwait : d.wait <;> simp [deframerOps, waitingRead, hwait]

/-- A datagram that arrives adds a result of the read that waits, or none (R318). -/
theorem arriveDeframer_addsAnswers (p : Params) (R : Registries) (dg : Datagram) (d : Deframer) :
    addsAnswers (waitingRead d) d.results (arriveDeframer p R dg d).results := by
  cases hwait : d.wait with
  | idle =>
    rw [arriveDeframer_idle hwait]
    exact addsAnswers_none _ _
  | rxPending c =>
    rw [arriveDeframer_waiting hwait, waitingRead, hwait]
    exact runReceive_addsAnswers p R c _ []

/-- StreamClosed is legal for every read (R302). -/
theorem streamClosed_read_legal (c : DfCont) : resultLegal (readOp c) ⟨.streamClosed, 1, .none⟩ := by
  cases c with
  | readPacket => exact raiseResult_legal (e := streamClosed 1) (by decide) (by decide) _
  | readData => exact raiseResult_legal (e := streamClosed 1) (by decide) (by decide) _
  | read => exact raiseResult_legal (op := 0x43) (e := streamClosed 1) (by decide) (by decide) _

/-- DF_CLOSE adds its OK, and then StreamClosed of the read that it aborts (R256, R257). -/
theorem closeDeframer_addsAnswers (abort : Bool) (d : Deframer) :
    addsAnswers (0x44 :: waitingRead d) d.results (closeDeframer abort d).results := by
  have hok : resultLegal 0x44 ⟨.ok, 0, .none⟩ := okResult_legal (by decide) _
  cases hwait : d.wait with
  | idle =>
    rw [closeDeframer_idle hwait]
    exact addsAnswers_one hok _ _
  | rxPending c =>
    rw [closeDeframer_waiting hwait]
    cases abort with
    | true =>
      refine ⟨[⟨.ok, 0, .none⟩, ⟨.streamClosed, 1, .none⟩], rfl, answers_cons.mpr ⟨hok, ?_⟩⟩
      rw [waitingRead, hwait]
      exact answers_cons.mpr ⟨streamClosed_read_legal c, answers_nil []⟩
    | false => exact addsAnswers_one hok _ _

/-- A command behind the deframers' closed check adds StreamClosed, or what it adds on an open deframer (R258). -/
theorem whenDeframerOpen_addsAnswers {op : Byte} {ops : List Byte} {act : Deframer → Deframer} {d d' : Deframer}
    (hop : Status.streamClosed ∈ statusesOf op) (hact : addsAnswers (op :: ops) d.results (act d).results)
    (h : whenDeframerOpen act d = .ok d') : addsAnswers (op :: ops) d.results d'.results := by
  obtain ⟨-, rfl⟩ | ⟨-, rfl⟩ := whenDeframerOpen_ok h
  · exact addsAnswers_one (raiseResult_legal hop (by decide) _) _ _
  · exact hact

/-- A deframer command adds one legal result or none, and a DF_CLOSE then that of the read it aborts. -/
theorem deframerAct_addsAnswers {p : Params} {R : Registries} {i : Instr} {k : Nat} {d d' : Deframer}
    (ht : targetOf i = some (false, k)) (h : deframerAct p R i d = .ok d') :
    addsAnswers (opcodeByte i.opcode :: waitingRead d) d.results d'.results := by
  cases i with
  | dfOpen =>
    obtain ⟨-, ⟨e, hcheck, rfl⟩ | ⟨-, rfl⟩⟩ := openDeframer_ok (deframerAct_idle (by simp [Instr.opcode]) h).2
    · exact addsAnswers_one (checkProtocol_legal (op := 0x40) (by decide) hcheck _) _ _
    · exact addsAnswers_one (okResult_legal (op := 0x40) (by decide) _) _ _
  | dfReadPacket =>
    exact whenDeframerOpen_addsAnswers (op := 0x41) (by decide) (runReceive_addsAnswers p R .readPacket d _)
      (deframerAct_idle (by simp [Instr.opcode]) h).2
  | dfReadData =>
    exact whenDeframerOpen_addsAnswers (op := 0x42) (by decide) (runReceive_addsAnswers p R .readData d _)
      (deframerAct_idle (by simp [Instr.opcode]) h).2
  | dfRead =>
    exact whenDeframerOpen_addsAnswers (op := 0x43) (by decide) (startRead_addsAnswers p R _ d _)
      (deframerAct_idle (by simp [Instr.opcode]) h).2
  | dfClose => exact whenDeframerOpen_addsAnswers (op := 0x44) (by decide) (closeDeframer_addsAnswers _ d) h
  | _ => cases ht

/-! ## The ports of the block -/

/-- Every port gains results of the commands that `e` may end there, from `s` to `t`. -/
structure AnswersPorts (e : Event) (s t : State) : Prop where
  loose : addsAnswers (looseOps e) s.results t.results
  framers : ∀ (k : Nat) (f f' : Framer), s.frs[k]? = some f → t.frs[k]? = some f' →
    addsAnswers (framerOps e k f) f.results f'.results
  deframers : ∀ (k : Nat) (d d' : Deframer), s.dfs[k]? = some d → t.dfs[k]? = some d' →
    addsAnswers (deframerOps e k d) d.results d'.results

/-- Instances that stay gain nothing. -/
theorem addsAnswers_unchanged {α : Type} {results : α → List Result} {ops : List Byte} {x : Option α} {a a' : α}
    (h : x = some a) (h' : x = some a') : addsAnswers ops (results a) (results a') := by
  cases h.symm.trans h'
  exact addsAnswers_none _ _

/-- A legal result on the port of no instance, of the command that the event brings. -/
theorem answersPorts_report {e : Event} {op : Byte} {r : Result} (hops : looseOps e = [op]) (h : resultLegal op r)
    (s : State) : AnswersPorts e s (s.report r) :=
  ⟨hops ▸ addsAnswers_one h _ _, fun _ _ _ => addsAnswers_unchanged, fun _ _ _ => addsAnswers_unchanged⟩

/-- Results of one framer alone. -/
theorem answersPorts_setFramer {e : Event} {s : State} {k : Nat} {f f' : Framer} (hf : s.frs[k]? = some f)
    (h : addsAnswers (framerOps e k f) f.results f'.results) : AnswersPorts e s (s.setFramer k f') := by
  refine ⟨addsAnswers_none _ _, fun j g g' hg hg' => ?_, fun _ _ _ => addsAnswers_unchanged⟩
  obtain ⟨rfl, rfl⟩ | rfl := setFramer_get_cases hg hg'
  · cases hf.symm.trans hg
    exact h
  · exact addsAnswers_none _ _

/-- Results of one deframer alone. -/
theorem answersPorts_setDeframer {e : Event} {s : State} {k : Nat} {d d' : Deframer} (hd : s.dfs[k]? = some d)
    (h : addsAnswers (deframerOps e k d) d.results d'.results) : AnswersPorts e s (s.setDeframer k d') := by
  refine ⟨addsAnswers_none _ _, fun _ _ _ => addsAnswers_unchanged, fun j g g' hg hg' => ?_⟩
  obtain ⟨rfl, rfl⟩ | rfl := setDeframer_get_cases hg hg'
  · cases hd.symm.trans hg
    exact h
  · exact addsAnswers_none _ _

/-- The command-word check answers cause 1 or 2 (R308). -/
theorem wordCheck_cause {s : State} {w : BitVec 16} {c : BitVec 8} (h : wordCheck s w = some c) :
    c ∈ causesOf .illegalCommand := by
  unfold wordCheck at h
  split_ifs at h <;> cases h <;> decide

/-- A command that runs adds results at its own port. -/
theorem exec_answersPorts {w : BitVec 16} {r : OperandRecord} {i : Instr} {s t : State} (hs : stateInv s)
    (hdecode : decode w r = .ok i) (h : exec i s = .next t) : AnswersPorts (.command w r) s t := by
  obtain ⟨hop, hinst, -⟩ := decode_ok hdecode
  obtain ⟨-, -, -, hframers, -⟩ := hs
  obtain ⟨ht, rfl⟩ | ⟨ht, ⟨-, rfl⟩ | ⟨f, f', hf, hidle, hact, rfl⟩⟩ | ⟨ht, ⟨-, rfl⟩ | ⟨d, d', hd, hact, rfl⟩⟩ :=
    exec_next h
  · exact answersPorts_report rfl (hop ▸ statelessResult_legal ht _) s
  · exact answersPorts_report rfl (illegalCommand_legal (by decide) _ _) s
  · have hops : framerOps (.command w r) i.inst.toNat f = [opcodeByte i.opcode] := by
      simp [framerOps, hop, hinst, targetOf_framer_iff.mp ht]
    exact answersPorts_setFramer hf
      (hops ▸ framerAct_addsAnswers ht (hframers f (List.mem_of_getElem? hf)) hidle hact)
  · exact answersPorts_report rfl (illegalCommand_legal (by decide) _ _) s
  · have hops := deframerOps_command (hop ▸ targetOf_deframer_iff.mp ht) (congrArg BitVec.toNat hinst) r d
    rw [hop] at hops
    exact answersPorts_setDeframer hd (hops ▸ deframerAct_addsAnswers ht hact)

/-- An event adds results at the port of the command that it brings, resumes or aborts. -/
theorem eventStep_answersPorts {e : Event} {s t : State} (hs : stateInv s) (h : eventStep e s = .next t) :
    AnswersPorts e s t := by
  cases e with
  | command w r =>
    obtain ⟨c, hcheck, rfl⟩ | ⟨i, -, hdecode, -, hexec⟩ := runCommand_next h
    · exact answersPorts_report rfl (illegalCommand_legal (wordCheck_cause hcheck) _ _) s
    · exact exec_answersPorts hs hdecode hexec
  | tx k ok =>
    obtain ⟨f, f', hf, hanswer, rfl⟩ := txEvent_next h
    obtain ⟨-, -, -, hframers, -⟩ := hs
    obtain ⟨dg, u, c, hwait, hadds⟩ := answerFramer_addsAnswers (hframers f (List.mem_of_getElem? hf)) hanswer
    have hops : framerOps (.tx k ok) k f = [contOp c] := by simp [framerOps, hwait]
    exact answersPorts_setFramer hf (hops ▸ hadds)
  | rx k dg =>
    obtain ⟨d, hd, rfl⟩ := rxEvent_next h
    exact answersPorts_setDeframer hd (deframerOps_rx k dg d ▸ arriveDeframer_addsAnswers _ _ dg d)

/-- Settles O53: a step takes its event, which adds results at the ports of the commands that it ends alone. -/
theorem everyResultIsOneTheCommandMayReturn : Obligations.EveryResultIsOneTheCommandMayReturn := by
  intro s t e rest hs he hstep
  rw [step_cons he] at hstep
  obtain ⟨hloose, hframers, hdeframers⟩ := eventStep_answersPorts (s := { s with events := rest }) hs hstep
  exact ⟨hloose, hframers, hdeframers⟩

end Sys2Proof.Machine
end

