-- ==== Sys2Proof/Proofs/Reset.lean ====
section
/-! The block after reset (R330), what it does while nothing happens (R331, R336, R337), and the registries from reset
on (R332). -/

namespace Sys2Proof.Machine

/-- A framer of the block after reset is the one that `Framer.reset` gives. -/
theorem eq_reset_of_mem_reset_frs {f : Framer} (h : f ∈ State.reset.frs) : f = Framer.reset State.reset.params :=
  List.eq_of_mem_replicate h

/-- A deframer of the block after reset is the one that `Deframer.reset` gives. -/
theorem eq_reset_of_mem_reset_dfs {d : Deframer} (h : d ∈ State.reset.dfs) : d = Deframer.reset :=
  List.eq_of_mem_replicate h

/-- The block has a framer, whatever N_FR is. -/
theorem reset_frs_ne_nil : State.reset.frs ≠ [] :=
  List.cons_ne_nil _ _

/-- The block has a deframer, whatever N_DF is. -/
theorem reset_dfs_ne_nil : State.reset.dfs ≠ [] :=
  List.cons_ne_nil _ _

/-- Settles O1: every instance of the block after reset is a copy of the one reset framer or the one reset deframer,
whose fields are read off. -/
theorem resetLeavesEverythingClosedAndIdle : Obligations.ResetLeavesEverythingClosedAndIdle := by
  refine ⟨rfl, registryContents_legal, reset_frs_ne_nil, reset_dfs_ne_nil, fun f hf => ?_, fun d hd => ?_, rfl, rfl⟩
  · rw [eq_reset_of_mem_reset_frs hf]
    exact ⟨rfl, rfl, rfl, rfl, rfl, rfl, rfl, rfl⟩
  · rw [eq_reset_of_mem_reset_dfs hd]
    exact ⟨rfl, rfl, rfl, rfl, rfl⟩

/-- Settles O2: a step does nothing but take the oldest event. -/
theorem waitsUnchangedWithoutEvents : Obligations.WaitsUnchangedWithoutEvents := by
  intro s h
  exact step_nil h

/-- Settles O3: reset fills the registries, which are part of the state that every step keeps. -/
theorem registriesFullFromResetAndNeverWritten : Obligations.RegistriesFullFromResetAndNeverWritten := by
  refine ⟨rfl, registryContents_legal, fun s t h => ?_⟩
  exact (step_sameFixedState h).registries

end Sys2Proof.Machine
end
